-- ==== Sys2Proof/Word.lean ====
section
/-! DEFINITION. The widths the spec names: bytes of a key, 32-bit registers and hash values, 64-bit command words. -/

namespace Sys2Proof

/-- One key byte or one light-tier byte (R35, R38). -/
abbrev Byte := BitVec 8

/-- A CSR or a hash value (R22, R100). -/
abbrev Word32 := BitVec 32

/-- A command word or an estimate on the response channel (R70, R80). -/
abbrev Word64 := BitVec 64

/-- An element index of a tier array, read left to right (R10): `[j, b, s]` for `C8[j][b][s]`. -/
abbrev Index := List Nat

end Sys2Proof
end

