-- ==== Sys2Proof/Config.lean ====
section
/-! DEFINITION. What the source fixes (R8), what an instance fixes (R7), and the values the spec leaves open
(R100, R40, R220). The open ones are opaque constants: nothing can be proved about the value they have. -/

namespace Sys2Proof

/-- The maxima of one built instance (R7). A state carries them, so that every statement holds for every instance. -/
structure Params where
  /-- L_MAX, largest legal L. -/
  lMax : Nat
  /-- M_MAX, largest legal M. -/
  mMax : Nat
  /-- LL_MAX, largest legal LL. -/
  llMax : Nat
  /-- B_MAX, largest legal B. -/
  bMax : Nat
  /-- H_MAX, largest legal H. -/
  hMax : Nat
  /-- N8_MAX, largest legal N8. -/
  n8Max : Nat
  /-- N16_MAX, largest legal N16. -/
  n16Max : Nat
  /-- KEY_MAX_LEN, largest key in bytes. -/
  keyMaxLen : Nat
deriving DecidableEq, Repr

/-- The ranges of R7. -/
abbrev Params.legal (p : Params) : Prop :=
  (1 ≤ p.lMax ∧ p.lMax ≤ 256) ∧ (1 ≤ p.mMax ∧ p.mMax ≤ 256) ∧
  (1 ≤ p.llMax ∧ p.llMax < 2 ^ 32) ∧ (1 ≤ p.bMax ∧ p.bMax < 2 ^ 32) ∧ (1 ≤ p.hMax ∧ p.hMax < 2 ^ 32) ∧
  (1 ≤ p.n8Max ∧ p.n8Max < 2 ^ 32) ∧ (1 ≤ p.n16Max ∧ p.n16Max < 2 ^ 32) ∧
  (1 ≤ p.keyMaxLen ∧ p.keyMaxLen ≤ 255)

namespace Config

/-! The constants of R8. -/

/-- Saturation value of a light nibble (R8). -/
@[simp] abbrev lightSat : Nat := 15
/-- What a saturated light tier contributes (R8). -/
@[simp] abbrev lightCap : Nat := 14
/-- Saturation value of an 8-bit counter (R8). -/
@[simp] abbrev c8Sat : Nat := 255
/-- What a saturated 8-bit tier contributes (R8). -/
@[simp] abbrev c8Cap : Nat := 254
/-- Saturation value of a 16-bit counter and of VAL (R8). -/
@[simp] abbrev c16Sat : Nat := 65535
/-- What a saturated 16-bit tier contributes (R8). -/
@[simp] abbrev c16Cap : Nat := 65534
/-- Saturation value of a heavy counter (R8). -/
@[simp] abbrev heavySat : Nat := 4294967295
/-- Tier base of the light tier (R8, R174). -/
@[simp] abbrev base0 : Nat := 0
/-- Tier base of the 8-bit tier (R8, R174). -/
@[simp] abbrev base1 : Nat := 14
/-- Tier base of the key-value and 16-bit tiers (R8, R174). -/
@[simp] abbrev base2 : Nat := 268
/-- Tier base of the heavy array (R8, R174). -/
@[simp] abbrev base3 : Nat := 65802

/-! The open parameters of R7, each one less than its value, so that it lies in R7's range whatever it is. -/

/-- L_MAX - 1 (R7; log entry 2). -/
opaque lMaxPred : Fin 256
/-- M_MAX - 1 (R7; log entry 2). -/
opaque mMaxPred : Fin 256
/-- LL_MAX - 1 (R7; log entry 2). -/
opaque llMaxPred : Fin 4294967295
/-- B_MAX - 1 (R7; log entry 2). -/
opaque bMaxPred : Fin 4294967295
/-- H_MAX - 1 (R7; log entry 2). -/
opaque hMaxPred : Fin 4294967295
/-- N8_MAX - 1 (R7; log entry 2). -/
opaque n8MaxPred : Fin 4294967295
/-- N16_MAX - 1 (R7; log entry 2). -/
opaque n16MaxPred : Fin 4294967295
/-- KEY_MAX_LEN - 1 (R7; log entry 2). -/
opaque keyMaxLenPred : Fin 255

/-- The instance that `State.reset` is the reset state of: any one within R7's ranges. -/
def params : Params :=
  { lMax := lMaxPred.val + 1, mMax := mMaxPred.val + 1, llMax := llMaxPred.val + 1, bMax := bMaxPred.val + 1,
    hMax := hMaxPred.val + 1, n8Max := n8MaxPred.val + 1, n16Max := n16MaxPred.val + 1,
    keyMaxLen := keyMaxLenPred.val + 1 }

/-- HASH(key, seed) of R100: the deterministic provider's function, an open parameter (log entry 1). -/
opaque hash : List Byte → Nat → Word32

/-- What one tier array holds after a reset edge (R40, R220: unspecified): the `n`-th free value for array number
`array`, of element width `w` (log entry 7). -/
opaque unspecifiedCells : (array : Nat) → (w : Nat) → (n : Nat) → List (Index × BitVec w)

/-- CSR_BASE (R62): where the platform places the CSR space. Nothing inside the block depends on it (log entry 18). -/
opaque csrBase : Nat

end Config

end Sys2Proof
end

