-- ==== Sys2Proof/Machine/Cells.lean ====
section
/-! DEFINITION. One storage array of the block as plain data: a list of (index, element) pairs in one canonical form,
indices strictly rising in left-to-right order and no element equal to 0, which is what an unlisted index reads as
(R40: CONFIGURE clears every element to 0). -/

namespace Sys2Proof.Machine

/-- A sparse array of `w`-bit elements (R35 to R39). -/
abbrev Cells (w : Nat) := List (Index × BitVec w)

/-- Left-to-right order of indices. -/
def indexLt : Index → Index → Bool
  | [], [] => false
  | [], _ :: _ => true
  | _ :: _, [] => false
  | a :: k, b :: l => if a = b then indexLt k l else decide (a < b)

/-- `x[k]` (R10). -/
def Cells.read {w : Nat} : Cells w → Index → BitVec w
  | [], _ => 0#w
  | (k', v) :: m, k => if k = k' then v else Cells.read m k

/-- Drop the element at `k`, which then reads as 0. -/
def Cells.erase {w : Nat} : Cells w → Index → Cells w
  | [], _ => []
  | (k', v) :: m, k => if k = k' then Cells.erase m k else (k', v) :: Cells.erase m k

/-- Put a nonzero element at `k`, in order. -/
def Cells.insert {w : Nat} : Cells w → Index → BitVec w → Cells w
  | [], k, v => [(k, v)]
  | (k', v') :: m, k, v =>
    if k = k' then (k, v) :: m
    else if indexLt k k' then (k, v) :: (k', v') :: m
    else (k', v') :: Cells.insert m k v

/-- `x[k] <- v` (R10): changes no element but the one named (R55). -/
def Cells.write {w : Nat} (m : Cells w) (k : Index) (v : BitVec w) : Cells w :=
  if v = 0#w then Cells.erase m k else Cells.insert m k v

/-- The canonical form. -/
def Cells.wf {w : Nat} : Cells w → Bool
  | [] => true
  | [(_, v)] => v != 0#w
  | (k, v) :: (k', v') :: m => v != 0#w && indexLt k k' && Cells.wf ((k', v') :: m)

/-- The array that the given writes, first to last, make of a cleared one: canonical whatever the list holds. -/
def Cells.ofWrites {w : Nat} (l : List (Index × BitVec w)) : Cells w :=
  l.foldl (fun m e => Cells.write m e.1 e.2) []

end Sys2Proof.Machine
end

