-- ==== Sys2Proof/Syntax.lean ====
section
/-! DEFINITION. The commands of the block, one constructor per row of spec/opcode_table.json (R72). -/

namespace Sys2Proof

/-- A command as decoded from one transfer of the command channel (R70, R71): the operand fields of the command word
and the bytes of `cmd_key`, byte 0 first (R52). CONFIGURE ignores the payload (R75). -/
inductive Instr where
  /-- INSERT (R73, R172). -/
  | insert (klen : BitVec 8) (payload : List Byte) (count : Word32)
  /-- QUERY (R74, R173). -/
  | query (klen : BitVec 8) (payload : List Byte)
  /-- CONFIGURE (R75, R176). -/
  | configure
deriving DecidableEq, Repr

end Sys2Proof
end

