-- ==== Sys2Proof/Machine/State.lean ====
section
/-! DEFINITION. The state of the block in the four classes of R20 (registers, tier storage, sequencer, datapath
temporaries), beside them the instance's maxima (R7), what is outside on the ports (R50, R170), and the model's own
counter of free values; and its value at reset (R44). Plain data throughout. -/

namespace Sys2Proof.Machine

/-- The FSM states of R190. The encodings 0xB to 0xF are no state of the block (R195; log entry 8). -/
inductive Fsm where
  | uncfg | clear | idle | hash | light | mid8 | kv | mid16 | heavy | evict | resp
deriving DecidableEq, Repr

/-- Where FSM state HEAVY goes next (R41, R191). -/
inductive HvNext where
  | resp | evict
deriving DecidableEq, Repr

/-- The status codes of R200. -/
inductive Status where
  | ok | errOpcode | errReserved | errNotConfigured | errAlreadyConfigured | errConfig | errKeyLen
deriving DecidableEq, Repr

/-- The configuration and status registers, class 1 of R20. ID is a constant and BUSY a function of the FSM state
(R23, R194); both are read through `csrRead`. -/
structure Csrs where
  /-- CFG_L (R25). -/
  cfgL : Word32
  /-- CFG_M (R26). -/
  cfgM : Word32
  /-- CFG_LIGHT_LEN (R27). -/
  cfgLightLen : Word32
  /-- CFG_B (R28). -/
  cfgB : Word32
  /-- CFG_H (R29). -/
  cfgH : Word32
  /-- CFG_LEN8 (R30). -/
  cfgLen8 : Word32
  /-- CFG_LEN16 (R31). -/
  cfgLen16 : Word32
  /-- CFG_THR_LO (R32). -/
  cfgThrLo : Word32
  /-- CFG_THR_HI (R33). -/
  cfgThrHi : Word32
  /-- STATUS.CONFIGURED (R24). -/
  configured : Bool
  /-- STATUS.CFG_LOCK (R24, R34). -/
  cfgLock : Bool
  /-- STATUS.LAST_STATUS (R24). -/
  lastStatus : BitVec 4
deriving DecidableEq, Repr

/-- The tier storage, class 2 of R20. -/
structure Storage where
  /-- `LIGHT[l][i]` at `[l, i]` (R35). -/
  light : Cells 8
  /-- `C8[j][b][s]` at `[j, b, s]` (R36). -/
  c8 : Cells 8
  /-- `C16[j][b][s]` at `[j, b, s]` (R37). -/
  c16 : Cells 16
  /-- `OCC[j][b]` at `[j, b]` (R38). -/
  occ : Cells 1
  /-- `KLS[j][b]` at `[j, b]` (R38). -/
  kls : Cells 8
  /-- `KEYB[j][b][i]` at `[j, b, i]` (R38). -/
  keyb : Cells 8
  /-- `VAL[j][b]` at `[j, b]` (R38). -/
  val : Cells 16
  /-- `HEAVY[i]` at `[i]` (R39). -/
  heavy : Cells 32
deriving DecidableEq, Repr

/-- The sequencer registers, class 3 of R20 (R41), and the progress of the command in flight on the hash port, which
R101, R191 and R194 imply: the requests transferred and the answers latched so far. -/
structure Sequencer where
  /-- `fsm` (R41, R190). -/
  fsm : Fsm
  /-- `CMD`, the accepted command word (R41). -/
  cmd : Word64
  /-- `KEY`, the accepted key bytes, byte 0 first (R41). -/
  key : List Byte
  /-- `HV[s]` at `[s]` (R41, R101). -/
  hv : Cells 32
  /-- `RSP_STATUS` (R41). -/
  rspStatus : BitVec 4
  /-- `RSP_EST` (R41). -/
  rspEst : Word64
  /-- `hv_next` (R41). -/
  hvNext : HvNext
  /-- `cfgd` (R41). -/
  cfgd : Bool
  /-- `x`, what HEAVY adds (R41). -/
  x : BitVec 35
  /-- How many of the S hash requests have been transferred (R194; log entry 5). -/
  hashAsked : Nat
  /-- How many of the S hash answers have been latched (log entry 5). -/
  hashNext : Nat
deriving DecidableEq, Repr

/-- The datapath temporaries, class 4 of R20: exact integers in registers wide enough (R43). -/
structure Temps where
  /-- Minimum of the light probes. -/
  m : Nat
  /-- Light candidate. -/
  cand : Nat
  /-- Count forwarded to the next tier. -/
  rem : Nat
  /-- Minimum of the 8-bit probes. -/
  m8 : Nat
  /-- 8-bit candidate. -/
  cand8 : Nat
  /-- Minimum of the 16-bit probes. -/
  m16 : Nat
  /-- 16-bit candidate. -/
  cand16 : Nat
  /-- 16-bit minimum after the update. -/
  m16r : Nat
  /-- New key-value value. -/
  nv : Nat
  /-- Layer found by the key-value scan, or NONE. -/
  f : Option Nat
  /-- Layer of kv_min, or NONE. -/
  k : Option Nat
  /-- Least VAL of the candidate buckets. -/
  vmin : Nat
  /-- The estimate. -/
  res : Nat
deriving DecidableEq, Repr

/-- An access on the CSR port (R170). -/
inductive CsrAccess where
  /-- A read at a byte address (R178). -/
  | read (addr : BitVec 8)
  /-- A write at a byte address (R179). -/
  | write (addr : BitVec 8) (data : Word32)
deriving DecidableEq, Repr

/-- A transfer on the command channel (R70): the command word and the key payload, byte 0 first. -/
structure Command where
  /-- `cmd_word`. -/
  word : Word64
  /-- `cmd_key`. -/
  payload : List Byte
deriving DecidableEq, Repr

/-- What the hash provider drives on the hash port at one edge (R170): the request and the response handshake are
separate, so a request can be taken with its answer still owed. -/
structure HashInput where
  /-- `hreq_ready`. -/
  hreqReady : Bool
  /-- `hrsp_value` with `hrsp_valid` = 1, if any. -/
  hrsp : Option Word32
deriving DecidableEq, Repr

/-- What the outside drives at one rising clock edge (R170). -/
structure Edge where
  /-- `rst`. -/
  rst : Bool
  /-- A CSR access with `csr_valid` = 1, if any. -/
  csr : Option CsrAccess
  /-- A command with `cmd_valid` = 1, if any. -/
  cmd : Option Command
  /-- `rsp_ready`. -/
  rspReady : Bool
  /-- The hash port, which only a command in state HASH looks at (R194). -/
  hash : HashInput
deriving DecidableEq, Repr

/-- An edge at which the outside drives nothing. -/
def Edge.quiet : Edge :=
  { rst := false, csr := none, cmd := none, rspReady := false, hash := { hreqReady := false, hrsp := none } }

/-- What is outside the block on its ports: the edges to come, what the hash provider will answer, and the read data
the CSR port drove at the last edge. -/
structure Ports where
  /-- The edges to come, the next one first; beyond the last, nothing is driven (log entry 9). -/
  inputs : List Edge
  /-- The hash values that atomic commands take, in request order (the per-command draw of R100); beyond the last,
  they are those of the function HASH (log entry 1). The FSM takes its values from the edges. -/
  draws : List Word32
  /-- `csr_rdata` of the read completed at the last edge, if one was (R170; log entry 24). -/
  csrRdata : Option Word32
deriving DecidableEq, Repr

/-- The state of the machine. -/
structure State where
  /-- The instance's maxima (R7). -/
  inst : Params
  /-- Configuration and status registers. -/
  csr : Csrs
  /-- Tier storage. -/
  store : Storage
  /-- Sequencer registers. -/
  seq : Sequencer
  /-- Datapath temporaries. -/
  tmp : Temps
  /-- The ports. -/
  port : Ports
  /-- How many free values have been taken: the model's own field (log entry 7). -/
  free : Nat
deriving DecidableEq, Repr

/-- Reasons to stop with a fault. -/
inductive Fault where
  /-- Raised by INSERT and QUERY, and by an FSM state that probes storage, where the configuration registers do not hold
  a configuration that CONFIGURE accepts although the block says it is configured: the index formulas would divide by
  zero or the threshold have no meaning (R177, 93_implementation_defined.md I17). SAFE: no state that reset reaches
  raises it (log entry 14). -/
  | invalidConfiguration
deriving DecidableEq, Repr

/-- Reasons to refuse. -/
inductive Refusal where
  /-- Raised by an arm of `exec` for an instruction that has no meaning yet; none has it now. SAFE. -/
  | notModelled (mnemonic : String)
deriving DecidableEq, Repr

/-- The outcome of a step or of a command. -/
abbrev Result := Host.Outcome State Fault Refusal

/-- Every array cleared (R40). -/
def Storage.cleared : Storage :=
  { light := [], c8 := [], c16 := [], occ := [], kls := [], keyb := [], val := [], heavy := [] }

/-- The registers right after reset (R44). -/
def Csrs.reset : Csrs :=
  { cfgL := 0, cfgM := 0, cfgLightLen := 0, cfgB := 0, cfgH := 0, cfgLen8 := 0, cfgLen16 := 0,
    cfgThrLo := 0, cfgThrHi := 0x40000000#32, configured := false, cfgLock := false, lastStatus := 0 }

/-- The sequencer right after reset (R44): UNCFG, `cfgd` = 0; the registers R41 leaves unspecified and dead are 0, and
`KEY` is as many zero bytes as the instance holds (log entry 4). -/
def Sequencer.reset (p : Params) : Sequencer :=
  { fsm := .uncfg, cmd := 0, key := List.replicate p.keyMaxLen 0, hv := [], rspStatus := 0, rspEst := 0,
    hvNext := .resp, cfgd := false, x := 0, hashAsked := 0, hashNext := 0 }

/-- The temporaries right after reset: unspecified and dead (R43, R44), 0 or NONE here (log entry 5). -/
def Temps.reset : Temps :=
  { m := 0, cand := 0, rem := 0, m8 := 0, cand8 := 0, m16 := 0, cand16 := 0, m16r := 0, nv := 0,
    f := none, k := none, vmin := 0, res := 0 }

/-- The machine right after reset (R44, R221): nothing outside yet, and the storage, unspecified and unobservable
until CONFIGURE clears it (R40), with nothing listed (log entry 6). -/
def State.reset : State :=
  { inst := Config.params, csr := Csrs.reset, store := Storage.cleared, seq := Sequencer.reset Config.params,
    tmp := Temps.reset, port := { inputs := [], draws := [], csrRdata := none }, free := 0 }

end Sys2Proof.Machine
end

