-- ==== Sys2Proof/Machine/Flags.lean ====
section
/-! DEFINITION. The flags of the block: the status codes (R200), BUSY (R194) and the STATUS word (R24). R24: no other
flag or condition code exists. -/

namespace Sys2Proof.Machine

/-- The 4-bit code of a status (R200). -/
def Status.code : Status → BitVec 4
  | .ok => 0x0
  | .errOpcode => 0x1
  | .errReserved => 0x2
  | .errNotConfigured => 0x3
  | .errAlreadyConfigured => 0x4
  | .errConfig => 0x5
  | .errKeyLen => 0x6

/-- The 4-bit encoding of an FSM state (R190). -/
def Fsm.code : Fsm → BitVec 4
  | .uncfg => 0x0
  | .clear => 0x1
  | .idle => 0x2
  | .hash => 0x3
  | .light => 0x4
  | .mid8 => 0x5
  | .kv => 0x6
  | .mid16 => 0x7
  | .heavy => 0x8
  | .evict => 0x9
  | .resp => 0xA

/-- An idle state, one that accepts a command (R190, R194). -/
def Fsm.accepting (f : Fsm) : Bool := f == .uncfg || f == .idle

/-- STATUS.BUSY (R194; log entry 16). -/
def State.busy (s : State) : Bool := !s.seq.fsm.accepting

/-- The STATUS register (R24): CONFIGURED, BUSY, CFG_LOCK in bits 0 to 2, LAST_STATUS in bits 11:8, the rest 0. -/
def State.statusWord (s : State) : Word32 :=
  0#20 ++ s.csr.lastStatus ++ 0#5 ++ BitVec.ofBool s.csr.cfgLock ++ BitVec.ofBool s.busy ++
    BitVec.ofBool s.csr.configured

end Sys2Proof.Machine
end

