-- ==== Sys2Proof/Machine/Csr.lean ====
section
/-! DEFINITION. The CSR port (R22 to R34, R51, R178, R179) and the check of the configuration (R33, R177). -/

namespace Sys2Proof.Machine

/-- IDCODE (R23). -/
abbrev idCode : Word32 := 0x534B4331#32

/-- The registers of the CSR map (R22). -/
inductive CsrName where
  | id | status | cfgL | cfgM | cfgLightLen | cfgB | cfgH | cfgLen8 | cfgLen16 | cfgThrLo | cfgThrHi
deriving DecidableEq, Repr

/-- The byte address of a register (R22). -/
def CsrName.addr : CsrName → BitVec 8
  | .id => 0x00
  | .status => 0x04
  | .cfgL => 0x08
  | .cfgM => 0x0C
  | .cfgLightLen => 0x10
  | .cfgB => 0x14
  | .cfgH => 0x18
  | .cfgLen8 => 0x1C
  | .cfgLen16 => 0x20
  | .cfgThrLo => 0x24
  | .cfgThrHi => 0x28

/-- The registers in address order. -/
def CsrName.all : List CsrName :=
  [.id, .status, .cfgL, .cfgM, .cfgLightLen, .cfgB, .cfgH, .cfgLen8, .cfgLen16, .cfgThrLo, .cfgThrHi]

/-- The register at an address; none at a misaligned or a reserved one (R22, R51). -/
def csrAt (a : BitVec 8) : Option CsrName := CsrName.all.find? fun n => n.addr == a

/-- The value of a register (R23 to R33). -/
def State.csrValue (s : State) : CsrName → Word32
  | .id => idCode
  | .status => s.statusWord
  | .cfgL => s.csr.cfgL
  | .cfgM => s.csr.cfgM
  | .cfgLightLen => s.csr.cfgLightLen
  | .cfgB => s.csr.cfgB
  | .cfgH => s.csr.cfgH
  | .cfgLen8 => s.csr.cfgLen8
  | .cfgLen16 => s.csr.cfgLen16
  | .cfgThrLo => s.csr.cfgThrLo
  | .cfgThrHi => s.csr.cfgThrHi

/-- `MemRead(a, 4)` (R178): 0 at a reserved or misaligned address (R51). -/
def State.csrRead (s : State) (a : BitVec 8) : Word32 :=
  match csrAt a with
  | some n => s.csrValue n
  | none => 0

/-- The CFG_* register `n` takes `v`; ID and STATUS ignore the write (R23, R24, R179). -/
def Csrs.setReg (c : Csrs) (n : CsrName) (v : Word32) : Csrs :=
  match n with
  | .id => c
  | .status => c
  | .cfgL => { c with cfgL := v }
  | .cfgM => { c with cfgM := v }
  | .cfgLightLen => { c with cfgLightLen := v }
  | .cfgB => { c with cfgB := v }
  | .cfgH => { c with cfgH := v }
  | .cfgLen8 => { c with cfgLen8 := v }
  | .cfgLen16 => { c with cfgLen16 := v }
  | .cfgThrLo => { c with cfgThrLo := v }
  | .cfgThrHi => { c with cfgThrHi := v }

/-- `MemWrite(a, 4, v)` (R179): ignored while CFG_LOCK = 1 (R34) and at a reserved or misaligned address (R51). -/
def Csrs.write (c : Csrs) (a : BitVec 8) (v : Word32) : Csrs :=
  match csrAt a with
  | some n => if c.cfgLock then c else c.setReg n v
  | none => c

/-- The CSR port at one edge: a read drives `csr_rdata` with the value from before the edge, a write changes its
register (R178, R179, R210). -/
def csrPort (a : Option CsrAccess) (s : State) : State :=
  match a with
  | none => { s with port := { s.port with csrRdata := none } }
  | some (.read addr) => { s with port := { s.port with csrRdata := some (s.csrRead addr) } }
  | some (.write addr v) => { s with csr := s.csr.write addr v, port := { s.port with csrRdata := none } }

/-- THRBITS, the 64 bits of CFG_THR_HI:CFG_THR_LO (R32, R33, R52). -/
def Csrs.thrBits (c : Csrs) : Word64 := c.cfgThrHi ++ c.cfgThrLo

/-- E = THRBITS[62:52] (R33). -/
def thrExponent (t : Word64) : Nat := (t.extractLsb' 52 11).toNat

/-- F = THRBITS[51:0] (R33). -/
def thrFraction (t : Word64) : Nat := (t.extractLsb' 0 52).toNat

/-- A finite binary64 value greater than zero (R33, R177). -/
def thrLegal (t : Word64) : Bool :=
  !t.getLsbD 63 && thrExponent t != 0x7FF && (thrExponent t != 0 || thrFraction t != 0)

/-- A field is in 1 to its maximum (R177). -/
def inRange (v : Word32) (max : Nat) : Bool := decide (1 ≤ v.toNat) && decide (v.toNat ≤ max)

/-- CfgValid() (R177). -/
def Csrs.cfgValid (c : Csrs) (p : Params) : Bool :=
  inRange c.cfgL p.lMax && inRange c.cfgM p.mMax &&
  inRange c.cfgLightLen p.llMax && inRange c.cfgB p.bMax && inRange c.cfgH p.hMax &&
  inRange c.cfgLen8 p.n8Max && inRange c.cfgLen16 p.n16Max &&
  thrLegal c.thrBits

/-- CfgValid() of the machine. -/
def State.cfgValid (s : State) : Bool := s.csr.cfgValid s.inst

end Sys2Proof.Machine
end

