-- ==== Sys2Proof/WellFormed.lean ====
section
/-! DEFINITION. Which commands one transfer can carry. A key length that no key may have (0, or above KEY_MAX_LEN) is
well formed: it decodes, and the command answers ERR_KEY_LEN (R84, R202). -/

namespace Sys2Proof

/-- A payload is at most 255 bytes, the largest KEY_MAX_LEN (R7, R70). -/
def payloadFits (payload : List Byte) : Bool := decide (payload.length ≤ 255)

/-- Well-formedness of a command: its payload fits the widest `cmd_key`. -/
def Instr.wellFormed : Instr → Bool
  | .insert _ payload _ => payloadFits payload
  | .query _ payload => payloadFits payload
  | .configure => true

end Sys2Proof
end

