-- ==== Sys2Proof/Decode.lean ====
section
/-! DEFINITION. Decoding of a command transfer (R71, R72, R76, R77, R78) and the encoder (R73, R74, R75). Decoding is
total: every word with any payload is one of the three commands, an illegal opcode or a reserved-field violation. -/

namespace Sys2Proof

/-- The outcome of decoding (R77), each rejection by its name. -/
inductive Decoded where
  /-- A word of the opcode table. -/
  | command (i : Instr)
  /-- OPC is 0x0 or 0x4 to 0xF (R78): ERR_OPCODE. -/
  | illegalOpcode
  /-- A field that must be zero is not (R78): ERR_RESERVED. -/
  | reservedField
deriving DecidableEq, Repr

/-- OPC = cmd_word[3:0] (R71). -/
def opcOf (w : Word64) : BitVec 4 := w.extractLsb' 0 4

/-- KLEN = cmd_word[15:8] (R71). -/
def klenOf (w : Word64) : BitVec 8 := w.extractLsb' 8 8

/-- COUNT = cmd_word[63:32] (R71). -/
def countOf (w : Word64) : Word32 := w.extractLsb' 32 32

/-- OPC of INSERT (R72). -/
abbrev opcInsert : BitVec 4 := 1#4
/-- OPC of QUERY (R72). -/
abbrev opcQuery : BitVec 4 := 2#4
/-- OPC of CONFIGURE (R72). -/
abbrev opcConfigure : BitVec 4 := 3#4

/-- One row of the opcode table: the fixed bits of a command word. -/
structure EncodingRow where
  /-- The bits that are fixed. -/
  mask : Word64
  /-- The value of the fixed bits. -/
  pattern : Word64
deriving DecidableEq, Repr

/-- INSERT (R73). -/
def rowInsert : EncodingRow := { mask := 0x00000000FFFF00FF#64, pattern := 0x0000000000000001#64 }

/-- QUERY (R74). -/
def rowQuery : EncodingRow := { mask := 0xFFFFFFFFFFFF00FF#64, pattern := 0x0000000000000002#64 }

/-- CONFIGURE (R75). -/
def rowConfigure : EncodingRow := { mask := 0xFFFFFFFFFFFFFFFF#64, pattern := 0x0000000000000003#64 }

/-- The word has the row's fixed bits (the second test of R77, negated). -/
def EncodingRow.fits (r : EncodingRow) (w : Word64) : Bool := w &&& r.mask == r.pattern

/-- Decode a command transfer (R77): the opcode first, then the fixed bits, then the operands of R76. -/
def decode (w : Word64) (payload : List Byte) : Decoded :=
  if opcOf w = opcInsert then
    if rowInsert.fits w then .command (.insert (klenOf w) payload (countOf w)) else .reservedField
  else if opcOf w = opcQuery then
    if rowQuery.fits w then .command (.query (klenOf w) payload) else .reservedField
  else if opcOf w = opcConfigure then
    if rowConfigure.fits w then .command .configure else .reservedField
  else .illegalOpcode

/-- The command word of a command: COUNT, RSV1 = 0, KLEN, RSV0 = 0, OPC from bit 63 down (R71, R73, R74, R75). -/
def encodeWord : Instr → Word64
  | .insert klen _ count => count ++ 0#16 ++ klen ++ 0#4 ++ opcInsert
  | .query klen _ => 0#32 ++ 0#16 ++ klen ++ 0#4 ++ opcQuery
  | .configure => 0#32 ++ 0#16 ++ 0#8 ++ 0#4 ++ opcConfigure

/-- The key payload of a command; CONFIGURE sends none (R71, R75). -/
def encodePayload : Instr → List Byte
  | .insert _ payload _ => payload
  | .query _ payload => payload
  | .configure => []

/-- The transfer of a command: the word and the payload. -/
def encode (i : Instr) : Word64 × List Byte := (encodeWord i, encodePayload i)

/-- The transfer whose bits are `w`, numbered as the opcode table numbers them: bits 63:0 are the command word, byte
`i` of the payload is bits 71+8i:64+8i, and bits from `nbits` up are 0 (R52, R71). -/
def tableTransfer (nbits w : Nat) : Word64 × List Byte :=
  let v := w % 2 ^ nbits
  (BitVec.ofNat 64 v, (List.range 255).map fun i => BitVec.ofNat 8 (v / 2 ^ (64 + 8 * i)))

/-- What the decoder reads from an instruction whose bits are `w`. -/
def decodeTableWord (nbits w : Nat) : Option Instr :=
  match decode (tableTransfer nbits w).1 (tableTransfer nbits w).2 with
  | .command i => some i
  | .illegalOpcode => none
  | .reservedField => none

end Sys2Proof
end

