-- ==== Sys2Proof/Machine/Operands.lean ====
section
/-! DEFINITION. The operands of a command: the key (R52, R71, R76), the configuration as the commands read it (R6), the
hash latch (R100, R101) and the probe indices (R102). -/

namespace Sys2Proof.Machine

/-- The key of `klen` bytes on a payload: byte `i` is `cmd_key[8i+7:8i]`; bytes at `i ≥ klen` are ignored (R71, R76). -/
def keyOf (klen : BitVec 8) (payload : List Byte) : List Byte :=
  (List.range klen.toNat).map fun i => payload.getD i 0

/-- A payload on the KEY_MAX_LEN byte lanes of `cmd_key` (R70). -/
def onKeyLanes (keyMaxLen : Nat) (payload : List Byte) : List Byte :=
  (List.range keyMaxLen).map fun i => payload.getD i 0

/-- The view of the storage that one command has (R102): the configured sizes (R6) and the latched hash values. -/
structure Lookup where
  /-- L. -/
  l : Nat
  /-- M. -/
  m : Nat
  /-- LL. -/
  ll : Nat
  /-- B. -/
  b : Nat
  /-- H. -/
  h : Nat
  /-- N8. -/
  n8 : Nat
  /-- N16. -/
  n16 : Nat
  /-- HV, as read by seed; 0 for a seed the command does not latch, which no probe reads. -/
  hv : Nat → Nat

/-- S = max(L, M), the number of hash seeds of a command (R6, R101). -/
def Csrs.seeds (c : Csrs) : Nat := max c.cfgL.toNat c.cfgM.toNat

/-- The configured sizes with hash values `hv`, of which a command has those of the seeds 0 to S-1 (R6, R101). -/
def Csrs.lookup (c : Csrs) (hv : Nat → Nat) : Lookup :=
  { l := c.cfgL.toNat, m := c.cfgM.toNat, ll := c.cfgLightLen.toNat, b := c.cfgB.toNat, h := c.cfgH.toNat,
    n8 := c.cfgLen8.toNat, n16 := c.cfgLen16.toNat, hv := fun i => if i < c.seeds then hv i else 0 }

/-- The view that the latched hash values give (R101: every tier of a command reads the same HV). -/
def State.lookup (s : State) : Lookup := s.csr.lookup fun i => (s.seq.hv.read [i]).toNat

/-! The probe indices of R102; all arithmetic is exact. -/

/-- `nl[l] = HV[l] mod (2·LL)`. -/
def Lookup.nl (u : Lookup) (l : Nat) : Nat := u.hv l % (2 * u.ll)

/-- `bi[j] = HV[j] mod B`. -/
def Lookup.bi (u : Lookup) (j : Nat) : Nat := u.hv j % u.b

/-- `s8[j] = bi[j] mod N8`. -/
def Lookup.s8 (u : Lookup) (j : Nat) : Nat := u.bi j % u.n8

/-- `s16[j] = bi[j] mod N16`. -/
def Lookup.s16 (u : Lookup) (j : Nat) : Nat := u.bi j % u.n16

/-- `hi = HV[0] mod H`. -/
def Lookup.hi (u : Lookup) : Nat := u.hv 0 % u.h

/-! The probed elements of R102. -/

/-- The L light probes, as (layer, nibble index). -/
def Lookup.lightProbes (u : Lookup) : List (Nat × Nat) := (List.range u.l).map fun l => (l, u.nl l)

/-- The M 8-bit probes. -/
def Lookup.c8Probes (u : Lookup) : List Index := (List.range u.m).map fun j => [j, u.bi j, u.s8 j]

/-- The M 16-bit probes. -/
def Lookup.c16Probes (u : Lookup) : List Index := (List.range u.m).map fun j => [j, u.bi j, u.s16 j]

/-- The candidate bucket of middle layer `j`. -/
def Lookup.bucket (u : Lookup) (j : Nat) : Index := [j, u.bi j]

/-- The heavy counter. -/
def Lookup.heavyProbe (u : Lookup) : Index := [u.hi]

/-! The hash latch of an atomic command (R100, R101). -/

/-- The provider's answer to the request (key, seed): the next draw, or HASH(key, seed) when no draw is left (R100;
log entry 1). -/
def hashAnswer (draws : List Word32) (key : List Byte) (seed : Nat) : Word32 :=
  match draws with
  | [] => Config.hash key seed
  | d :: _ => d

/-- `HV[seed] <- HASH(key, seed)`: one request and one response (R101). -/
def latchHash (key : List Byte) (seed : Nat) (s : State) : State :=
  { s with
    seq := { s.seq with hv := s.seq.hv.write [seed] (hashAnswer s.port.draws key seed) }
    port := { s.port with draws := s.port.draws.tail } }

/-- The hash latch: seeds 0 to `n`-1 in ascending order, each requested once (R101). -/
def latchHashes (key : List Byte) : Nat → State → State
  | 0, s => s
  | n + 1, s => latchHash key n (latchHashes key n s)

end Sys2Proof.Machine
end

