-- ==== Sys2Proof/Machine/Ops.lean ====
section
/-! DEFINITION. The shared operations: the datapath primitives of R103 to R113 over the tier storage, the checks of a
command (R202), ending one with a response (R203 for a refusal, the block's only form of exception), taking the
response (R180), and the reset edge (R220). -/

namespace Sys2Proof.Machine

/-! Arithmetic (R104, R107, R109). -/

/-- The minimum of a nonempty list (R104). -/
def minOf : List Nat → Nat
  | [] => 0
  | [a] => a
  | a :: b :: l => min a (minOf (b :: l))

/-- `satadd_N(a, b)` (R107). -/
def satAdd (n a b : Nat) : Nat := min (a + b) (2 ^ n - 1)

/-- The forwarded remainder `cand − CAP` of R109, applied as written even where every probe was saturated before. -/
def forwarded (cand cap : Nat) : Nat := cand - cap

/-! Probes of one array (R104, R106, R108). -/

/-- The values of the probed elements, in layer order. -/
def Cells.values {w : Nat} (m : Cells w) (ks : List Index) : List Nat := ks.map fun k => (m.read k).toNat

/-- The minimum of the probed elements (R104). -/
def Cells.minAt {w : Nat} (m : Cells w) (ks : List Index) : Nat := minOf (m.values ks)

/-- The conservative-update writeback (R106): each probed element rises to `cand` or stays. -/
def Cells.raiseTo {w : Nat} (ks : List Index) (cand : Nat) (m : Cells w) : Cells w :=
  ks.foldl (fun m k => m.write k (BitVec.ofNat w (max (m.read k).toNat cand))) m

/-- The saturate-all writeback (R108). -/
def Cells.fillWith {w : Nat} (ks : List Index) (sat : Nat) (m : Cells w) : Cells w :=
  ks.foldl (fun m k => m.write k (BitVec.ofNat w sat)) m

/-- The fold of an evicted value (R154): a saturating add to each probed element. -/
def Cells.foldIn {w : Nat} (ks : List Index) (v : Nat) (m : Cells w) : Cells w :=
  ks.foldl (fun m k => m.write k (BitVec.ofNat w (satAdd w (m.read k).toNat v))) m

/-! The light tier's packed nibbles (R35, R53, R55, R103). -/

/-- `Nib(l, n)` (R103). -/
def Storage.nib (t : Storage) (p : Nat × Nat) : Nat :=
  ((t.light.read [p.1, p.2 / 2] >>> (4 * (p.2 % 2))) &&& 0xF#8).toNat

/-- `Nib(l, n) <- v` (R103): a read-modify-write that keeps the byte's other nibble (R55). -/
def Storage.setNib (t : Storage) (p : Nat × Nat) (v : Nat) : Storage :=
  { t with
    light := t.light.write [p.1, p.2 / 2]
      ((t.light.read [p.1, p.2 / 2] &&& ~~~(0xF#8 <<< (4 * (p.2 % 2)))) ||| (BitVec.ofNat 8 v <<< (4 * (p.2 % 2)))) }

/-- The minimum of the light probes (R104). -/
def Storage.lightMin (t : Storage) (u : Lookup) : Nat := minOf (u.lightProbes.map t.nib)

/-- The conservative-update writeback of the light tier (R106). -/
def Storage.lightRaise (t : Storage) (u : Lookup) (cand : Nat) : Storage :=
  u.lightProbes.foldl (fun t p => t.setNib p (max (t.nib p) cand)) t

/-- The saturate-all writeback of the light tier (R108). -/
def Storage.lightFill (t : Storage) (u : Lookup) : Storage :=
  u.lightProbes.foldl (fun t p => t.setNib p Config.lightSat) t

/-! The 8-bit and the 16-bit counters (R104, R106, R108). -/

/-- The minimum of the 8-bit probes. -/
def Storage.c8Min (t : Storage) (u : Lookup) : Nat := t.c8.minAt u.c8Probes

/-- Raise the 8-bit probes to a candidate. -/
def Storage.c8Raise (t : Storage) (u : Lookup) (cand : Nat) : Storage :=
  { t with c8 := t.c8.raiseTo u.c8Probes cand }

/-- Saturate the 8-bit probes. -/
def Storage.c8Fill (t : Storage) (u : Lookup) : Storage := { t with c8 := t.c8.fillWith u.c8Probes Config.c8Sat }

/-- The minimum of the 16-bit probes. -/
def Storage.c16Min (t : Storage) (u : Lookup) : Nat := t.c16.minAt u.c16Probes

/-- Raise the 16-bit probes to a candidate. -/
def Storage.c16Raise (t : Storage) (u : Lookup) (cand : Nat) : Storage :=
  { t with c16 := t.c16.raiseTo u.c16Probes cand }

/-- Saturate the 16-bit probes. -/
def Storage.c16Fill (t : Storage) (u : Lookup) : Storage :=
  { t with c16 := t.c16.fillWith u.c16Probes Config.c16Sat }

/-! The key-value slots (R110, R111, R112). -/

/-- `KeyEq(j)` (R110). -/
def Storage.keyEq (t : Storage) (u : Lookup) (key : List Byte) (j : Nat) : Bool :=
  t.occ.read (u.bucket j) == 1#1 && (t.kls.read (u.bucket j)).toNat == key.length &&
    (List.range key.length).all fun i => t.keyb.read (u.bucket j ++ [i]) == key.getD i 0

/-- The key write (R111): the bytes beyond the key are 0. It does not write VAL. -/
def Storage.keyWrite (t : Storage) (u : Lookup) (keyMaxLen : Nat) (key : List Byte) (j : Nat) : Storage :=
  { t with
    occ := t.occ.write (u.bucket j) 1#1
    kls := t.kls.write (u.bucket j) (BitVec.ofNat 8 key.length)
    keyb := (List.range keyMaxLen).foldl
      (fun m i => m.write (u.bucket j ++ [i]) (if i < key.length then key.getD i 0 else 0)) t.keyb }

/-- MatchScan (R112). -/
def Storage.matchScan (t : Storage) (u : Lookup) (key : List Byte) : Option Nat :=
  (List.range u.m).find? fun j => t.keyEq u key j

/-- FreeScan (R112). -/
def Storage.freeScan (t : Storage) (u : Lookup) : Option Nat :=
  (List.range u.m).find? fun j => t.occ.read (u.bucket j) == 0#1

/-- FindSlot (R112): a match anywhere wins over a free bucket. -/
def Storage.findSlot (t : Storage) (u : Lookup) (key : List Byte) : Option Nat :=
  match t.matchScan u key with
  | some j => some j
  | none => t.freeScan u

/-- `VAL[j][bi[j]]`. -/
def Storage.valAt (t : Storage) (u : Lookup) (j : Nat) : Nat := (t.val.read (u.bucket j)).toNat

/-- `VAL[j][bi[j]] <- v`. -/
def Storage.setVal (t : Storage) (u : Lookup) (j v : Nat) : Storage :=
  { t with val := t.val.write (u.bucket j) (BitVec.ofNat 16 v) }

/-- The claim of slot `f` if it is unclaimed (R140, R141). -/
def Storage.claim (t : Storage) (u : Lookup) (keyMaxLen : Nat) (key : List Byte) (f : Nat) : Storage :=
  if t.occ.read (u.bucket f) = 0#1 then t.keyWrite u keyMaxLen key f else t

/-- The least VAL of the candidate buckets (R153). -/
def Storage.valMin (t : Storage) (u : Lookup) : Nat := minOf ((List.range u.m).map (t.valAt u))

/-- kv_min (R153): the least layer whose candidate bucket has the least VAL. -/
def Storage.kvMin (t : Storage) (u : Lookup) : Option Nat :=
  (List.range u.m).find? fun j => t.valAt u j == t.valMin u

/-- EVICT(k, vmin, m16r) (R154). -/
def Storage.evict (t : Storage) (u : Lookup) (keyMaxLen : Nat) (key : List Byte) (k vmin m16r : Nat) : Storage :=
  let t := (t.keyWrite u keyMaxLen key k).setVal u k m16r
  { t with c16 := t.c16.foldIn u.c16Probes vmin }

/-! The heavy array (R161). -/

/-- `HEAVY[hi]`. -/
def Storage.heavyAt (t : Storage) (u : Lookup) : Nat := (t.heavy.read u.heavyProbe).toNat

/-- HEAVY-ADD(x) (R161). -/
def Storage.heavyAdd (t : Storage) (u : Lookup) (x : Nat) : Storage :=
  { t with heavy := t.heavy.write u.heavyProbe (BitVec.ofNat 32 (satAdd 32 (t.heavyAt u) x)) }

/-! The promotion threshold (R33, R113). -/

/-- `sig` of THR = sig · 2^e (R113). -/
def thrSig (t : Word64) : Nat := if thrExponent t = 0 then thrFraction t else 2 ^ 52 + thrFraction t

/-- `e` of THR = sig · 2^e (R113). -/
def thrExp (t : Word64) : Int := if thrExponent t = 0 then -1074 else (thrExponent t : Int) - 1075

/-- `ThrGE(a, v)` (R113): a ≥ v · THR as real numbers, with no rounding (93_implementation_defined.md I5). -/
def thrGE (t : Word64) (a v : Nat) : Bool :=
  if 0 ≤ thrExp t then decide (v * thrSig t * 2 ^ (thrExp t).toNat ≤ a)
  else decide (v * thrSig t ≤ a * 2 ^ (-thrExp t).toNat)

/-! Accepting and ending a command (R34, R180, R202, R203). -/

/-- Steps 3 and 5 of R202, for INSERT and QUERY. -/
def State.admitKeyed (s : State) (klen : BitVec 8) : Status :=
  if s.csr.configured = false then .errNotConfigured
  else if klen = 0 ∨ s.inst.keyMaxLen < klen.toNat then .errKeyLen
  else .ok

/-- Steps 4 and 6 of R202, for CONFIGURE. -/
def State.admitConfigure (s : State) : Status :=
  if s.csr.configured = true then .errAlreadyConfigured
  else if s.cfgValid = false then .errConfig
  else .ok

/-- CFG_LOCK <- 1, at the acceptance of any word with OPC = 0x3 (R34). -/
def State.lock (s : State) : State := { s with csr := { s.csr with cfgLock := true } }

/-- End the command in flight with a status and an estimate, which wait in RESP (R180, R191). -/
def State.respond (s : State) (st : Status) (est : Nat) : State :=
  { s with seq := { s.seq with fsm := .resp, rspStatus := st.code, rspEst := BitVec.ofNat 64 est } }

/-- `raise <Status>` (R10, R203, R204): taking the block's only form of exception. The response carries the status and
an estimate of 0; nothing else changes. -/
def State.refuse (s : State) (st : Status) : State := s.respond st 0

/-- Latch the command and its key (R191, row IDLE; log entry 12). -/
def State.latchCommand (s : State) (word : Word64) (payload : List Byte) : State :=
  { s with seq := { s.seq with cmd := word, key := onKeyLanes s.inst.keyMaxLen payload } }

/-- Clear the configured storage and report it configured (R40, R176, R191 row CLEAR). -/
def State.configureStorage (s : State) : State :=
  { s with
    csr := { s.csr with configured := true }
    store := Storage.cleared
    seq := { s.seq with cfgd := true } }

/-- The response is taken (R180, R191 row RESP): the return from an error as from any command (R205). -/
def State.deliver (s : State) : State :=
  { s with
    csr := { s.csr with lastStatus := s.seq.rspStatus, cfgLock := s.csr.configured }
    seq := { s.seq with fsm := if s.seq.cfgd then .idle else .uncfg } }

/-! Reset (R220). -/

/-- The storage after a reset edge: unspecified (R40, R220), so free values (log entry 7). -/
def Storage.unspecified (n : Nat) : Storage :=
  { light := Cells.ofWrites (Config.unspecifiedCells 0 8 n), c8 := Cells.ofWrites (Config.unspecifiedCells 1 8 n),
    c16 := Cells.ofWrites (Config.unspecifiedCells 2 16 n), occ := Cells.ofWrites (Config.unspecifiedCells 3 1 n),
    kls := Cells.ofWrites (Config.unspecifiedCells 4 8 n), keyb := Cells.ofWrites (Config.unspecifiedCells 5 8 n),
    val := Cells.ofWrites (Config.unspecifiedCells 6 16 n), heavy := Cells.ofWrites (Config.unspecifiedCells 7 32 n) }

/-- One rising edge with `rst` = 1 (R220): every register takes its reset value, a command in flight and a pending
response are dropped, and the storage becomes unspecified. What is outside the block is not reset (R222). -/
def State.resetEdge (s : State) : State :=
  { inst := s.inst, csr := Csrs.reset, store := Storage.unspecified s.free, seq := Sequencer.reset s.inst,
    tmp := Temps.reset, port := { s.port with csrRdata := none }, free := s.free + 1 }

end Sys2Proof.Machine
end

