-- ==== Sys2Proof/Machine/Configure.lean ====
section
/-! DEFINITION. CONFIGURE (R176). -/

namespace Sys2Proof.Machine

/-- CONFIGURE, from acceptance to its response (R176): CFG_LOCK is set whatever the status will be (R34); the
configuration is the locked CFG_* registers (log entry 15). -/
def execConfigure (s : State) : Result :=
  match s.lock.admitConfigure with
  | .ok => .next (s.lock.configureStorage.respond .ok 0)
  | e => .next (s.lock.refuse e)

end Sys2Proof.Machine
end

