-- ==== Sys2Proof/Machine/Insert.lean ====
section
/-! DEFINITION. INSERT (R172) and its five stages: light (R120), 8-bit (R130), key-value (R140, R141), 16-bit
(R150 to R152) and eviction (R153, R154). A stage takes the storage and gives the storage after the command and the
estimate. -/

namespace Sys2Proof.Machine

/-- What every stage of one command sees (R172): the probes, THRBITS, KEY_MAX_LEN and the key. -/
structure Request where
  /-- The probes (R102). -/
  look : Lookup
  /-- THRBITS (R33). -/
  thr : Word64
  /-- KEY_MAX_LEN (R7). -/
  keyMaxLen : Nat
  /-- The key (R171). -/
  key : List Byte

/-- The request of a key once its hash values are latched. -/
def State.request (s : State) (key : List Byte) : Request :=
  { look := s.lookup, thr := s.csr.thrBits, keyMaxLen := s.inst.keyMaxLen, key := key }

/-- EVICT-DECIDE(m16r) (R153), with the eviction of R154. DESIGN CHOICE (log entry 29): with vmin = m16r = 65535 and
THR = 1.0 R153's pseudocode evicts and its corner case does not; the model evicts. -/
def insertEvict (r : Request) (m16r : Nat) (t : Storage) : Storage :=
  match t.kvMin r.look with
  | some k =>
    if thrGE r.thr m16r (t.valAt r.look k) then t.evict r.look r.keyMaxLen r.key k (t.valAt r.look k) m16r else t
  | none => t

/-- MID16-INSERT(rem) (R150): the counters first, then the eviction decision on the updated minimum (R152). -/
def insertMid16 (r : Request) (rem : Nat) (t : Storage) : Storage × Nat :=
  let cand := t.c16Min r.look + rem
  if cand < Config.c16Sat then
    (insertEvict r cand (t.c16Raise r.look cand), Config.base2 + cand)
  else
    let t := (t.c16Fill r.look).heavyAdd r.look (forwarded cand Config.c16Cap)
    (insertEvict r Config.c16Sat t, Config.base3 + t.heavyAt r.look)

/-- KV-INSERT(rem) (R140), with the claim of R141. -/
def insertKv (r : Request) (rem : Nat) (t : Storage) : Storage × Nat :=
  match t.findSlot r.look r.key with
  | none => insertMid16 r rem t
  | some f =>
    let t := t.claim r.look r.keyMaxLen r.key f
    let nv := t.valAt r.look f + rem
    if nv < Config.c16Sat then (t.setVal r.look f nv, Config.base2 + nv)
    else
      let t := (t.setVal r.look f Config.c16Sat).heavyAdd r.look (forwarded nv Config.c16Cap)
      (t, Config.base3 + t.heavyAt r.look)

/-- MID8-INSERT(rem) (R130). -/
def insertMid8 (r : Request) (rem : Nat) (t : Storage) : Storage × Nat :=
  let cand := t.c8Min r.look + rem
  if cand < Config.c8Sat then (t.c8Raise r.look cand, Config.base1 + cand)
  else insertKv r (forwarded cand Config.c8Cap) (t.c8Fill r.look)

/-- LIGHT-INSERT (R120). -/
def insertLight (r : Request) (count : Nat) (t : Storage) : Storage × Nat :=
  let cand := t.lightMin r.look + count
  if cand < Config.lightSat then (t.lightRaise r.look cand, Config.base0 + cand)
  else insertMid8 r (forwarded cand Config.lightCap) (t.lightFill r.look)

/-- INSERT once it is admitted (R202 step 7): latch the command, the key and the hash values, run the stages, and hold
the response (R172). -/
def State.runInsert (s : State) (klen : BitVec 8) (payload : List Byte) (count : Word32) : State :=
  let key := keyOf klen payload
  let s := latchHashes key s.csr.seeds (s.latchCommand (encodeWord (.insert klen payload count)) payload)
  let out := insertLight (s.request key) count.toNat s.store
  State.respond { s with store := out.1 } .ok out.2

/-- INSERT, from acceptance to its response (R172; log entries 3, 14, 22). -/
def execInsert (klen : BitVec 8) (payload : List Byte) (count : Word32) (s : State) : Result :=
  match s.admitKeyed klen with
  | .ok => if s.cfgValid then .next (s.runInsert klen payload count) else .fault .invalidConfiguration
  | e => .next (s.refuse e)

end Sys2Proof.Machine
end

