-- ==== Sys2Proof/Machine/Query.lean ====
section
/-! DEFINITION. QUERY (R173) and its stages: light (R121), 8-bit (R131), key-value (R142), 16-bit (R155) and heavy
(R160). A stage reads the storage and gives the estimate; no stage writes it. -/

namespace Sys2Proof.Machine

/-- HEAVY-QUERY (R160). -/
def queryHeavy (r : Request) (t : Storage) : Nat := Config.base3 + t.heavyAt r.look

/-- MID16-QUERY (R155). -/
def queryMid16 (r : Request) (t : Storage) : Nat :=
  if t.c16Min r.look < Config.c16Sat then Config.base2 + t.c16Min r.look else queryHeavy r t

/-- KV-QUERY (R142): a match only, and the heavy base when VAL is saturated (90_conflicts.md C3). -/
def queryKv (r : Request) (t : Storage) : Nat :=
  match t.matchScan r.look r.key with
  | none => queryMid16 r t
  | some f => if t.valAt r.look f < Config.c16Sat then Config.base2 + t.valAt r.look f else queryHeavy r t

/-- MID8-QUERY (R131). -/
def queryMid8 (r : Request) (t : Storage) : Nat :=
  if t.c8Min r.look < Config.c8Sat then Config.base1 + t.c8Min r.look else queryKv r t

/-- LIGHT-QUERY (R121). -/
def queryLight (r : Request) (t : Storage) : Nat :=
  if t.lightMin r.look < Config.lightSat then Config.base0 + t.lightMin r.look else queryMid8 r t

/-- QUERY once it is admitted (R202 step 7): latch the command, the key and the hash values, and hold the response. -/
def State.runQuery (s : State) (klen : BitVec 8) (payload : List Byte) : State :=
  let key := keyOf klen payload
  let s := latchHashes key s.csr.seeds (s.latchCommand (encodeWord (.query klen payload)) payload)
  s.respond .ok (queryLight (s.request key) s.store)

/-- QUERY, from acceptance to its response (R173; log entries 3, 14, 22). -/
def execQuery (klen : BitVec 8) (payload : List Byte) (s : State) : Result :=
  match s.admitKeyed klen with
  | .ok => if s.cfgValid then .next (s.runQuery klen payload) else .fault .invalidConfiguration
  | e => .next (s.refuse e)

end Sys2Proof.Machine
end

