-- ==== Sys2Proof/Machine/Dispatch.lean ====
section
/-! DEFINITION. The meaning of every command (R202 step 7, R77). -/

namespace Sys2Proof.Machine

def exec (i : Instr) (s : State) : Host.Outcome State Fault Refusal :=
  match i with
  | .insert klen payload count => Sys2Proof.Machine.execInsert klen payload count s
  | .query klen payload => Sys2Proof.Machine.execQuery klen payload s
  | .configure => Sys2Proof.Machine.execConfigure s

end Sys2Proof.Machine
end

