-- ==== Sys2Proof/Machine/Fsm.lean ====
section
/-! DEFINITION. The saturation and promotion FSM of 47_fsm.md, state by state (R190 to R193), and one clock edge in the
order of R210. `cycle` runs the block one FSM transition an edge; `step` (Machine/Step.lean) runs a command in one edge
(R46, R196), and both take an FSM state in flight by `advance`. -/

namespace Sys2Proof.Machine

/-- CFG_LOCK <- 1 if OPC = 0x3 (R34). -/
def lockIfConfigure (w : Word64) (s : State) : State := if opcOf w = opcConfigure then s.lock else s

/-- Move the sequencer to an FSM state (`fsm <- S`, R10). -/
def State.goto (s : State) (f : Fsm) : State := { s with seq := { s.seq with fsm := f } }

/-- The command in flight is an INSERT (OPC of `CMD`). -/
def State.inserting (s : State) : Bool := opcOf s.seq.cmd == opcInsert

/-- The key of the command in flight: KLEN of `CMD` bytes of `KEY`. -/
def State.flightKey (s : State) : List Byte := keyOf (klenOf s.seq.cmd) s.seq.key

/-- Rows UNCFG and IDLE of R191: the acceptance of a command, with the check order of R202. -/
def fsmAccept (c : Command) (s : State) : Result :=
  match decode c.word c.payload with
  | .illegalOpcode => .next (s.refuse .errOpcode)
  | .reservedField => .next ((lockIfConfigure c.word s).refuse .errReserved)
  | .command .configure =>
    match s.lock.admitConfigure with
    | .ok => .next (s.lock.goto .clear)
    | e => .next (s.lock.refuse e)
  | .command (.insert klen _ _) | .command (.query klen _) =>
    match s.admitKeyed klen with
    | .ok =>
      let s := s.latchCommand c.word c.payload
      .next { s with seq := { s.seq with fsm := .hash, hashAsked := 0, hashNext := 0 } }
    | e => .next (s.refuse e)

/-- Row CLEAR (R191): all configured storage cleared. -/
def fsmClear (s : State) : State := s.configureStorage.respond .ok 0

/-- A request is still to be transferred: the next one is for seed `hashAsked` (R101, R194). -/
def State.hashToAsk (s : State) : Bool := decide (s.seq.hashAsked < s.csr.seeds)

/-- An answer is owed: the next one is for seed `hashNext` (R81: responses return in request order). -/
def State.hashOwed (s : State) : Bool := decide (s.seq.hashNext < s.seq.hashAsked)

/-- The request handshake of the hash port: the driven request is transferred when `hreq_ready` is 1 (R81, R170). -/
def State.askHash (ready : Bool) (s : State) : State :=
  if ready && s.hashToAsk then { s with seq := { s.seq with hashAsked := s.seq.hashAsked + 1 } } else s

/-- The response handshake of the hash port: an answer that is owed is latched in its HV (R81, R101, R170). -/
def State.takeHash (rsp : Option Word32) (s : State) : State :=
  match rsp with
  | none => s
  | some v =>
    if s.hashOwed then
      { s with seq := { s.seq with hv := s.seq.hv.write [s.seq.hashNext] v, hashNext := s.seq.hashNext + 1 } }
    else s

/-- Row HASH (R101, R191): both handshakes of the hash port; with all S answers latched, go to LIGHT. -/
def fsmHash (h : HashInput) (s : State) : State :=
  let s := (s.takeHash h.hrsp).askHash h.hreqReady
  if s.csr.seeds ≤ s.seq.hashNext then s.goto .light else s

/-- Rows LIGHT (R120, R121, R191). -/
def fsmLight (s : State) : State :=
  let u := s.lookup
  let m := s.store.lightMin u
  let cand := m + (countOf s.seq.cmd).toNat
  if s.inserting then
    let s := { s with tmp := { s.tmp with m := m, cand := cand } }
    if cand < Config.lightSat then
      State.respond { s with store := s.store.lightRaise u cand } .ok (Config.base0 + cand)
    else
      State.goto
        { s with store := s.store.lightFill u, tmp := { s.tmp with rem := forwarded cand Config.lightCap } } .mid8
  else
    let s := { s with tmp := { s.tmp with m := m } }
    if m < Config.lightSat then s.respond .ok (Config.base0 + m) else s.goto .mid8

/-- Rows MID8 (R130, R131, R191). -/
def fsmMid8 (s : State) : State :=
  let u := s.lookup
  let m8 := s.store.c8Min u
  let cand8 := m8 + s.tmp.rem
  if s.inserting then
    let s := { s with tmp := { s.tmp with m8 := m8, cand8 := cand8 } }
    if cand8 < Config.c8Sat then
      State.respond { s with store := s.store.c8Raise u cand8 } .ok (Config.base1 + cand8)
    else
      State.goto { s with store := s.store.c8Fill u, tmp := { s.tmp with rem := forwarded cand8 Config.c8Cap } } .kv
  else
    let s := { s with tmp := { s.tmp with m8 := m8 } }
    if m8 < Config.c8Sat then s.respond .ok (Config.base1 + m8) else s.goto .kv

/-- Rows KV of an INSERT (R140, R141, R191). -/
def fsmKvInsert (s : State) : State :=
  let u := s.lookup
  let found := s.store.findSlot u s.flightKey
  let s := { s with tmp := { s.tmp with f := found } }
  match found with
  | none => s.goto .mid16
  | some f =>
    let t := s.store.claim u s.inst.keyMaxLen s.flightKey f
    let nv := t.valAt u f + s.tmp.rem
    let s := { s with tmp := { s.tmp with nv := nv } }
    if nv < Config.c16Sat then State.respond { s with store := t.setVal u f nv } .ok (Config.base2 + nv)
    else
      State.goto
        { s with
          store := t.setVal u f Config.c16Sat
          seq := { s.seq with hvNext := .resp, x := BitVec.ofNat 35 (forwarded nv Config.c16Cap) } } .heavy

/-- Rows KV of a QUERY (R142, R191). -/
def fsmKvQuery (s : State) : State :=
  let u := s.lookup
  let found := s.store.matchScan u s.flightKey
  let s := { s with tmp := { s.tmp with f := found } }
  match found with
  | none => s.goto .mid16
  | some f =>
    if s.store.valAt u f < Config.c16Sat then s.respond .ok (Config.base2 + s.store.valAt u f)
    else State.goto { s with seq := { s.seq with hvNext := .resp } } .heavy

/-- Rows MID16 of an INSERT (R150, R152, R191). -/
def fsmMid16Insert (s : State) : State :=
  let u := s.lookup
  let m16 := s.store.c16Min u
  let cand16 := m16 + s.tmp.rem
  let s := { s with tmp := { s.tmp with m16 := m16, cand16 := cand16 } }
  if cand16 < Config.c16Sat then
    State.goto
      { s with
        store := s.store.c16Raise u cand16
        tmp := { s.tmp with res := Config.base2 + cand16, m16r := cand16 } } .evict
  else
    State.goto
      { s with
        store := s.store.c16Fill u
        seq := { s.seq with hvNext := .evict, x := BitVec.ofNat 35 (forwarded cand16 Config.c16Cap) }
        tmp := { s.tmp with m16r := Config.c16Sat } } .heavy

/-- Rows MID16 of a QUERY (R155, R191). -/
def fsmMid16Query (s : State) : State :=
  let m16 := s.store.c16Min s.lookup
  let s := { s with tmp := { s.tmp with m16 := m16 } }
  if m16 < Config.c16Sat then s.respond .ok (Config.base2 + m16)
  else State.goto { s with seq := { s.seq with hvNext := .resp } } .heavy

/-- Rows HEAVY (R160, R161, R191). -/
def fsmHeavy (s : State) : State :=
  let u := s.lookup
  if s.inserting then
    let t := s.store.heavyAdd u s.seq.x.toNat
    let res := Config.base3 + t.heavyAt u
    let s := { s with store := t, tmp := { s.tmp with res := res } }
    match s.seq.hvNext with
    | .resp => s.respond .ok res
    | .evict => s.goto .evict
  else s.respond .ok (Config.base3 + s.store.heavyAt u)

/-- Row EVICT (R153, R154, R191); at vmin = m16r = 65535 with THR = 1.0 as `insertEvict` (log entry 29). -/
def fsmEvict (s : State) : State :=
  let u := s.lookup
  let least := s.store.kvMin u
  let vmin := s.store.valMin u
  let s := { s with tmp := { s.tmp with k := least, vmin := vmin } }
  match least with
  | some k =>
    if thrGE s.csr.thrBits s.tmp.m16r vmin then
      State.respond { s with store := s.store.evict u s.inst.keyMaxLen s.flightKey k vmin s.tmp.m16r } .ok s.tmp.res
    else s.respond .ok s.tmp.res
  | none => s.respond .ok s.tmp.res

/-- One transition of an FSM state in flight (R191). HASH waits for the hash provider; the states that probe
storage need a configuration (R177; log entry 14). UNCFG, IDLE and RESP wait for the host. -/
def advance (h : HashInput) (s : State) : Result :=
  match s.seq.fsm with
  | .uncfg | .idle | .resp => .next s
  | .clear => .next (fsmClear s)
  | .hash => if s.cfgValid then .next (fsmHash h s) else .fault .invalidConfiguration
  | .light => if s.cfgValid then .next (fsmLight s) else .fault .invalidConfiguration
  | .mid8 => if s.cfgValid then .next (fsmMid8 s) else .fault .invalidConfiguration
  | .kv =>
    if s.cfgValid then .next (if s.inserting then fsmKvInsert s else fsmKvQuery s) else .fault .invalidConfiguration
  | .mid16 =>
    if s.cfgValid then .next (if s.inserting then fsmMid16Insert s else fsmMid16Query s)
    else .fault .invalidConfiguration
  | .heavy => if s.cfgValid then .next (fsmHeavy s) else .fault .invalidConfiguration
  | .evict => if s.cfgValid then .next (fsmEvict s) else .fault .invalidConfiguration

/-- One rising clock edge in the order of R210: reset, then the CSR access, then the delivery of a response or the
acceptance of a command (which cannot coincide), by the given acceptance; a command in flight advances. -/
def edgeWith (accept : Command → State → Result) (e : Edge) (s : State) : Result :=
  if e.rst then .next s.resetEdge
  else
    let s := csrPort e.csr s
    match s.seq.fsm with
    | .uncfg | .idle =>
      match e.cmd with
      | some c => accept c s
      | none => .next s
    | .resp => .next (if e.rspReady then s.deliver else s)
    | .clear | .hash | .light | .mid8 | .kv | .mid16 | .heavy | .evict => advance e.hash s

/-- The edge at hand: the next of the edges to come, or a quiet one when none is left (log entry 9). -/
def State.nextEdge (s : State) : Edge := s.port.inputs.headD Edge.quiet

/-- The edge at hand is used up. -/
def State.dropEdge (s : State) : State := { s with port := { s.port with inputs := s.port.inputs.tail } }

/-- One clock edge of the block with the FSM of 47_fsm.md, one transition an edge. -/
def cycle (s : State) : Result := edgeWith fsmAccept s.nextEdge s.dropEdge

end Sys2Proof.Machine
end

