-- ==== Sys2Proof/Machine/ClockEdge.lean ====
section
/-! DEFINITION. One rising clock edge (R57, R170, R210) with commands as atomic steps (R46, R56): the command channel's
acceptance, and the order of simultaneous events. -/

namespace Sys2Proof.Machine

/-- Acceptance of a command transfer (R57, R77, R202): an undecodable word answers its error, and a word with
OPC = 0x3 sets CFG_LOCK whatever its status will be (R34); the others run. -/
def acceptCommand (c : Command) (s : State) : Result :=
  match decode c.word c.payload with
  | .illegalOpcode => .next (s.refuse .errOpcode)
  | .reservedField => .next ((lockIfConfigure c.word s).refuse .errReserved)
  | .command i => exec i s

/-- One clock edge of the block with atomic commands (R46). -/
def clockEdge (e : Edge) (s : State) : Result := edgeWith acceptCommand e s

/-- The transfer of a command at the next edge, with nothing else driven. -/
def Edge.sending (c : Command) : Edge := { Edge.quiet with cmd := some c }

end Sys2Proof.Machine
end

