-- ==== Sys2Proof/Machine/Step.lean ====
section
/-! DEFINITION. One step of the machine: one rising clock edge with what the outside drives at it (R170, R210), a
command from acceptance to response in one edge (R46). And the placing of a command at the next edge. -/

namespace Sys2Proof.Machine

/-- One step (R46, R210). -/
def step (s : State) : Host.Outcome State Fault Refusal := clockEdge s.nextEdge s.dropEdge

/-- `s` with the command whose bits are `w` driven on the command channel at the next edge. A block that is not idle
is put into its idle state, since only there a command is accepted (R57; log entry 10). -/
def State.withFetchWord (s : State) (nbits w : Nat) : State :=
  { s with
    seq := { s.seq with fsm := if s.seq.fsm.accepting then s.seq.fsm else if s.seq.cfgd then .idle else .uncfg }
    port := { s.port with
      inputs := Edge.sending ⟨(tableTransfer nbits w).1, (tableTransfer nbits w).2⟩ :: s.port.inputs } }

end Sys2Proof.Machine
end

