-- ==== Sys2Proof/Machine/Assembler.lean ====
section
/-! DEFINITION. The lines of R82 as the host drives them on the ports, and the pseudo-instructions INC and SETUP
(R83, R175). The concrete text of a line is not modelled, only what it denotes (log entry 26). -/

namespace Sys2Proof.Machine

/-- A line of a program (R82). -/
inductive AsmLine where
  /-- `INSERT <key>, <count>`. -/
  | insert (key : List Byte) (count : Word32)
  /-- `QUERY <key>`. -/
  | query (key : List Byte)
  /-- `CONFIGURE`. -/
  | configure
  /-- `CSRW <csr-name>, <value>`. -/
  | csrw (name : CsrName) (value : Word32)
  /-- `CSRR <csr-name>`. -/
  | csrr (name : CsrName)
deriving DecidableEq, Repr

/-- A quoted key: the ASCII codes of its characters, the first one first (R82). DESIGN CHOICE (log entry 28): a character
without an ASCII code, of which R82 says nothing, gives the low 8 bits of its code point. -/
def asciiKey (s : String) : List Byte := s.toList.map fun c => BitVec.ofNat 8 c.toNat

/-- The command a line sends, if it sends one (R82, R175). DESIGN CHOICE (log entry 28): a key of 256 bytes or more, for
which the spec gives no encoding, goes out with KLEN = its length modulo 256. -/
def AsmLine.instr : AsmLine → Option Instr
  | .insert key count => some (.insert (BitVec.ofNat 8 key.length) key count)
  | .query key => some (.query (BitVec.ofNat 8 key.length) key)
  | .configure => some .configure
  | .csrw _ _ => none
  | .csrr _ => none

/-- The transfer of a command (R73 to R75). -/
def Command.ofInstr (i : Instr) : Command := { word := encodeWord i, payload := encodePayload i }

/-- An edge at which the host takes a response. -/
def Edge.taking : Edge := { Edge.quiet with rspReady := true }

/-- The edges a line drives: a command and the taking of its response, or one CSR access. A key of 256 bytes or more as in
`AsmLine.instr` (log entry 28). -/
def AsmLine.edges : AsmLine → List Edge
  | .csrw n v => [{ Edge.quiet with csr := some (.write n.addr v) }]
  | .csrr n => [{ Edge.quiet with csr := some (.read n.addr) }]
  | .insert key count => [Edge.sending (.ofInstr (.insert (BitVec.ofNat 8 key.length) key count)), Edge.taking]
  | .query key => [Edge.sending (.ofInstr (.query (BitVec.ofNat 8 key.length) key)), Edge.taking]
  | .configure => [Edge.sending (.ofInstr .configure), Edge.taking]

/-- `INC <key>` is `INSERT <key>, 1` (R83, R175). -/
def inc (key : List Byte) : AsmLine := .insert key 1

/-- `SETUP L, M, LL, B, H, N8, N16 [, THRBITS]` (R83). -/
def setup (l m ll b h n8 n16 : Word32) (thr : Option Word64) : List AsmLine :=
  [.csrw .cfgL l, .csrw .cfgM m, .csrw .cfgLightLen ll, .csrw .cfgB b, .csrw .cfgH h, .csrw .cfgLen8 n8,
   .csrw .cfgLen16 n16] ++
  (match thr with
   | some t => [.csrw .cfgThrLo (t.extractLsb' 0 32), .csrw .cfgThrHi (t.extractLsb' 32 32)]
   | none => []) ++
  [.configure]

/-- The system address of a register: CSR_BASE plus its byte address (R62; log entry 18). -/
def CsrName.systemAddress (n : CsrName) : Nat := Config.csrBase + n.addr.toNat

end Sys2Proof.Machine
end

