-- ==== Sys2Proof/Machine/Outputs.lean ====
section
/-! DEFINITION. The block's output signals as functions of its state and of `rst` (R170, R194, R220). A group of
signals whose valid is 0 is `none`: nothing is said of it (R170, 93_implementation_defined.md I16; log entry 24). -/

namespace Sys2Proof.Machine

/-- A hash request on the port (R81). -/
structure HashRequest where
  /-- `hreq_key`, byte 0 first, the bytes at `i ≥ klen` driven 0. -/
  key : List Byte
  /-- `hreq_klen`. -/
  klen : BitVec 8
  /-- `hreq_seed`. -/
  seed : BitVec 8
deriving DecidableEq, Repr

/-- `cmd_ready` (R194). -/
def State.cmdReady (rst : Bool) (s : State) : Bool := s.seq.fsm.accepting && !rst

/-- `csr_ready` (R220): held at 1 outside reset, which R230 allows (log entry 11). -/
def State.csrReady (rst : Bool) (_s : State) : Bool := !rst

/-- `rsp_valid` with `rsp_status` and `rsp_est` (R180, R194). -/
def State.response (rst : Bool) (s : State) : Option (BitVec 4 × Word64) :=
  if s.seq.fsm = .resp ∧ rst = false then some (s.seq.rspStatus, s.seq.rspEst) else none

/-- `hreq_valid` with the request (R81, R194): in HASH only, until the S requests have been transferred. That it does not
wait for the answer to an earlier request is the model's choice (log entry 27). -/
def State.hashRequest (rst : Bool) (s : State) : Option HashRequest :=
  if s.seq.fsm = .hash ∧ s.hashToAsk = true ∧ rst = false then
    some { key := onKeyLanes s.inst.keyMaxLen s.flightKey, klen := klenOf s.seq.cmd,
           seed := BitVec.ofNat 8 s.seq.hashAsked }
  else none

/-- `hrsp_ready`. It is 0 in reset (R220); when it is 1 outside reset the spec does not say. DESIGN CHOICE (log entry
27): in HASH, while the answer to a transferred request is owed. -/
def State.hashResponseReady (rst : Bool) (s : State) : Bool := s.seq.fsm == .hash && s.hashOwed && !rst

end Sys2Proof.Machine
end

