-- ==== Sys2Proof/Safety.lean ====
section
/-! DEFINITION. What counts as a good state and a safe run, in the terms the statements use: the hash values a command
will latch, the invariants of R45 and of the registers, starts and runs, the FSM's run of one command, and the real
value of the threshold (R33). -/

namespace Sys2Proof.Machine

/-! The hash values of a command (R100, R101). -/

/-- What the provider will answer to the request for seed `i` of the next command with this key: the `i`-th draw, or
HASH(key, i) when the draws run out first. -/
def State.hashOf (s : State) (key : List Byte) (i : Nat) : Word32 :=
  match s.port.draws[i]? with
  | some d => d
  | none => Config.hash key i

/-- The probes of the next command with this key (R102). -/
def State.probes (s : State) (key : List Byte) : Lookup := s.csr.lookup fun i => (s.hashOf key i).toNat

/-- A legal key length (R171). -/
abbrev State.klenLegal (s : State) (klen : BitVec 8) : Prop := 1 ≤ klen.toNat ∧ klen.toNat ≤ s.inst.keyMaxLen

/-- The block serves INSERT and QUERY with this key length: configured, by a legal configuration, and a legal length
(R202 steps 3 and 5, R177). -/
abbrev State.serves (s : State) (klen : BitVec 8) : Prop :=
  s.csr.configured = true ∧ s.cfgValid = true ∧ s.klenLegal klen

/-- What an admitted INSERT or QUERY leaves outside the tier storage when its response waits (R172, R173, R191): the
command, the key and the S hash values are latched, the provider has answered S requests, and the response is OK with
the estimate. Every CSR, every temporary and every other register is as before (of the dead ones and of CMD and KEY, the
model's choices: log entries 12 and 13). -/
structure Completes (i : Instr) (payload key : List Byte) (est : Nat) (s t : State) : Prop where
  inst : t.inst = s.inst
  csr : t.csr = s.csr
  tmp : t.tmp = s.tmp
  free : t.free = s.free
  port : t.port = { s.port with draws := s.port.draws.drop s.csr.seeds }
  seq : t.seq =
    { s.seq with
      fsm := .resp, cmd := encodeWord i, key := onKeyLanes s.inst.keyMaxLen payload, hv := t.seq.hv,
      rspStatus := 0, rspEst := BitVec.ofNat 64 est }
  hv : ∀ k : Index, t.seq.hv.read k =
    if ∃ i < s.csr.seeds, k = [i] then s.hashOf key (k.headD 0) else s.seq.hv.read k

/-- The tier arrays of the 16-bit and key-value tiers and the heavy array are as before. -/
def sameBeyond8 (t t' : Storage) : Prop :=
  t'.c16 = t.c16 ∧ t'.occ = t.occ ∧ t'.kls = t.kls ∧ t'.keyb = t.keyb ∧ t'.val = t.val ∧ t'.heavy = t.heavy

/-- The light and the 8-bit tier have saturated: the L light probes are 15 and the M 8-bit probes 255, and every other
light nibble and 8-bit counter is as before (R108). -/
def lowTiersSaturated (u : Lookup) (t t' : Storage) : Prop :=
  (∀ q, t'.nib q = if q ∈ u.lightProbes then 15 else t.nib q) ∧
    ∀ k, (t'.c8.read k).toNat = if k ∈ u.c8Probes then 255 else (t.c8.read k).toNat

/-- The count that reaches the key-value stage when both low tiers saturate (R109): each forwards cand − CAP. -/
def remAfterLowTiers (u : Lookup) (t : Storage) (count : Nat) : Nat :=
  t.c8Min u + (t.lightMin u + count - 14) - 254

/-- Both low tiers saturate under a count (R120, R130). -/
def lowTiersOverflow (u : Lookup) (t : Storage) (count : Nat) : Prop :=
  15 ≤ t.lightMin u + count ∧ 255 ≤ t.c8Min u + (t.lightMin u + count - 14)

/-- The key fields of candidate bucket `j` hold the key, the bytes beyond it 0, and those of every other bucket are as
before (R111). -/
def keyWritten (u : Lookup) (keyMaxLen : Nat) (key : List Byte) (j : Nat) (t t' : Storage) : Prop :=
  (∀ k, t'.occ.read k = if k = u.bucket j then 1 else t.occ.read k) ∧
    (∀ k, (t'.kls.read k).toNat = if k = u.bucket j then key.length else (t.kls.read k).toNat) ∧
    (∀ i < keyMaxLen, t'.keyb.read (u.bucket j ++ [i]) = key.getD i 0) ∧
    ∀ k, (∀ i < keyMaxLen, k ≠ u.bucket j ++ [i]) → t'.keyb.read k = t.keyb.read k

/-! The invariants of the tier storage (R38, R45). -/

/-- Every array is in canonical form. -/
abbrev Storage.wf (t : Storage) : Prop :=
  t.light.wf = true ∧ t.c8.wf = true ∧ t.c16.wf = true ∧ t.occ.wf = true ∧ t.kls.wf = true ∧ t.keyb.wf = true ∧
    t.val.wf = true ∧ t.heavy.wf = true

/-- R45 item 2: an unclaimed bucket has no key and no value. -/
def Storage.unclaimedEmpty (t : Storage) : Prop :=
  ∀ j b, t.occ.read [j, b] = 0#1 →
    t.kls.read [j, b] = 0#8 ∧ t.val.read [j, b] = 0#16 ∧ ∀ i, t.keyb.read [j, b, i] = 0#8

/-- R45 item 3: a claimed bucket has a value of at least 1. -/
def Storage.claimedPositive (t : Storage) : Prop :=
  ∀ j b, t.occ.read [j, b] = 1#1 → 1 ≤ (t.val.read [j, b]).toNat

/-- R45 item 6: 16-bit counters are nonzero in claimed buckets only. -/
def Storage.c16Claimed (t : Storage) : Prop :=
  ∀ j b i, t.c16.read [j, b, i] ≠ 0#16 → t.occ.read [j, b] = 1#1

/-- R38: a claimed bucket's key has 1 to KEY_MAX_LEN bytes, and the bytes beyond a key are 0. -/
def Storage.keysPadded (t : Storage) (keyMaxLen : Nat) : Prop :=
  (∀ j b, t.occ.read [j, b] = 1#1 → 1 ≤ (t.kls.read [j, b]).toNat ∧ (t.kls.read [j, b]).toNat ≤ keyMaxLen) ∧
    ∀ j b i, (t.kls.read [j, b]).toNat ≤ i → t.keyb.read [j, b, i] = 0#8

/-- R35 to R39: what is stored lies within the configured sizes. -/
structure Storage.Sized (t : Storage) (c : Csrs) (keyMaxLen : Nat) : Prop where
  light : ∀ k, t.light.read k ≠ 0 → ∃ l i, k = [l, i] ∧ l < c.cfgL.toNat ∧ i < c.cfgLightLen.toNat
  c8 : ∀ k, t.c8.read k ≠ 0 →
    ∃ j b i, k = [j, b, i] ∧ j < c.cfgM.toNat ∧ b < c.cfgB.toNat ∧ i < c.cfgLen8.toNat
  c16 : ∀ k, t.c16.read k ≠ 0 →
    ∃ j b i, k = [j, b, i] ∧ j < c.cfgM.toNat ∧ b < c.cfgB.toNat ∧ i < c.cfgLen16.toNat
  occ : ∀ k, t.occ.read k ≠ 0 → ∃ j b, k = [j, b] ∧ j < c.cfgM.toNat ∧ b < c.cfgB.toNat
  kls : ∀ k, t.kls.read k ≠ 0 → ∃ j b, k = [j, b] ∧ j < c.cfgM.toNat ∧ b < c.cfgB.toNat
  keyb : ∀ k, t.keyb.read k ≠ 0 → ∃ j b i, k = [j, b, i] ∧ j < c.cfgM.toNat ∧ b < c.cfgB.toNat ∧ i < keyMaxLen
  val : ∀ k, t.val.read k ≠ 0 → ∃ j b, k = [j, b] ∧ j < c.cfgM.toNat ∧ b < c.cfgB.toNat
  heavy : ∀ k, t.heavy.read k ≠ 0 → ∃ i, k = [i] ∧ i < c.cfgH.toNat

/-- The invariants of a configured block's storage. -/
structure Storage.Inv (t : Storage) (c : Csrs) (keyMaxLen : Nat) : Prop where
  unclaimed : t.unclaimedEmpty
  claimed : t.claimedPositive
  c16 : t.c16Claimed
  keys : t.keysPadded keyMaxLen
  sized : t.Sized c keyMaxLen

/-- R45 item 5, for a deterministic provider `h`: where a candidate bucket of a key holds it, the buckets of the lower
layers are claimed by other keys. -/
def Storage.firstFit (t : Storage) (c : Csrs) (h : List Byte → Nat → Nat) : Prop :=
  ∀ key f, f < c.cfgM.toNat → t.keyEq (c.lookup (h key)) key f = true →
    ∀ g < f, t.occ.read ((c.lookup (h key)).bucket g) = 1#1 ∧ t.keyEq (c.lookup (h key)) key g = false

/-- The invariants of the machine between edges, when commands are atomic (R24, R34, R41, R45, R200). -/
structure Inv (s : State) : Prop where
  legal : s.inst.legal
  settled : s.seq.fsm = .uncfg ∨ s.seq.fsm = .idle ∨ s.seq.fsm = .resp
  uncfg : s.seq.fsm = .uncfg → s.csr.configured = false
  idle : s.seq.fsm = .idle → s.csr.configured = true
  cfgd : s.seq.cfgd = s.csr.configured
  valid : s.csr.configured = true → s.cfgValid = true
  locked : s.csr.configured = true → s.csr.cfgLock = true
  lockIdle : s.seq.fsm ≠ .resp → s.csr.cfgLock = s.csr.configured
  codes : s.csr.lastStatus.toNat ≤ 6 ∧ s.seq.rspStatus.toNat ≤ 6
  errEst : s.seq.rspStatus ≠ 0 → s.seq.rspEst = 0
  est : s.seq.rspEst.toNat ≤ 4295033097
  keyLanes : s.seq.key.length = s.inst.keyMaxLen
  hvWf : s.seq.hv.wf = true
  storeWf : s.store.wf
  tiers : s.csr.configured = true → s.store.Inv s.csr s.inst.keyMaxLen

/-! Runs. -/

/-- The block right after reset, for an instance and with anything outside on its ports. -/
def State.start (p : Params) (outside : Ports) : State :=
  { State.reset with inst := p, seq := Sequencer.reset p, port := outside }

/-- A step from the state goes on: it neither faults nor refuses. -/
def Safe (s : State) : Prop := ∃ t, step s = .next t

/-- What a provider with the given answers by seed drives at one edge: `hreq_ready` as said, and, where it is to answer
and an answer is owed, the owed one (R81: in request order, one per request). -/
def State.provider (answer : Nat → Word32) (ready answers : Bool) (s : State) : HashInput :=
  { hreqReady := ready, hrsp := if answers && s.hashOwed then some (answer s.seq.hashNext) else none }

/-- The FSM's own run (R191), one transition for each entry of the provider's schedule: whether it is ready for a request
and whether it answers. -/
def advanceAll (answer : Nat → Word32) : List (Bool × Bool) → State → Result
  | [], s => .next s
  | (ready, answers) :: es, s =>
    match advance (s.provider answer ready answers) s with
    | .next t => advanceAll answer es t
    | .fault r => .fault r
    | .refused r => .refused r

/-- The state without the registers that are dead between commands (R41, R43): the temporaries, `x`, `hv_next` and the
counts of the hash port. -/
def State.withoutDead (s : State) : State :=
  { s with tmp := Temps.reset, seq := { s.seq with x := 0, hvNext := .resp, hashAsked := 0, hashNext := 0 } }

/-- The transitions of R191 out of a state in flight. -/
def Fsm.successors : Fsm → List Fsm
  | .clear => [.resp]
  | .hash => [.hash, .light]
  | .light => [.resp, .mid8]
  | .mid8 => [.resp, .kv]
  | .kv => [.resp, .heavy, .mid16]
  | .mid16 => [.evict, .heavy, .resp]
  | .heavy => [.resp, .evict]
  | .evict => [.resp]
  | .uncfg => []
  | .idle => []
  | .resp => []

/-! The threshold as a number (R33). -/

/-- THR, the real value of THRBITS: (2^52 + F) · 2^(E − 1075) when E ≥ 1, F · 2^(−1074) when E = 0 (R33). -/
def thrValue (t : Word64) : ℚ :=
  if 1 ≤ thrExponent t then (2 ^ 52 + (thrFraction t : ℚ)) * (2 : ℚ) ^ ((thrExponent t : ℤ) - 1075)
  else (thrFraction t : ℚ) * (2 : ℚ) ^ (-1074 : ℤ)

end Sys2Proof.Machine
end

