-- ==== Sys2Proof/Certificates/Slice0/Obligations.lean ====
section
/-! DEFINITION. The statements for the provers, each a proposition about the model. Every docstring names the rule of
spec/ it formalises, or the log entry where it states a choice of the model. -/

open Sys2Proof Sys2Proof.Machine

/-! ## Encoding (30_encoding.md) -/

/-- Decoding the encoding of any command gives it back, with every operand at every value (R71 to R76). -/
def Obligations.DecodeOfEncodeIsTheCommand : Prop :=
  ∀ i : Instr, i.wellFormed = true → decode (encode i).1 (encode i).2 = .command i

/-- A word that decodes to a command is the encoding of that command: no two words are one command, and the payload
is kept (R71, R77). -/
def Obligations.EncodeOfDecodeIsTheWord : Prop :=
  ∀ (w : Word64) (p : List Byte) (i : Instr), decode w p = .command i →
    encodeWord i = w ∧ (i ≠ .configure → encodePayload i = p)

/-- R77's order of the two decode tests, with R73 to R75's masks and matches and R76's operands. -/
def Obligations.DecodeTestsOpcodeThenFixedBits : Prop :=
  ∀ (w : Word64) (p : List Byte),
    let opc := w.extractLsb' 0 4
    (decode w p = .illegalOpcode ↔ opc ≠ 0x1 ∧ opc ≠ 0x2 ∧ opc ≠ 0x3) ∧
    (decode w p = .reservedField ↔
      (opc = 0x1 ∧ w &&& 0x00000000FFFF00FF ≠ 0x0000000000000001) ∨
      (opc = 0x2 ∧ w &&& 0xFFFFFFFFFFFF00FF ≠ 0x0000000000000002) ∨
      (opc = 0x3 ∧ w &&& 0xFFFFFFFFFFFFFFFF ≠ 0x0000000000000003)) ∧
    (∀ (klen : BitVec 8) (q : List Byte) (count : Word32),
      decode w p = .command (.insert klen q count) ↔
        w &&& 0x00000000FFFF00FF = 0x0000000000000001 ∧ klen = w.extractLsb' 8 8 ∧ q = p ∧ count = w.extractLsb' 32 32) ∧
    (∀ (klen : BitVec 8) (q : List Byte),
      decode w p = .command (.query klen q) ↔
        w &&& 0xFFFFFFFFFFFF00FF = 0x0000000000000002 ∧ klen = w.extractLsb' 8 8 ∧ q = p) ∧
    (decode w p = .command .configure ↔ w = 0x0000000000000003)

/-- R78 field by field: which nonzero field of a legal opcode is reserved. -/
def Obligations.ReservedFieldsOfEachOpcode : Prop :=
  ∀ (w : Word64) (p : List Byte),
    let rsv0 := w.extractLsb' 4 4
    let klen := w.extractLsb' 8 8
    let rsv1 := w.extractLsb' 16 16
    let count := w.extractLsb' 32 32
    (w.extractLsb' 0 4 = 0x1 → (decode w p = .reservedField ↔ rsv0 ≠ 0 ∨ rsv1 ≠ 0)) ∧
    (w.extractLsb' 0 4 = 0x2 → (decode w p = .reservedField ↔ rsv0 ≠ 0 ∨ rsv1 ≠ 0 ∨ count ≠ 0)) ∧
    (w.extractLsb' 0 4 = 0x3 →
      (decode w p = .reservedField ↔ rsv0 ≠ 0 ∨ rsv1 ≠ 0 ∨ klen ≠ 0 ∨ count ≠ 0))

/-- R84's words decode to the commands they stand for. -/
def Obligations.SpecWordsDecode : Prop :=
  decode 0x0000000A00000101 [0x41] = .command (.insert 1 [0x41] 10) ∧
  decode 0x0000000000000102 [0x41] = .command (.query 1 [0x41]) ∧
  decode 0x0000000100000101 [0x41] = .command (.insert 1 [0x41] 1) ∧
  decode 0x0000012C00000201 [0x0A, 0x0B] = .command (.insert 2 [0x0A, 0x0B] 300) ∧
  decode 0x0000000000000003 [] = .command .configure ∧
  decode 0x0000000000000005 [] = .illegalOpcode ∧
  decode 0x0000000100000102 [0x41] = .reservedField ∧
  decode 0x0000000100000001 [] = .command (.insert 0 [] 1)

/-- R83: INC is INSERT with a count of 1, whose command is stated for a key of at most 255 bytes (longer ones: log entry
28), and SETUP writes the size registers in order, the threshold only where one is given, and then sends CONFIGURE. -/
def Obligations.PseudoInstructionsExpand : Prop :=
  (∀ key, inc key = .insert key 1 ∧
    (key.length ≤ 255 → (inc key).instr = some (.insert (BitVec.ofNat 8 key.length) key 1))) ∧
  (∀ l m ll b h n8 n16, setup l m ll b h n8 n16 none =
    [.csrw .cfgL l, .csrw .cfgM m, .csrw .cfgLightLen ll, .csrw .cfgB b, .csrw .cfgH h, .csrw .cfgLen8 n8,
      .csrw .cfgLen16 n16, .configure]) ∧
  ∀ l m ll b h n8 n16 (thr : Word64), setup l m ll b h n8 n16 (some thr) =
    [.csrw .cfgL l, .csrw .cfgM m, .csrw .cfgLightLen ll, .csrw .cfgB b, .csrw .cfgH h, .csrw .cfgLen8 n8,
      .csrw .cfgLen16 n16, .csrw .cfgThrLo (thr.extractLsb' 0 32), .csrw .cfgThrHi (thr.extractLsb' 32 32), .configure]

/-! ## One edge (R57, R180, R210, R215, R220) -/

/-- A command transferred at an edge runs: step is exec of the decoded command, on the state that the edge's CSR
access leaves (R57, R77, R202, R210). -/
def Obligations.StepRunsTheDecodedCommand : Prop :=
  ∀ (s : State) (c : Command) (i : Instr),
    s.nextEdge.rst = false → s.nextEdge.cmd = some c → (s.seq.fsm = .uncfg ∨ s.seq.fsm = .idle) →
    decode c.word c.payload = .command i → i.wellFormed = true →
    step s = exec i (csrPort s.nextEdge.csr s.dropEdge)

/-- A word with an illegal opcode answers ERR_OPCODE and one with a nonzero reserved field ERR_RESERVED (R78, R202
steps 1 and 2), with an estimate of 0; CFG_LOCK is set where OPC is 0x3 (R34); beside what the edge's CSR access does
first (R210), nothing else changes (R203). -/
def Obligations.UndecodableWordAnswersItsError : Prop :=
  ∀ (s : State) (c : Command),
    s.nextEdge.rst = false → s.nextEdge.cmd = some c → (s.seq.fsm = .uncfg ∨ s.seq.fsm = .idle) →
    let s' := csrPort s.nextEdge.csr s.dropEdge
    (decode c.word c.payload = .illegalOpcode →
      step s = .next { s' with seq := { s.seq with fsm := .resp, rspStatus := 0x1, rspEst := 0 } }) ∧
    (decode c.word c.payload = .reservedField →
      step s = .next
        { s' with
          csr := { s'.csr with cfgLock := s.csr.cfgLock || c.word.extractLsb' 0 4 == 0x3 }
          seq := { s.seq with fsm := .resp, rspStatus := 0x2, rspEst := 0 } })

/-- An idle block with no command, or a block whose response the host does not take, changes by the edge's CSR access
alone (R178, R179), and holds everything where there is none (R215); a command offered while a response waits is not
transferred (R57, R227). -/
def Obligations.EdgeWithoutTransferHoldsEverything : Prop :=
  ∀ s : State, s.nextEdge.rst = false →
    (((s.seq.fsm = .uncfg ∨ s.seq.fsm = .idle) ∧ s.nextEdge.cmd = none) ∨
      (s.seq.fsm = .resp ∧ s.nextEdge.rspReady = false)) →
    step s = .next (csrPort s.nextEdge.csr s.dropEdge) ∧
    (s.nextEdge.csr = none →
      step s = .next { s with port := { s.port with inputs := s.port.inputs.tail, csrRdata := none } }) ∧
    (∀ a, s.nextEdge.csr = some (.read a) →
      step s = .next { s with port := { s.port with inputs := s.port.inputs.tail, csrRdata := some (s.csrRead a) } }) ∧
    ∀ a v, s.nextEdge.csr = some (.write a v) →
      step s = .next
        { s with csr := s.csr.write a v, port := { s.port with inputs := s.port.inputs.tail, csrRdata := none } }

/-- R180: taking the response records its status, clears BUSY, returns CFG_LOCK to CONFIGURED and lets the block
accept again; beside what the edge's CSR access does first (R210), the other registers and the storage stay. -/
def Obligations.TakingTheResponseUpdatesStatus : Prop :=
  ∀ s : State, s.nextEdge.rst = false → s.nextEdge.rspReady = true → s.seq.fsm = .resp →
    let s' := csrPort s.nextEdge.csr s.dropEdge
    let t := s'.deliver
    s.response false = some (s.seq.rspStatus, s.seq.rspEst) ∧ step s = .next t ∧
      t.csr = { s'.csr with lastStatus := s.seq.rspStatus, cfgLock := s.csr.configured } ∧
      (s.nextEdge.csr = none → s'.csr = s.csr) ∧
      t.seq = { s.seq with fsm := if s.seq.cfgd = true then .idle else .uncfg } ∧
      t.busy = false ∧ t.cmdReady false = true ∧ t.response false = none ∧
      t.store = s.store ∧ t.tmp = s.tmp ∧ t.inst = s.inst ∧ t.free = s.free ∧
      t.port = { s.port with inputs := s.port.inputs.tail, csrRdata := s'.port.csrRdata }

/-- R220, R221: one edge with rst = 1, whatever else is driven and whatever is in flight, leaves the reset values: ID,
STATUS 0, the CFG_* registers 0 but CFG_THR_HI = 0x40000000, UNCFG, no response and no hash request. That csr_ready is 1
right after it is the model's choice (log entry 11). -/
def Obligations.ResetEdgeLeavesTheResetValues : Prop :=
  ∀ s : State, s.nextEdge.rst = true →
    ∃ t, step s = .next t ∧
      t.csrRead 0x00 = 0x534B4331 ∧ t.csrRead 0x04 = 0 ∧
      (∀ a ∈ [0x08, 0x0C, 0x10, 0x14, 0x18, 0x1C, 0x20, 0x24], t.csrRead a = 0) ∧ t.csrRead 0x28 = 0x40000000 ∧
      t.seq.fsm = .uncfg ∧ t.seq.cfgd = false ∧ t.response false = none ∧ t.hashRequest false = none ∧
      t.cmdReady false = true ∧ t.csrReady false = true ∧ t.inst = s.inst ∧ t.port.draws = s.port.draws

/-- R44: the reset values, at State.reset itself. -/
def Obligations.ResetStateHasTheResetValues : Prop :=
  State.reset.csrRead 0x00 = 0x534B4331 ∧ State.reset.csrRead 0x04 = 0 ∧
  (∀ a ∈ [0x08, 0x0C, 0x10, 0x14, 0x18, 0x1C, 0x20, 0x24], State.reset.csrRead a = 0) ∧
  State.reset.csrRead 0x28 = 0x40000000 ∧ State.reset.seq.fsm = .uncfg ∧ State.reset.seq.cfgd = false ∧
  State.reset.response false = none ∧ State.reset.hashRequest false = none

/-- R210: the CSR access of an edge comes before the acceptance or the delivery at it. A write is taken before any
command is accepted, so a CONFIGURE checks the written value; a write at a delivery sees the CFG_LOCK from before it, so
while that is 1 it is ignored (R34), even where the delivery clears it; a read returns what was there before the edge. -/
def Obligations.CsrAccessComesBeforeCommandAndDelivery : Prop :=
  (∀ (s : State) (a : BitVec 8) (v : Word32) (c : Command),
    s.nextEdge = { Edge.quiet with csr := some (.write a v), cmd := some c } → (s.seq.fsm = .uncfg ∨ s.seq.fsm = .idle) →
    let s' := { s with csr := s.csr.write a v, port := { s.port with inputs := s.port.inputs.tail, csrRdata := none } }
    step s = acceptCommand c s' ∧ (c.word = 0x0000000000000003 → step s = exec .configure s')) ∧
  (∀ (s : State) (a : BitVec 8) (c : Command),
    s.nextEdge = { Edge.quiet with csr := some (.read a), cmd := some c } → (s.seq.fsm = .uncfg ∨ s.seq.fsm = .idle) →
    step s = acceptCommand c
      { s with port := { s.port with inputs := s.port.inputs.tail, csrRdata := some (s.csrRead a) } }) ∧
  (∀ (s : State) (a : BitVec 8) (v : Word32),
    s.nextEdge = { Edge.quiet with csr := some (.write a v), rspReady := true } → s.seq.fsm = .resp →
    ∃ t, step s = .next t ∧
      t.csr = { s.csr.write a v with lastStatus := s.seq.rspStatus, cfgLock := s.csr.configured } ∧
      (s.csr.cfgLock = true → t.csr = { s.csr with lastStatus := s.seq.rspStatus, cfgLock := s.csr.configured }) ∧
      (s.csr.cfgLock = false → a.toNat % 4 = 0 → 0x08 ≤ a.toNat → a.toNat ≤ 0x28 →
        t.csrRead a = v ∧ ∀ b, b ≠ a → b ≠ 0x04 → t.csrRead b = s.csrRead b)) ∧
  ∀ (s : State) (a : BitVec 8),
    s.nextEdge = { Edge.quiet with csr := some (.read a), rspReady := true } → s.seq.fsm = .resp →
    ∃ t, step s = .next t ∧ t.port.csrRdata = some (s.csrRead a) ∧
      t.csr = { s.csr with lastStatus := s.seq.rspStatus, cfgLock := s.csr.configured } ∧
      (a = 0x04 → (s.csrRead a).getLsbD 1 = true ∧ (s.csrRead a).extractLsb' 8 4 = s.csr.lastStatus)

/-! ## Registers (10_state.md, 46_commands.md §3) -/

/-- R22, R51, R178: the register map of a CSR read, 0 at every misaligned or reserved address; a read changes nothing
but the read data. -/
def Obligations.CsrReadGivesTheMappedRegister : Prop :=
  ∀ s : State,
    s.csrRead 0x00 = 0x534B4331 ∧ s.csrRead 0x04 = s.statusWord ∧ s.csrRead 0x08 = s.csr.cfgL ∧
    s.csrRead 0x0C = s.csr.cfgM ∧ s.csrRead 0x10 = s.csr.cfgLightLen ∧ s.csrRead 0x14 = s.csr.cfgB ∧
    s.csrRead 0x18 = s.csr.cfgH ∧ s.csrRead 0x1C = s.csr.cfgLen8 ∧ s.csrRead 0x20 = s.csr.cfgLen16 ∧
    s.csrRead 0x24 = s.csr.cfgThrLo ∧ s.csrRead 0x28 = s.csr.cfgThrHi ∧
    (∀ a : BitVec 8, a.toNat % 4 ≠ 0 ∨ 0x2C ≤ a.toNat → s.csrRead a = 0) ∧
    ∀ a : BitVec 8, csrPort (some (.read a)) s = { s with port := { s.port with csrRdata := some (s.csrRead a) } }

/-- R179 at an edge: a write to a CFG_* register with CFG_LOCK = 0 is what that register then reads, and every other
register reads as before; with CFG_LOCK = 1, and at ID, STATUS, reserved and misaligned addresses, every register
reads as before; nothing but the CSRs is written. -/
def Obligations.CsrWriteIsTakenOnlyWhenUnlocked : Prop :=
  ∀ (s : State) (a : BitVec 8) (v : Word32),
    let t := csrPort (some (.write a v)) s
    (s.csr.cfgLock = false → a.toNat % 4 = 0 → 0x08 ≤ a.toNat → a.toNat ≤ 0x28 →
      t.csrRead a = v ∧ ∀ b, b ≠ a → t.csrRead b = s.csrRead b) ∧
    (s.csr.cfgLock = true ∨ a.toNat % 4 ≠ 0 ∨ a.toNat < 0x08 ∨ 0x28 < a.toNat → t.csr = s.csr) ∧
    t.csr.configured = s.csr.configured ∧ t.csr.cfgLock = s.csr.cfgLock ∧ t.csr.lastStatus = s.csr.lastStatus ∧
    t.store = s.store ∧ t.seq = s.seq ∧ t.tmp = s.tmp ∧ t.inst = s.inst ∧ t.free = s.free

/-- R24: the fields of STATUS; BUSY is 1 in every FSM state but UNCFG and IDLE (R194). -/
def Obligations.StatusFields : Prop :=
  ∀ s : State,
    s.statusWord.getLsbD 0 = s.csr.configured ∧
    (s.statusWord.getLsbD 1 = true ↔ s.seq.fsm ≠ .uncfg ∧ s.seq.fsm ≠ .idle) ∧
    s.statusWord.getLsbD 2 = s.csr.cfgLock ∧ s.statusWord.extractLsb' 3 5 = 0 ∧
    s.statusWord.extractLsb' 8 4 = s.csr.lastStatus ∧ s.statusWord.extractLsb' 12 20 = 0

/-- R177: CfgValid(), with R33's test of THRBITS on its bits. -/
def Obligations.CfgValidIsEveryFieldLegal : Prop :=
  ∀ s : State, s.cfgValid = true ↔
    (1 ≤ s.csr.cfgL.toNat ∧ s.csr.cfgL.toNat ≤ s.inst.lMax) ∧
    (1 ≤ s.csr.cfgM.toNat ∧ s.csr.cfgM.toNat ≤ s.inst.mMax) ∧
    (1 ≤ s.csr.cfgLightLen.toNat ∧ s.csr.cfgLightLen.toNat ≤ s.inst.llMax) ∧
    (1 ≤ s.csr.cfgB.toNat ∧ s.csr.cfgB.toNat ≤ s.inst.bMax) ∧
    (1 ≤ s.csr.cfgH.toNat ∧ s.csr.cfgH.toNat ≤ s.inst.hMax) ∧
    (1 ≤ s.csr.cfgLen8.toNat ∧ s.csr.cfgLen8.toNat ≤ s.inst.n8Max) ∧
    (1 ≤ s.csr.cfgLen16.toNat ∧ s.csr.cfgLen16.toNat ≤ s.inst.n16Max) ∧
    (let thr : Word64 := s.csr.cfgThrHi ++ s.csr.cfgThrLo
     thr.getLsbD 63 = false ∧ thr.extractLsb' 52 11 ≠ 0x7FF ∧ thr.extractLsb' 0 63 ≠ 0)

/-- R200 and R190: the codes of the statuses and of the FSM states. -/
def Obligations.StatusAndFsmCodes : Prop :=
  [Status.ok, .errOpcode, .errReserved, .errNotConfigured, .errAlreadyConfigured, .errConfig, .errKeyLen].map
    (fun st => st.code.toNat) = [0, 1, 2, 3, 4, 5, 6] ∧
  [Fsm.uncfg, .clear, .idle, .hash, .light, .mid8, .kv, .mid16, .heavy, .evict, .resp].map
    (fun f => f.code.toNat) = [0, 1, 2, 3, 4, 5, 6, 7, 8, 9, 10]

/-- R194 and R220: the outputs as functions of the FSM state. -/
def Obligations.OutputsFollowTheFsmState : Prop :=
  ∀ s : State,
    (s.cmdReady false = true ↔ s.seq.fsm = .uncfg ∨ s.seq.fsm = .idle) ∧
    ((s.response false).isSome = true ↔ s.seq.fsm = .resp) ∧
    (s.busy = true ↔ s.seq.fsm ≠ .uncfg ∧ s.seq.fsm ≠ .idle) ∧
    (s.hashRequest false ≠ none → s.seq.fsm = .hash ∧ s.seq.hashAsked < s.csr.seeds) ∧
    s.cmdReady true = false ∧ s.csrReady true = false ∧ s.response true = none ∧ s.hashRequest true = none ∧
    s.hashResponseReady true = false

/-! ## The datapath (40_datapath.md) -/

/-- R102: the index formulas, exact, for every seed that the command latches (R101). -/
def Obligations.ProbeIndexFormulas : Prop :=
  ∀ (s : State) (key : List Byte) (j : Nat), j < max s.csr.cfgL.toNat s.csr.cfgM.toNat →
    let u := s.probes key
    let hv := fun i => (s.hashOf key i).toNat
    u.nl j = hv j % (2 * s.csr.cfgLightLen.toNat) ∧ u.bi j = hv j % s.csr.cfgB.toNat ∧
    u.s8 j = (hv j % s.csr.cfgB.toNat) % s.csr.cfgLen8.toNat ∧
    u.s16 j = (hv j % s.csr.cfgB.toNat) % s.csr.cfgLen16.toNat ∧ u.hi = hv 0 % s.csr.cfgH.toNat

/-- R104: each tier's minimum is a probed value that no probed value lies below. -/
def Obligations.TierMinimumIsTheLeastProbe : Prop :=
  ∀ (t : Storage) (u : Lookup), 0 < u.l → 0 < u.m →
    ((∀ l < u.l, t.lightMin u ≤ t.nib (l, u.nl l)) ∧ ∃ l < u.l, t.nib (l, u.nl l) = t.lightMin u) ∧
    ((∀ j < u.m, t.c8Min u ≤ (t.c8.read [j, u.bi j, u.s8 j]).toNat) ∧
      ∃ j < u.m, (t.c8.read [j, u.bi j, u.s8 j]).toNat = t.c8Min u) ∧
    ((∀ j < u.m, t.c16Min u ≤ (t.c16.read [j, u.bi j, u.s16 j]).toNat) ∧
      ∃ j < u.m, (t.c16.read [j, u.bi j, u.s16 j]).toNat = t.c16Min u)

/-- R112: MatchScan and FreeScan answer the least layer, NONE where there is none, and a match anywhere wins. -/
def Obligations.FindSlotPrefersAMatchAnywhere : Prop :=
  ∀ (t : Storage) (u : Lookup) (key : List Byte),
    (∀ f, t.findSlot u key = some f ↔
      (f < u.m ∧ t.keyEq u key f = true ∧ ∀ g < f, t.keyEq u key g = false) ∨
      ((∀ j < u.m, t.keyEq u key j = false) ∧ f < u.m ∧ t.occ.read [f, u.bi f] = 0 ∧
        ∀ g < f, t.occ.read [g, u.bi g] = 1)) ∧
    (t.findSlot u key = none ↔ ∀ j < u.m, t.keyEq u key j = false ∧ t.occ.read [j, u.bi j] = 1)

/-- R153: kv_min is the lowest of the candidate buckets with the least VAL. -/
def Obligations.KvMinIsTheLowestLeastValue : Prop :=
  ∀ (t : Storage) (u : Lookup), 0 < u.m →
    ∃ k < u.m, t.kvMin u = some k ∧
      (∀ j < u.m, (t.val.read [k, u.bi k]).toNat ≤ (t.val.read [j, u.bi j]).toNat) ∧
      ∀ j < k, (t.val.read [k, u.bi k]).toNat < (t.val.read [j, u.bi j]).toNat

/-- R113: ThrGE is the comparison of a with v · THR as real numbers, with no rounding. -/
def Obligations.ThresholdComparisonIsExact : Prop :=
  ∀ (t : Word64) (a v : Nat), thrGE t a v = true ↔ (v : ℚ) * thrValue t ≤ (a : ℚ)

/-- R81: the request on the hash port carries the key of the command in flight on its byte lanes, the bytes at KLEN and
beyond 0, its length, and the seed whose request is next. -/
def Obligations.HashRequestCarriesTheKey : Prop :=
  ∀ (s : State) (r : HashRequest), s.hashRequest false = some r →
    r.klen = s.seq.cmd.extractLsb' 8 8 ∧ r.seed = BitVec.ofNat 8 s.seq.hashAsked ∧ r.key.length = s.inst.keyMaxLen ∧
    ∀ i < s.inst.keyMaxLen, r.key.getD i 0 = if i < r.klen.toNat then s.seq.key.getD i 0 else 0

/-! ## Refusals (60_exceptions.md) -/

/-- R201: an INSERT or a QUERY before a successful CONFIGURE answers ERR_NOT_CONFIGURED and estimate 0; it takes no
hash answer, and it neither reads nor writes the storage (the same for any storage). -/
def Obligations.KeyedCommandBeforeConfigureIsRefused : Prop :=
  ∀ (s : State) (klen : BitVec 8) (p : List Byte) (count : Word32) (other : Storage),
    s.csr.configured = false →
    ∀ i ∈ [Instr.insert klen p count, Instr.query klen p],
      exec i { s with store := other } =
        .next { s with store := other, seq := { s.seq with fsm := .resp, rspStatus := 0x3, rspEst := 0 } }

/-- R171, R202 step 5: once configured, a key of 0 or of more than KEY_MAX_LEN bytes answers ERR_KEY_LEN and changes
nothing else. -/
def Obligations.IllegalKeyLengthIsRefused : Prop :=
  ∀ (s : State) (klen : BitVec 8) (p : List Byte) (count : Word32),
    s.csr.configured = true → (klen.toNat = 0 ∨ s.inst.keyMaxLen < klen.toNat) →
    ∀ i ∈ [Instr.insert klen p count, Instr.query klen p],
      exec i s = .next { s with seq := { s.seq with fsm := .resp, rspStatus := 0x6, rspEst := 0 } }

/-- R176's refusals, in the order of R202 steps 4 and 6; CFG_LOCK is 1 while the refused CONFIGURE is in flight. -/
def Obligations.ConfigureIsRefused : Prop :=
  ∀ s : State,
    (s.csr.configured = true →
      exec .configure s = .next
        { s with
          csr := { s.csr with cfgLock := true }
          seq := { s.seq with fsm := .resp, rspStatus := 0x4, rspEst := 0 } }) ∧
    (s.csr.configured = false → s.cfgValid = false →
      exec .configure s = .next
        { s with
          csr := { s.csr with cfgLock := true }
          seq := { s.seq with fsm := .resp, rspStatus := 0x5, rspEst := 0 } })

/-- R203, R205: once its response is taken, a refused command has changed LAST_STATUS only (and the response register,
dead then), and the block is in the idle state that accepted the command. -/
def Obligations.RefusedCommandChangesOnlyLastStatus : Prop :=
  ∀ (s t : State) (i : Instr), Inv s → (s.seq.fsm = .uncfg ∨ s.seq.fsm = .idle) →
    exec i s = .next t → t.seq.rspStatus ≠ 0 →
    t.seq.rspEst = 0 ∧
    t.deliver =
      { s with
        csr := { s.csr with lastStatus := t.seq.rspStatus }
        seq := { s.seq with rspStatus := t.seq.rspStatus, rspEst := 0 } }

/-! ## CONFIGURE and INSERT and QUERY (46_commands.md, 41 to 45)

That `Completes` leaves the dead registers as they were, and what it says of CMD and KEY, are the model's choices (log
entries 12 and 13). -/

/-- R176, R40: a CONFIGURE with a legal configuration completes: every storage element reads 0, CONFIGURED and
CFG_LOCK are 1, the response is OK with estimate 0, no hash answer is taken, and the CFG_* registers stay. -/
def Obligations.ConfigureClearsTheStorage : Prop :=
  ∀ s : State, s.csr.configured = false → s.cfgValid = true →
    ∃ t, exec .configure s = .next t ∧
      t.csr = { s.csr with configured := true, cfgLock := true } ∧
      t.seq = { s.seq with fsm := .resp, rspStatus := 0, rspEst := 0, cfgd := true } ∧
      (∀ k, t.store.light.read k = 0 ∧ t.store.c8.read k = 0 ∧ t.store.c16.read k = 0 ∧ t.store.occ.read k = 0 ∧
        t.store.kls.read k = 0 ∧ t.store.keyb.read k = 0 ∧ t.store.val.read k = 0 ∧ t.store.heavy.read k = 0) ∧
      t.inst = s.inst ∧ t.tmp = s.tmp ∧ t.port = s.port ∧ t.free = s.free

/-- R120, terminal: while the light candidate is below 15, INSERT raises the L light probes to it and returns it; every
other nibble and array stays. -/
def Obligations.InsertEndingInTheLightTier : Prop :=
  ∀ (s : State) (klen : BitVec 8) (p : List Byte) (count : Word32), s.serves klen →
    let key := keyOf klen p
    let u := s.probes key
    let cand := s.store.lightMin u + count.toNat
    cand < 15 →
    ∃ t, exec (.insert klen p count) s = .next t ∧ Completes (.insert klen p count) p key cand s t ∧
      (∀ q, t.store.nib q = if q ∈ u.lightProbes then max (s.store.nib q) cand else s.store.nib q) ∧
      t.store.c8 = s.store.c8 ∧ sameBeyond8 s.store t.store

/-- R120 saturating, R130 terminal: the light probes become 15, the 8-bit probes rise to their candidate, and INSERT
returns 14 plus it. -/
def Obligations.InsertEndingInThe8BitTier : Prop :=
  ∀ (s : State) (klen : BitVec 8) (p : List Byte) (count : Word32), s.serves klen →
    let key := keyOf klen p
    let u := s.probes key
    let cand8 := s.store.c8Min u + (s.store.lightMin u + count.toNat - 14)
    15 ≤ s.store.lightMin u + count.toNat → cand8 < 255 →
    ∃ t, exec (.insert klen p count) s = .next t ∧ Completes (.insert klen p count) p key (14 + cand8) s t ∧
      (∀ q, t.store.nib q = if q ∈ u.lightProbes then 15 else s.store.nib q) ∧
      (∀ k, (t.store.c8.read k).toNat =
        if k ∈ u.c8Probes then max (s.store.c8.read k).toNat cand8 else (s.store.c8.read k).toNat) ∧
      sameBeyond8 s.store t.store

/-- R140 with room in the slot, R141: INSERT adds the remainder to VAL of the slot found, claims it if it is free, and
returns 268 plus the new value. -/
def Obligations.InsertKeptInItsSlot : Prop :=
  ∀ (s : State) (klen : BitVec 8) (p : List Byte) (count : Word32) (f : Nat), s.serves klen →
    let key := keyOf klen p
    let u := s.probes key
    let nv := (s.store.val.read (u.bucket f)).toNat + remAfterLowTiers u s.store count.toNat
    lowTiersOverflow u s.store count.toNat → s.store.findSlot u key = some f → nv < 65535 →
    ∃ t, exec (.insert klen p count) s = .next t ∧ Completes (.insert klen p count) p key (268 + nv) s t ∧
      lowTiersSaturated u s.store t.store ∧
      (∀ k, (t.store.val.read k).toNat = if k = u.bucket f then nv else (s.store.val.read k).toNat) ∧
      (s.store.occ.read (u.bucket f) = 0 → keyWritten u s.inst.keyMaxLen key f s.store t.store) ∧
      (s.store.occ.read (u.bucket f) = 1 →
        t.store.occ = s.store.occ ∧ t.store.kls = s.store.kls ∧ t.store.keyb = s.store.keyb) ∧
      t.store.c16 = s.store.c16 ∧ t.store.heavy = s.store.heavy

/-- R140 overflowing, R161: VAL becomes 65535, the excess nv − 65534 goes to the heavy counter, which saturates, and
INSERT returns 65802 plus it. -/
def Obligations.InsertOverflowingItsSlot : Prop :=
  ∀ (s : State) (klen : BitVec 8) (p : List Byte) (count : Word32) (f : Nat), s.serves klen →
    let key := keyOf klen p
    let u := s.probes key
    let nv := (s.store.val.read (u.bucket f)).toNat + remAfterLowTiers u s.store count.toNat
    let heavy := min ((s.store.heavy.read [u.hi]).toNat + (nv - 65534)) 4294967295
    lowTiersOverflow u s.store count.toNat → s.store.findSlot u key = some f → 65535 ≤ nv →
    ∃ t, exec (.insert klen p count) s = .next t ∧ Completes (.insert klen p count) p key (65802 + heavy) s t ∧
      lowTiersSaturated u s.store t.store ∧
      (∀ k, (t.store.val.read k).toNat = if k = u.bucket f then 65535 else (s.store.val.read k).toNat) ∧
      (∀ k, (t.store.heavy.read k).toNat = if k = [u.hi] then heavy else (s.store.heavy.read k).toNat) ∧
      (s.store.occ.read (u.bucket f) = 0 → keyWritten u s.inst.keyMaxLen key f s.store t.store) ∧
      (s.store.occ.read (u.bucket f) = 1 →
        t.store.occ = s.store.occ ∧ t.store.kls = s.store.kls ∧ t.store.keyb = s.store.keyb) ∧
      t.store.c16 = s.store.c16

/-- R150 to R153 without an eviction: with no slot, the 16-bit probes rise to their candidate or saturate, a
saturation forwards cand16 − 65534 to the heavy counter, and where the updated minimum is below vmin · THR the key
stays untracked. -/
def Obligations.InsertEndingInThe16BitTier : Prop :=
  ∀ (s : State) (klen : BitVec 8) (p : List Byte) (count : Word32) (k : Nat), s.serves klen →
    let key := keyOf klen p
    let u := s.probes key
    let cand16 := s.store.c16Min u + remAfterLowTiers u s.store count.toNat
    let heavy := min ((s.store.heavy.read [u.hi]).toNat + (cand16 - 65534)) 4294967295
    lowTiersOverflow u s.store count.toNat → s.store.findSlot u key = none → s.store.kvMin u = some k →
    ((min cand16 65535 : Nat) : ℚ) < ((s.store.val.read (u.bucket k)).toNat : ℚ) * thrValue s.csr.thrBits →
    ∃ t, exec (.insert klen p count) s = .next t ∧
      Completes (.insert klen p count) p key (if cand16 < 65535 then 268 + cand16 else 65802 + heavy) s t ∧
      lowTiersSaturated u s.store t.store ∧
      (∀ a, (t.store.c16.read a).toNat =
        if a ∈ u.c16Probes then (if cand16 < 65535 then max (s.store.c16.read a).toNat cand16 else 65535)
        else (s.store.c16.read a).toNat) ∧
      (∀ a, (t.store.heavy.read a).toNat =
        if a = [u.hi] ∧ 65535 ≤ cand16 then heavy else (s.store.heavy.read a).toNat) ∧
      t.store.occ = s.store.occ ∧ t.store.kls = s.store.kls ∧ t.store.keyb = s.store.keyb ∧ t.store.val = s.store.val

/-- R150 to R154 with an eviction: as without one, and then the key replaces the key of kv_min with the updated
16-bit minimum as its value, and the old value is added to each of the M 16-bit probes, saturating at 65535. The
result is the one computed before the eviction (R157). That it evicts where the two sides are equal with vmin = 65535 and
THR = 1.0, where R153 contradicts itself, is the model's choice (log entry 29). -/
def Obligations.InsertEvictingTheLeastKey : Prop :=
  ∀ (s : State) (klen : BitVec 8) (p : List Byte) (count : Word32) (k : Nat), s.serves klen →
    let key := keyOf klen p
    let u := s.probes key
    let cand16 := s.store.c16Min u + remAfterLowTiers u s.store count.toNat
    let heavy := min ((s.store.heavy.read [u.hi]).toNat + (cand16 - 65534)) 4294967295
    let vmin := (s.store.val.read (u.bucket k)).toNat
    lowTiersOverflow u s.store count.toNat → s.store.findSlot u key = none → s.store.kvMin u = some k →
    (vmin : ℚ) * thrValue s.csr.thrBits ≤ ((min cand16 65535 : Nat) : ℚ) →
    ∃ t, exec (.insert klen p count) s = .next t ∧
      Completes (.insert klen p count) p key (if cand16 < 65535 then 268 + cand16 else 65802 + heavy) s t ∧
      lowTiersSaturated u s.store t.store ∧
      (∀ a, (t.store.c16.read a).toNat =
        if a ∈ u.c16Probes then
          min ((if cand16 < 65535 then max (s.store.c16.read a).toNat cand16 else 65535) + vmin) 65535
        else (s.store.c16.read a).toNat) ∧
      (∀ a, (t.store.heavy.read a).toNat =
        if a = [u.hi] ∧ 65535 ≤ cand16 then heavy else (s.store.heavy.read a).toNat) ∧
      keyWritten u s.inst.keyMaxLen key k s.store t.store ∧
      ∀ a, (t.store.val.read a).toNat = if a = u.bucket k then min cand16 65535 else (s.store.val.read a).toNat

/-- R173: QUERY completes with the estimate of the first unsaturated tier, in the tier-offset encoding of R174, and
writes no storage and no CSR. -/
def Obligations.QueryAnswersTheFirstUnsaturatedTier : Prop :=
  ∀ (s : State) (klen : BitVec 8) (p : List Byte), s.serves klen →
    let key := keyOf klen p
    let u := s.probes key
    let m := s.store.lightMin u
    let m8 := s.store.c8Min u
    let m16 := s.store.c16Min u
    let heavy := (s.store.heavy.read [u.hi]).toNat
    ∃ t est, exec (.query klen p) s = .next t ∧ Completes (.query klen p) p key est s t ∧ t.store = s.store ∧
      (m < 15 → est = m) ∧
      (m = 15 → m8 < 255 → est = 14 + m8) ∧
      (m = 15 → m8 = 255 → ∀ f, s.store.matchScan u key = some f →
        est = if (s.store.val.read (u.bucket f)).toNat < 65535 then 268 + (s.store.val.read (u.bucket f)).toNat
          else 65802 + heavy) ∧
      (m = 15 → m8 = 255 → s.store.matchScan u key = none →
        est = if m16 < 65535 then 268 + m16 else 65802 + heavy)

/-- R202 step 7, R200: an INSERT or a QUERY that passes the checks completes with OK, whatever the storage holds. -/
def Obligations.AdmittedKeyedCommandAnswersOk : Prop :=
  ∀ (s : State) (klen : BitVec 8) (p : List Byte) (count : Word32), s.serves klen →
    (∃ t est, exec (.insert klen p count) s = .next t ∧ Completes (.insert klen p count) p (keyOf klen p) est s t ∧
      est ≤ 4295033097) ∧
    ∃ t est, exec (.query klen p) s = .next t ∧ Completes (.query klen p) p (keyOf klen p) est s t ∧ est ≤ 4295033097

/-- R71: payload bytes at KLEN and beyond reach neither the storage, nor the hash port, nor the response: two payloads that
agree below KLEN give next states that differ at most in the key register, of whose content nothing is said here (that it
takes the lanes beyond KLEN is the model's choice, log entry 12). -/
def Obligations.PayloadBeyondTheKeyIsIgnored : Prop :=
  ∀ (s t : State) (klen : BitVec 8) (p q : List Byte) (count : Word32),
    (∀ i < klen.toNat, p.getD i 0 = q.getD i 0) →
    (exec (.insert klen p count) s = .next t →
      ∃ r, exec (.insert klen q count) s = .next r ∧ r = { t with seq := { t.seq with key := r.seq.key } }) ∧
    (exec (.query klen p) s = .next t →
      ∃ r, exec (.query klen q) s = .next r ∧ r = { t with seq := { t.seq with key := r.seq.key } })

/-! ## What the commands make together (20_memory.md, 41 to 46) -/

/-- R122, R132, R143, R157: a QUERY of a key right after an INSERT of it answers the INSERT's estimate, in every tier
case and across an eviction, where the provider gives both commands the same hash values. -/
def Obligations.QueryAfterInsertAnswersTheSame : Prop :=
  ∀ (s t u : State) (klen : BitVec 8) (p : List Byte) (count : Word32), Inv s →
    exec (.insert klen p count) s = .next t → t.seq.rspStatus = 0 →
    (∀ i < s.csr.seeds, t.hashOf (keyOf klen p) i = s.hashOf (keyOf klen p) i) →
    exec (.query klen p) t.deliver = .next u →
    u.seq.rspStatus = 0 ∧ u.seq.rspEst = t.seq.rspEst

/-- R58 item 3: two QUERYs of one key with no INSERT between them answer the same, where the provider gives both the
same hash values. -/
def Obligations.RepeatedQueryAnswersTheSame : Prop :=
  ∀ (s t u : State) (klen : BitVec 8) (p : List Byte),
    exec (.query klen p) s = .next t →
    (∀ i < s.csr.seeds, t.hashOf (keyOf klen p) i = s.hashOf (keyOf klen p) i) →
    exec (.query klen p) t.deliver = .next u →
    u.seq.rspStatus = t.seq.rspStatus ∧ u.seq.rspEst = t.seq.rspEst ∧ u.store = t.store

/-- R182: without an eviction of it, a key's QUERY never falls: an INSERT, of the same key or of another, that leaves
the key in the bucket that held it (if one did) leaves its QUERY at least where it was. `r` asks and `r'` inserts,
under one configuration and a deterministic provider. -/
def Obligations.QueryNeverFallsWithoutEviction : Prop :=
  ∀ (c : Csrs) (hv hv' : Nat → Nat) (thr : Word64) (n : Nat) (key key' : List Byte) (count : Nat) (t : Storage),
    let r : Request := { look := c.lookup hv, thr := thr, keyMaxLen := n, key := key }
    let r' : Request := { look := c.lookup hv', thr := thr, keyMaxLen := n, key := key' }
    let t' := (insertLight r' count t).1
    1 ≤ c.cfgL.toNat → 1 ≤ c.cfgM.toNat → n ≤ 255 → key'.length ≤ n → t.c16Claimed →
    (key' = key → hv' = hv) →
    (∀ f, t.matchScan r.look key = some f → t'.matchScan r.look key = some f) →
    queryLight r t ≤ queryLight r t'

/-- R45 item 4: while configured, no edge but a reset decreases a counter of any tier or unclaims a bucket; and where a
VAL falls, the bucket's key has been replaced. -/
def Obligations.CountersNeverDecrease : Prop :=
  ∀ s t : State, Inv s → s.csr.configured = true → s.nextEdge.rst = false → step s = .next t →
    (∀ q, s.store.nib q ≤ t.store.nib q) ∧
    (∀ k, (s.store.c8.read k).toNat ≤ (t.store.c8.read k).toNat) ∧
    (∀ k, (s.store.c16.read k).toNat ≤ (t.store.c16.read k).toNat) ∧
    (∀ k, (s.store.heavy.read k).toNat ≤ (t.store.heavy.read k).toNat) ∧
    (∀ k, s.store.occ.read k = 1 → t.store.occ.read k = 1) ∧
    ∀ j b, (t.store.val.read [j, b]).toNat < (s.store.val.read [j, b]).toNat →
      t.store.kls.read [j, b] ≠ s.store.kls.read [j, b] ∨
        ∃ i, t.store.keyb.read [j, b, i] ≠ s.store.keyb.read [j, b, i]

/-- R34, R179, R223, R228: the instance never changes; and while configured, no edge but a reset changes a CFG_*
register, CONFIGURED or CFG_LOCK. -/
def Obligations.ConfigurationIsFixedUntilReset : Prop :=
  ∀ s t : State, Inv s → step s = .next t →
    t.inst = s.inst ∧
    (s.csr.configured = true → s.nextEdge.rst = false → t.csr = { s.csr with lastStatus := t.csr.lastStatus })

/-- R45 item 5: with a deterministic provider, an INSERT keeps first fit: where a candidate bucket of any key holds it,
the buckets of the lower layers are claimed by other keys. -/
def Obligations.InsertKeepsFirstFit : Prop :=
  ∀ (s t : State) (h : List Byte → Nat → Nat) (klen : BitVec 8) (p : List Byte) (count : Word32),
    Inv s → s.store.firstFit s.csr h →
    (∀ i < s.csr.seeds, (s.hashOf (keyOf klen p) i).toNat = h (keyOf klen p) i) →
    exec (.insert klen p count) s = .next t → t.store.firstFit t.csr h

/-- R45 item 5, for every step: while the block is configured, first fit holds after every edge, whatever is driven at it
(a command of any kind, a CSR access, a delivery, a reset), where the provider answers a command at the edge by `h`; a
CONFIGURE establishes it. -/
def Obligations.StepKeepsFirstFit : Prop :=
  ∀ (s t : State) (h : List Byte → Nat → Nat), Inv s →
    (s.csr.configured = true → s.store.firstFit s.csr h) →
    (∀ c, s.nextEdge.cmd = some c → let key := keyOf (klenOf c.word) c.payload
      ∀ i < s.csr.seeds, (s.hashOf key i).toNat = h key i) →
    step s = .next t → t.csr.configured = true → t.store.firstFit t.csr h

/-- R156: after an eviction, no candidate bucket holds the evicted key E any more, with a deterministic provider. That there
is an eviction at vmin = m16r = 65535 with THR = 1.0, which the hypotheses include and where R153 contradicts itself, is the
model's choice (log entry 29). -/
def Obligations.EvictedKeyIsHeldNowhere : Prop :=
  ∀ (s t : State) (h : List Byte → Nat → Nat) (klen : BitVec 8) (p : List Byte) (count : Word32) (k : Nat)
    (evicted : List Byte),
    Inv s → s.serves klen → s.store.firstFit s.csr h →
    let key := keyOf klen p
    let u := s.probes key
    let uE := s.csr.lookup (h evicted)
    (∀ i < s.csr.seeds, (s.hashOf key i).toNat = h key i) →
    lowTiersOverflow u s.store count.toNat → s.store.findSlot u key = none → s.store.kvMin u = some k →
    (((s.store.val.read (u.bucket k)).toNat : Nat) : ℚ) * thrValue s.csr.thrBits ≤
      ((min (s.store.c16Min u + remAfterLowTiers u s.store count.toNat) 65535 : Nat) : ℚ) →
    uE.bucket k = u.bucket k → s.store.keyEq uE evicted k = true →
    exec (.insert klen p count) s = .next t →
    ∀ j < uE.m, t.store.keyEq uE evicted j = false

/-! ## Invariants and runs -/

/-- The invariants of the registers and of the storage hold right after reset, for every legal instance and whatever
is outside (R44; the storage there and the dead registers are the model's choice, log entries 4 to 6). -/
def Obligations.InvariantHoldsAtReset : Prop :=
  Inv State.reset ∧ ∀ (p : Params) (outside : Ports), p.legal → Inv (State.start p outside)

/-- R45 items 1, 2, 3 and 6, R24, R34, R38, R41, R200: every step keeps the invariants, whatever the host and the hash
provider do. -/
def Obligations.StepKeepsTheInvariant : Prop :=
  ∀ s t : State, Inv s → step s = .next t → Inv t

/-- R202, R204: a state that meets the invariants steps on: no command, no CSR access and no reset stops the block. -/
def Obligations.StepNeverStops : Prop :=
  ∀ s : State, Inv s → Safe s

/-- No run from reset stops, for any instance, any host and any hash provider. -/
def Obligations.NoRunFromResetStops : Prop :=
  ∀ (p : Params) (outside : Ports) (n : Nat), p.legal →
    ∃ t, Host.Core.run Sys2Proof.core n (State.start p outside) = .next t ∧ Inv t

/-! ## The FSM (47_fsm.md) -/

/-- R191, R210: at an edge without reset a command in flight takes one FSM transition after the edge's CSR access, in
`cycle` and in `step` alike; HASH waits, with nothing but that access, while the hash provider neither takes a request nor
answers. One transition an edge is the model's choice (log entry 17). -/
def Obligations.EdgeAdvancesTheCommandInFlight : Prop :=
  ∀ s : State, s.nextEdge.rst = false → s.seq.fsm.successors ≠ [] →
    let s' := csrPort s.nextEdge.csr s.dropEdge
    cycle s = advance s.nextEdge.hash s' ∧ step s = cycle s ∧
    (s.nextEdge.csr = none →
      s' = { s with port := { s.port with inputs := s.port.inputs.tail, csrRdata := none } }) ∧
    (s.seq.fsm = .hash → s'.cfgValid = true → s.seq.hashNext < s'.csr.seeds →
      s.nextEdge.hash = { hreqReady := false, hrsp := none } → cycle s = .next s')

/-- R81, R101, R170: the two handshakes of the hash port in HASH. A driven request is transferred where hreq_ready is 1;
an owed answer goes into the HV of its seed; both may happen at one edge, and a request may be taken with its answer still
owed; with the last answer the command goes to LIGHT. Nothing else changes. That hrsp_ready is 1 exactly while an answer is
owed is the model's choice (log entry 27). -/
def Obligations.HashHandshakesAtAnEdge : Prop :=
  ∀ (s : State) (h : HashInput), s.seq.fsm = .hash → s.cfgValid = true → s.seq.hashNext < s.csr.seeds →
    let asked := if h.hreqReady = true ∧ s.seq.hashAsked < s.csr.seeds then s.seq.hashAsked + 1 else s.seq.hashAsked
    (s.hashResponseReady false = true ↔ s.seq.hashNext < s.seq.hashAsked) ∧
    (h.hrsp = none ∨ s.seq.hashAsked ≤ s.seq.hashNext →
      advance h s = .next { s with seq := { s.seq with hashAsked := asked } }) ∧
    ∀ v, h.hrsp = some v → s.seq.hashNext < s.seq.hashAsked →
      advance h s = .next
        { s with
          seq := { s.seq with
            hashAsked := asked
            hashNext := s.seq.hashNext + 1
            hv := s.seq.hv.write [s.seq.hashNext] v
            fsm := if s.seq.hashNext + 1 = s.csr.seeds then .light else .hash } }

/-- R101, R194: at every edge of a run no more answers have been latched than requests transferred, and no more requests
transferred than the S seeds. That both counts are 0 at an acceptance is the model's choice (log entry 5), and that answers
never outrun requests, whatever the hash provider drives, rests on its taking only an owed answer (log entry 27). -/
def Obligations.HashAnswersNeverOutrunRequests : Prop :=
  (∀ (s a : State) (c : Command), (s.seq.fsm = .uncfg ∨ s.seq.fsm = .idle) → fsmAccept c s = .next a →
    a.seq.fsm = .hash → a.seq.hashAsked = 0 ∧ a.seq.hashNext = 0) ∧
  ∀ (s t : State) (h : HashInput), s.seq.hashNext ≤ s.seq.hashAsked → s.seq.hashAsked ≤ s.csr.seeds →
    advance h s = .next t →
    t.seq.hashNext ≤ t.seq.hashAsked ∧ t.seq.hashAsked ≤ t.csr.seeds ∧
      (s.seq.fsm = .hash → t.seq.fsm = .light → t.seq.hashNext = t.csr.seeds ∧ t.seq.hashAsked = t.csr.seeds)

/-- R170, R194: a hash request, once driven, is driven with its data stable until it is transferred: an edge without reset
at which hreq_ready is 0 leaves it as it was, whatever else is driven. -/
def Obligations.HashRequestIsHeldUntilTaken : Prop :=
  ∀ (s t : State) (r : HashRequest), s.hashRequest false = some r → s.seq.hashNext ≤ s.seq.hashAsked →
    s.csr.cfgLock = true → s.nextEdge.rst = false → s.nextEdge.hash.hreqReady = false → cycle s = .next t →
    t.hashRequest false = some r

/-- R191: a state in flight goes only where its rows say; and a QUERY reaches EVICT from no state and writes the
storage in no state (R193, R197). -/
def Obligations.FsmFollowsItsTransitions : Prop :=
  ∀ (s t : State) (h : HashInput), advance h s = .next t → s.seq.fsm.successors ≠ [] →
    t.seq.fsm ∈ s.seq.fsm.successors ∧
    (s.inserting = false → s.seq.fsm ≠ .evict → t.seq.fsm ≠ .evict ∧ (s.seq.fsm ≠ .clear → t.store = s.store))

/-- R197: escalation. An INSERT leaves LIGHT for MID8 only with every light probe at 15, and MID8 for KV only with
every 8-bit probe at 255; it reaches MID16 only where no candidate bucket matches or is free. -/
def Obligations.FsmEscalatesOnlyWhenSaturated : Prop :=
  ∀ (s t : State) (h : HashInput), advance h s = .next t → s.inserting = true →
    (s.seq.fsm = .light → t.seq.fsm = .mid8 → ∀ q ∈ s.lookup.lightProbes, t.store.nib q = 15) ∧
    (s.seq.fsm = .mid8 → t.seq.fsm = .kv → ∀ k ∈ s.lookup.c8Probes, (t.store.c8.read k).toNat = 255) ∧
    (s.seq.fsm = .kv → t.seq.fsm = .mid16 → ∀ j < s.lookup.m,
      s.store.keyEq s.lookup s.flightKey j = false ∧ s.store.occ.read (s.lookup.bucket j) = 1)

/-- R56, R228: while CFG_LOCK = 1, a CSR access at an edge does not disturb the command in flight: the registers, the
storage and the sequencer advance as without it. -/
def Obligations.CsrAccessDoesNotDisturbTheCommand : Prop :=
  ∀ (s t : State) (h : HashInput) (a : Option CsrAccess), s.csr.cfgLock = true → advance h s = .next t →
    ∃ r, advance h (csrPort a s) = .next r ∧
      r = { t with port := { t.port with csrRdata := (csrPort a s).port.csrRdata } }

/-- R196, R46: the FSM refines the atomic command. From an idle state, for every word and payload, the FSM accepts. With
a provider that is always ready and answers at the next edge it reaches RESP within S + 7 transitions; that count rests on
the model's choices of one transition an edge and of when an answer is taken (log entries 17 and 27). And whenever the
provider takes the requests and gives these answers, in RESP the state is the one that the atomic command gives, but for
the registers that are dead between commands (R41, R43) and the draws, which only the atomic command takes. -/
def Obligations.FsmRefinesTheAtomicCommand : Prop :=
  ∀ (s t : State) (c : Command), Inv s → (s.seq.fsm = .uncfg ∨ s.seq.fsm = .idle) →
    acceptCommand c s = .next t →
    let answer := s.hashOf (keyOf (klenOf c.word) c.payload)
    ∃ a, fsmAccept c s = .next a ∧
      (∃ n r, n ≤ s.csr.seeds + 7 ∧ advanceAll answer (List.replicate n (true, true)) a = .next r ∧
        r.seq.fsm = .resp) ∧
      ∀ es r, advanceAll answer es a = .next r → r.seq.fsm = .resp →
        r.withoutDead = { t.withoutDead with port := s.port }
end

