-- ==== Sys2Proof/Laws/Cells.lean ====
section
/-! SUPPORT. The laws of a storage array: what a read after a write gives, and that every write keeps the canonical
form. -/

namespace Sys2Proof.Machine

theorem indexLt_irrefl (k : Index) : indexLt k k = false := by
  induction k with
  | nil => rfl
  | cons a k ih => simpa [indexLt] using ih

theorem indexLt_ne {k l : Index} (h : indexLt k l = true) : k ≠ l := by
  rintro rfl; simp [indexLt_irrefl] at h

theorem indexLt_trans {k l m : Index} (h₁ : indexLt k l = true) (h₂ : indexLt l m = true) : indexLt k m = true := by
  induction k generalizing l m with
  | nil =>
    cases l with
    | nil => simp [indexLt] at h₁
    | cons b l => cases m with
      | nil => simp [indexLt] at h₂
      | cons c m => rfl
  | cons a k ih =>
    cases l with
    | nil => simp [indexLt] at h₁
    | cons b l =>
      cases m with
      | nil => simp [indexLt] at h₂
      | cons c m =>
        simp only [indexLt] at h₁ h₂ ⊢
        split at h₁ <;> split at h₂ <;> subst_vars
        · simpa using ih h₁ h₂
        · rename_i h; simpa [h] using h₂
        · rename_i h; simpa [h] using h₁
        · simp only [decide_eq_true_eq] at h₁ h₂
          rw [if_neg (by omega)]; simp; omega

theorem indexLt_total {k l : Index} (h : k ≠ l) : indexLt k l = true ∨ indexLt l k = true := by
  induction k generalizing l with
  | nil => cases l with
    | nil => exact absurd rfl h
    | cons b l => exact .inl rfl
  | cons a k ih => cases l with
    | nil => exact .inr rfl
    | cons b l =>
      by_cases hab : a = b
      · subst hab
        simpa [indexLt] using ih (by simpa using h)
      · simp only [indexLt, if_neg hab, if_neg (Ne.symm hab), decide_eq_true_eq]; omega

namespace Cells
variable {w : Nat}

@[simp] theorem read_nil (k : Index) : Cells.read (w := w) [] k = 0#w := rfl

theorem read_cons (k' : Index) (v : BitVec w) (m : Cells w) (k : Index) :
    Cells.read ((k', v) :: m) k = if k = k' then v else Cells.read m k := rfl

theorem read_erase (m : Cells w) (k k' : Index) :
    Cells.read (Cells.erase m k) k' = if k' = k then 0#w else Cells.read m k' := by
  induction m with
  | nil => simp [Cells.erase]
  | cons e m ih =>
    obtain ⟨l, v⟩ := e
    simp only [Cells.erase]
    split
    · subst_vars; rw [ih, read_cons]; split <;> rfl
    · simp only [read_cons, ih]; split <;> split <;> simp_all

theorem read_insert (m : Cells w) (k k' : Index) (v : BitVec w) :
    Cells.read (Cells.insert m k v) k' = if k' = k then v else Cells.read m k' := by
  induction m with
  | nil => simp [Cells.insert, read_cons]
  | cons e m ih =>
    obtain ⟨l, u⟩ := e
    simp only [Cells.insert]
    split
    · subst_vars; simp only [read_cons]; split <;> rfl
    · split
      · simp only [read_cons]
      · simp only [read_cons, ih]; split <;> split <;> simp_all

/-- A read after a write: the written element has the value, every other one is as before (R10, R55). -/
theorem read_write (m : Cells w) (k k' : Index) (v : BitVec w) :
    Cells.read (Cells.write m k v) k' = if k' = k then v else Cells.read m k' := by
  unfold Cells.write
  split
  · subst_vars; exact read_erase m k k'
  · exact read_insert m k k' v

@[simp] theorem read_write_same (m : Cells w) (k : Index) (v : BitVec w) :
    Cells.read (Cells.write m k v) k = v := by simp [read_write]

theorem read_write_other (m : Cells w) {k k' : Index} (v : BitVec w) (h : k' ≠ k) :
    Cells.read (Cells.write m k v) k' = Cells.read m k' := by simp [read_write, h]

/-- The canonical form, spelt out: indices strictly rising, no element 0. -/
theorem wf_iff (m : Cells w) :
    m.wf = true ↔ m.Pairwise (fun a b => indexLt a.1 b.1 = true) ∧ ∀ e ∈ m, e.2 ≠ 0#w := by
  induction m with
  | nil => simp [Cells.wf]
  | cons e m ih =>
    obtain ⟨k, v⟩ := e
    cases m with
    | nil => simp [Cells.wf]
    | cons e' m =>
      obtain ⟨k', v'⟩ := e'
      simp only [Cells.wf, Bool.and_eq_true, bne_iff_ne, ne_eq, ih, List.pairwise_cons, List.mem_cons,
        forall_eq_or_imp]
      constructor
      · rintro ⟨⟨hv, hlt⟩, ⟨h₁, h₂⟩, h₃, h₄⟩
        exact ⟨⟨⟨hlt, fun a ha => indexLt_trans hlt (h₁ a ha)⟩, h₁, h₂⟩, hv, h₃, h₄⟩
      · rintro ⟨⟨⟨hlt, -⟩, h₁, h₂⟩, hv, h₃, h₄⟩
        exact ⟨⟨hv, hlt⟩, ⟨h₁, h₂⟩, h₃, h₄⟩

theorem mem_erase {m : Cells w} {k : Index} {e : Index × BitVec w} (h : e ∈ Cells.erase m k) : e ∈ m := by
  induction m with
  | nil => exact h
  | cons e' m ih =>
    obtain ⟨l, v⟩ := e'
    simp only [Cells.erase] at h
    split at h
    · exact List.mem_cons_of_mem _ (ih h)
    · rcases List.mem_cons.mp h with h | h
      · simp [h]
      · exact List.mem_cons_of_mem _ (ih h)

theorem mem_insert {m : Cells w} {k : Index} {v : BitVec w} {e : Index × BitVec w}
    (h : e ∈ Cells.insert m k v) : e = (k, v) ∨ e ∈ m := by
  induction m with
  | nil => simpa [Cells.insert] using h
  | cons e' m ih =>
    obtain ⟨l, u⟩ := e'
    simp only [Cells.insert] at h
    split at h
    · rcases List.mem_cons.mp h with h | h
      · exact .inl h
      · exact .inr (List.mem_cons_of_mem _ h)
    · split at h
      · exact List.mem_cons.mp h
      · rcases List.mem_cons.mp h with h | h
        · simp [h]
        · exact (ih h).imp_right (List.mem_cons_of_mem _)

/-- What a write lists: the element named, and what was listed before. -/
theorem mem_write {m : Cells w} {k : Index} {v : BitVec w} {e : Index × BitVec w}
    (h : e ∈ Cells.write m k v) : e = (k, v) ∨ e ∈ m := by
  unfold Cells.write at h
  split at h
  · exact .inr (mem_erase h)
  · exact mem_insert h

theorem wf_erase {m : Cells w} (k : Index) (h : m.wf = true) : (Cells.erase m k).wf = true := by
  rw [wf_iff] at h ⊢
  refine ⟨?_, fun e he => h.2 e (mem_erase he)⟩
  replace h := h.1
  induction m with
  | nil => exact .nil
  | cons e m ih =>
    obtain ⟨l, v⟩ := e
    rw [List.pairwise_cons] at h
    simp only [Cells.erase]
    split
    · exact ih h.2
    · exact List.pairwise_cons.mpr ⟨fun a ha => h.1 a (mem_erase ha), ih h.2⟩

theorem wf_insert {m : Cells w} (k : Index) {v : BitVec w} (hv : v ≠ 0#w) (h : m.wf = true) :
    (Cells.insert m k v).wf = true := by
  rw [wf_iff] at h ⊢
  refine ⟨?_, fun e he => (mem_insert he).elim (by rintro rfl; exact hv) (h.2 e)⟩
  replace h := h.1
  induction m with
  | nil => simp [Cells.insert]
  | cons e m ih =>
    obtain ⟨l, u⟩ := e
    have h' := List.pairwise_cons.mp h
    simp only [Cells.insert]
    split
    · subst_vars; exact List.pairwise_cons.mpr h'
    · rename_i hne
      split
      · rename_i hlt
        refine List.pairwise_cons.mpr ⟨?_, h⟩
        intro a ha
        rcases List.mem_cons.mp ha with rfl | ha
        · exact hlt
        · exact indexLt_trans hlt (h'.1 a ha)
      · rename_i hlt
        refine List.pairwise_cons.mpr ⟨?_, ih h'.2⟩
        intro a ha
        rcases mem_insert ha with rfl | ha
        · exact (indexLt_total (Ne.symm hne)).resolve_right hlt
        · exact h'.1 a ha

/-- Every write keeps the canonical form. -/
theorem wf_write {m : Cells w} (k : Index) (v : BitVec w) (h : m.wf = true) : (Cells.write m k v).wf = true := by
  unfold Cells.write
  split
  · exact wf_erase k h
  · rename_i hv; exact wf_insert k hv h

/-- A list of writes, each of a function of the array so far, keeps the canonical form. -/
theorem wf_foldl {α : Type} (l : List α) (k : α → Index) (v : Cells w → α → BitVec w) {m : Cells w}
    (h : m.wf = true) : (l.foldl (fun m a => Cells.write m (k a) (v m a)) m).wf = true := by
  induction l generalizing m with
  | nil => exact h
  | cons a l ih => exact ih (wf_write _ _ h)

theorem wf_ofWrites (l : List (Index × BitVec w)) : (Cells.ofWrites l).wf = true :=
  wf_foldl l (fun e => e.1) (fun _ e => e.2) rfl

theorem read_eq_of_mem {m : Cells w} (h : m.wf = true) {e : Index × BitVec w} (he : e ∈ m) :
    Cells.read m e.1 = e.2 := by
  rw [wf_iff] at h
  replace h := h.1
  induction m with
  | nil => simp at he
  | cons e' m ih =>
    obtain ⟨l, u⟩ := e'
    have h' := List.pairwise_cons.mp h
    rcases List.mem_cons.mp he with rfl | he
    · simp [read_cons]
    · rw [read_cons, if_neg (Ne.symm (indexLt_ne (h'.1 e he))), ih he h'.2]

theorem mem_of_read {m : Cells w} {k : Index} (h : Cells.read m k ≠ 0#w) : (k, Cells.read m k) ∈ m := by
  induction m with
  | nil => simp at h
  | cons e m ih =>
    obtain ⟨l, u⟩ := e
    simp only [read_cons] at h ⊢
    split
    · subst_vars; simp
    · rename_i hne; simp only [hne, if_false] at h; exact List.mem_cons_of_mem _ (ih h)

/-- In canonical form, arrays that read alike are equal. -/
theorem ext_of_wf {m n : Cells w} (hm : m.wf = true) (hn : n.wf = true)
    (h : ∀ k, Cells.read m k = Cells.read n k) : m = n := by
  have hs : ∀ {a b : Cells w}, a.wf = true → b.wf = true → (∀ k, Cells.read a k = Cells.read b k) →
      ∀ e ∈ a, e ∈ b := by
    intro a b ha _ hab e he
    have h₁ := read_eq_of_mem ha he
    have h₂ := ((wf_iff a).mp ha).2 e he
    have h₃ := mem_of_read (m := b) (k := e.1) (by rw [← hab, h₁]; exact h₂)
    rwa [← hab, h₁] at h₃
  have pm := ((wf_iff m).mp hm).1
  have pn := ((wf_iff n).mp hn).1
  have nd : ∀ {a : Cells w}, a.Pairwise (fun a b => indexLt a.1 b.1 = true) → a.Nodup := fun ha =>
    List.Pairwise.imp (S := fun a b => a ≠ b) (fun hab e => indexLt_ne hab (congrArg Prod.fst e)) ha
  have hp : m.Perm n := (List.perm_ext_iff_of_nodup (nd pm) (nd pn)).mpr fun e =>
    ⟨hs hm hn h e, hs hn hm (fun k => (h k).symm) e⟩
  exact hp.eq_of_pairwise (fun a b _ _ hab hba => absurd (indexLt_trans hab hba) (by simp [indexLt_irrefl])) pm pn

end Cells

end Sys2Proof.Machine
end

