-- ==== Sys2Proof/Laws/Decode.lean ====
section
/-! SUPPORT. The bits of a command word, field by field (R71): what the encoder puts at each of them, and what the fixed
bits of each row leave of them. -/

namespace Sys2Proof

/-- The bits of an encoded command word: OPC, RSV0 = 0, KLEN, RSV1 = 0, COUNT (R71). -/
theorem getLsbD_word (count : Word32) (klen : BitVec 8) (opc : BitVec 4) (j : Nat) :
    BitVec.getLsbD (w := 64) (count ++ 0#16 ++ klen ++ 0#4 ++ opc) j =
      if j < 4 then opc.getLsbD j else if j < 8 then false else if j < 16 then klen.getLsbD (j - 8)
      else if j < 32 then false else count.getLsbD (j - 32) := by
  show BitVec.getLsbD (w := 32 + 16 + 8 + 4 + 4) (count ++ 0#16 ++ klen ++ 0#4 ++ opc) j = _
  simp only [BitVec.getLsbD_append, BitVec.getLsbD_zero, Nat.sub_sub]
  by_cases h₁ : j < 4
  · simp [h₁]
  · by_cases h₂ : j < 8
    · simp [h₁, h₂, show j - 4 < 4 by omega]
    · by_cases h₃ : j < 16
      · simp [h₁, h₂, h₃, show ¬j - 4 < 4 by omega, show j - 8 < 8 by omega]
      · by_cases h₄ : j < 32
        · simp [h₁, h₂, h₃, h₄, show ¬j - 4 < 4 by omega, show ¬j - 8 < 8 by omega, show j - 16 < 16 by omega]
        · simp [h₁, h₂, h₃, h₄, show ¬j - 4 < 4 by omega, show ¬j - 8 < 8 by omega, show ¬j - 16 < 16 by omega]

@[simp] theorem opcOf_word (count : Word32) (klen : BitVec 8) (opc : BitVec 4) :
    opcOf (count ++ 0#16 ++ klen ++ 0#4 ++ opc) = opc := by
  apply BitVec.eq_of_getLsbD_eq; intro j hj
  rw [opcOf, BitVec.getLsbD_extractLsb', getLsbD_word]
  simp [hj]

@[simp] theorem klenOf_word (count : Word32) (klen : BitVec 8) (opc : BitVec 4) :
    klenOf (count ++ 0#16 ++ klen ++ 0#4 ++ opc) = klen := by
  apply BitVec.eq_of_getLsbD_eq; intro j hj
  rw [klenOf, BitVec.getLsbD_extractLsb', getLsbD_word]
  simp [hj, show ¬8 + j < 4 by omega, show 8 + j < 16 by omega]

@[simp] theorem countOf_word (count : Word32) (klen : BitVec 8) (opc : BitVec 4) :
    countOf (count ++ 0#16 ++ klen ++ 0#4 ++ opc) = count := by
  apply BitVec.eq_of_getLsbD_eq; intro j hj
  rw [countOf, BitVec.getLsbD_extractLsb', getLsbD_word]
  simp [hj, show ¬32 + j < 4 by omega, show ¬32 + j < 8 by omega, show ¬32 + j < 16 by omega]

/-- A word is its five fields (R71). -/
theorem word_eq_iff {v w : Word64} :
    v = w ↔ opcOf v = opcOf w ∧ v.extractLsb' 4 4 = w.extractLsb' 4 4 ∧ klenOf v = klenOf w ∧
      v.extractLsb' 16 16 = w.extractLsb' 16 16 ∧ countOf v = countOf w := by
  constructor
  · rintro rfl; exact ⟨rfl, rfl, rfl, rfl, rfl⟩
  · rintro ⟨h₁, h₂, h₃, h₄, h₅⟩
    apply BitVec.eq_of_getLsbD_eq; intro j hj
    have field : ∀ {a n : Nat}, v.extractLsb' a n = w.extractLsb' a n → a ≤ j → j < a + n →
        v.getLsbD j = w.getLsbD j := by
      intro a n h h' h''
      have := congrArg (fun x => x.getLsbD (j - a)) h
      simpa [BitVec.getLsbD_extractLsb', show j - a < n by omega, show a + (j - a) = j by omega] using this
    by_cases c₁ : j < 4
    · exact field h₁ (Nat.zero_le _) (by omega)
    · by_cases c₂ : j < 8
      · exact field h₂ (by omega) (by omega)
      · by_cases c₃ : j < 16
        · exact field h₃ (by omega) (by omega)
        · by_cases c₄ : j < 32
          · exact field h₄ (by omega) (by omega)
          · exact field h₅ (by omega) (by omega)

/-- The fields of a masked word. -/
theorem extract_and (v m : Word64) (a n : Nat) :
    (v &&& m).extractLsb' a n = v.extractLsb' a n &&& m.extractLsb' a n := by
  apply BitVec.eq_of_getLsbD_eq; intro j hj
  simp [hj]

theorem and_ones {n : Nat} (x m : BitVec n) (h : m = BitVec.allOnes n) : x &&& m = x := by
  rw [h, BitVec.and_allOnes]

/-- INSERT's fixed bits, field by field (R73). -/
theorem rowInsert_fits_iff (w : Word64) :
    rowInsert.fits w = true ↔ opcOf w = opcInsert ∧ w.extractLsb' 4 4 = 0#4 ∧ w.extractLsb' 16 16 = 0#16 := by
  simp only [EncodingRow.fits, rowInsert, beq_iff_eq]
  rw [word_eq_iff]
  simp only [opcOf, klenOf, countOf, extract_and]
  rw [and_ones _ _ (by decide : BitVec.extractLsb' 0 4 0x00000000FFFF00FF#64 = _),
    and_ones _ _ (by decide : BitVec.extractLsb' 4 4 0x00000000FFFF00FF#64 = _),
    and_ones _ _ (by decide : BitVec.extractLsb' 16 16 0x00000000FFFF00FF#64 = _)]
  simp

/-- QUERY's fixed bits, field by field (R74). -/
theorem rowQuery_fits_iff (w : Word64) :
    rowQuery.fits w = true ↔
      opcOf w = opcQuery ∧ w.extractLsb' 4 4 = 0#4 ∧ w.extractLsb' 16 16 = 0#16 ∧ countOf w = 0#32 := by
  simp only [EncodingRow.fits, rowQuery, beq_iff_eq]
  rw [word_eq_iff]
  simp only [opcOf, klenOf, countOf, extract_and]
  rw [and_ones _ _ (by decide : BitVec.extractLsb' 0 4 0xFFFFFFFFFFFF00FF#64 = _),
    and_ones _ _ (by decide : BitVec.extractLsb' 4 4 0xFFFFFFFFFFFF00FF#64 = _),
    and_ones _ _ (by decide : BitVec.extractLsb' 16 16 0xFFFFFFFFFFFF00FF#64 = _),
    and_ones _ _ (by decide : BitVec.extractLsb' 32 32 0xFFFFFFFFFFFF00FF#64 = _)]
  simp

/-- CONFIGURE's fixed bits: the whole word (R75). -/
theorem rowConfigure_fits_iff (w : Word64) : rowConfigure.fits w = true ↔ w = 3#64 := by
  simp only [EncodingRow.fits, rowConfigure, beq_iff_eq]
  rw [and_ones _ _ (by decide : 0xFFFFFFFFFFFFFFFF#64 = _)]

end Sys2Proof
end

