-- ==== Sys2Proof/Laws/Ops.lean ====
section
/-! SUPPORT. One lemma for each datapath primitive that says what it does, element by element: the minimum (R104), the
writebacks (R106, R108), the fold (R154), nibble access (R103), the key write and key equality (R110, R111), the scans
(R112, R153) and the heavy add (R161). -/

namespace Sys2Proof.Machine

/-! The minimum (R104). -/

theorem minOf_le {l : List Nat} {a : Nat} (h : a ∈ l) : minOf l ≤ a := by
  induction l with
  | nil => simp at h
  | cons b l ih =>
    cases l with
    | nil => simp at h; simp [minOf, h]
    | cons c l =>
      rcases List.mem_cons.mp h with rfl | h
      · exact min_le_left _ _
      · exact (min_le_right _ _).trans (ih h)

theorem minOf_mem {l : List Nat} (h : l ≠ []) : minOf l ∈ l := by
  induction l with
  | nil => exact absurd rfl h
  | cons b l ih =>
    cases l with
    | nil => simp [minOf]
    | cons c l =>
      simp only [minOf]
      rcases min_choice b (minOf (c :: l)) with h' | h' <;> rw [h']
      · simp
      · exact List.mem_cons_of_mem _ (ih (by simp))

theorem le_minOf {l : List Nat} {n : Nat} (h : l ≠ []) (hn : ∀ a ∈ l, n ≤ a) : n ≤ minOf l := hn _ (minOf_mem h)

/-- The minimum of a nonempty list is the value that is listed and that none lies below. -/
theorem minOf_eq_iff {l : List Nat} (h : l ≠ []) (n : Nat) : minOf l = n ↔ n ∈ l ∧ ∀ a ∈ l, n ≤ a := by
  constructor
  · rintro rfl; exact ⟨minOf_mem h, fun a ha => minOf_le ha⟩
  · rintro ⟨h₁, h₂⟩; exact le_antisymm (minOf_le h₁) (le_minOf h h₂)

theorem minOf_mono {α : Type} (l : List α) {f g : α → Nat} (h : ∀ a ∈ l, f a ≤ g a) :
    minOf (l.map f) ≤ minOf (l.map g) := by
  cases l with
  | nil => exact le_rfl
  | cons a l =>
    refine le_minOf (by simp) fun b hb => ?_
    obtain ⟨c, hc, rfl⟩ := List.mem_map.mp hb
    exact (minOf_le (List.mem_map_of_mem (f := f) hc)).trans (h c hc)

/-- Raising every value to `n`, not below the minimum, makes `n` the minimum (R106). -/
theorem minOf_raise {α : Type} (l : List α) (hl : l ≠ []) (f : α → Nat) {n : Nat} (hn : minOf (l.map f) ≤ n) :
    minOf (l.map fun a => max (f a) n) = n := by
  refine (minOf_eq_iff (by simpa using hl) n).mpr ⟨?_, ?_⟩
  · obtain ⟨a, ha, h⟩ := List.mem_map.mp (minOf_mem (l := l.map f) (by simpa using hl))
    exact List.mem_map.mpr ⟨a, ha, by rw [h]; exact max_eq_right hn⟩
  · intro b hb
    obtain ⟨a, -, rfl⟩ := List.mem_map.mp hb
    exact le_max_right _ _

theorem minOf_const {α : Type} (l : List α) (hl : l ≠ []) (n : Nat) : minOf (l.map fun _ => n) = n := by
  refine (minOf_eq_iff (by simpa using hl) n).mpr ⟨?_, ?_⟩
  · obtain ⟨a, ha⟩ := List.exists_mem_of_ne_nil l hl
    exact List.mem_map.mpr ⟨a, ha, rfl⟩
  · intro b hb; obtain ⟨a, -, rfl⟩ := List.mem_map.mp hb; exact le_rfl

/-! Writebacks over the probes of one array. -/

namespace Cells
variable {w : Nat}

/-- One update `f` of each of the elements `ks`, which are distinct. -/
theorem read_updateEach (f : BitVec w → BitVec w) {ks : List Index} (hd : ks.Nodup) (m : Cells w) (k : Index) :
    Cells.read (ks.foldl (fun m k => Cells.write m k (f (Cells.read m k))) m) k =
      if k ∈ ks then f (Cells.read m k) else Cells.read m k := by
  induction ks generalizing m with
  | nil => simp
  | cons a ks ih =>
    rw [List.nodup_cons] at hd
    simp only [List.foldl_cons, ih hd.2, read_write, List.mem_cons]
    by_cases h : k = a
    · subst h; simp [hd.1]
    · simp [h]

theorem read_raiseTo {ks : List Index} (hd : ks.Nodup) (cand : Nat) (m : Cells w) (k : Index) :
    Cells.read (Cells.raiseTo ks cand m) k =
      if k ∈ ks then BitVec.ofNat w (max (Cells.read m k).toNat cand) else Cells.read m k :=
  read_updateEach (fun v => BitVec.ofNat w (max v.toNat cand)) hd m k

theorem read_fillWith {ks : List Index} (hd : ks.Nodup) (sat : Nat) (m : Cells w) (k : Index) :
    Cells.read (Cells.fillWith ks sat m) k = if k ∈ ks then BitVec.ofNat w sat else Cells.read m k :=
  read_updateEach (fun _ => BitVec.ofNat w sat) hd m k

theorem read_foldIn {ks : List Index} (hd : ks.Nodup) (v : Nat) (m : Cells w) (k : Index) :
    Cells.read (Cells.foldIn ks v m) k =
      if k ∈ ks then BitVec.ofNat w (satAdd w (Cells.read m k).toNat v) else Cells.read m k :=
  read_updateEach (fun u => BitVec.ofNat w (satAdd w u.toNat v)) hd m k

/-- The conservative-update writeback (R106): a probed counter is the larger of its value and the candidate. -/
theorem toNat_raiseTo {ks : List Index} (hd : ks.Nodup) {cand : Nat} (hc : cand < 2 ^ w) (m : Cells w) (k : Index) :
    (Cells.read (Cells.raiseTo ks cand m) k).toNat =
      if k ∈ ks then max (Cells.read m k).toNat cand else (Cells.read m k).toNat := by
  rw [read_raiseTo hd]
  split
  · rw [BitVec.toNat_ofNat, Nat.mod_eq_of_lt (max_lt (Cells.read m k).isLt hc)]
  · rfl

/-- The saturate-all writeback (R108). -/
theorem toNat_fillWith {ks : List Index} (hd : ks.Nodup) {sat : Nat} (hc : sat < 2 ^ w) (m : Cells w) (k : Index) :
    (Cells.read (Cells.fillWith ks sat m) k).toNat = if k ∈ ks then sat else (Cells.read m k).toNat := by
  rw [read_fillWith hd]
  split
  · rw [BitVec.toNat_ofNat, Nat.mod_eq_of_lt hc]
  · rfl

theorem satAdd_lt (n a b : Nat) : satAdd n a b < 2 ^ n :=
  lt_of_le_of_lt (min_le_right _ _) (Nat.sub_lt (Nat.two_pow_pos n) one_pos)

/-- The fold of an evicted value (R154). -/
theorem toNat_foldIn {ks : List Index} (hd : ks.Nodup) (v : Nat) (m : Cells w) (k : Index) :
    (Cells.read (Cells.foldIn ks v m) k).toNat =
      if k ∈ ks then satAdd w (Cells.read m k).toNat v else (Cells.read m k).toNat := by
  rw [read_foldIn hd]
  split
  · rw [BitVec.toNat_ofNat, Nat.mod_eq_of_lt (satAdd_lt _ _ _)]
  · rfl

theorem wf_raiseTo (ks : List Index) (cand : Nat) {m : Cells w} (h : m.wf = true) :
    (Cells.raiseTo ks cand m).wf = true :=
  wf_foldl ks (fun k => k) (fun m k => BitVec.ofNat w (max (Cells.read m k).toNat cand)) h

theorem wf_fillWith (ks : List Index) (sat : Nat) {m : Cells w} (h : m.wf = true) :
    (Cells.fillWith ks sat m).wf = true :=
  wf_foldl ks (fun k => k) (fun _ _ => BitVec.ofNat w sat) h

theorem wf_foldIn (ks : List Index) (v : Nat) {m : Cells w} (h : m.wf = true) :
    (Cells.foldIn ks v m).wf = true :=
  wf_foldl ks (fun k => k) (fun m k => BitVec.ofNat w (satAdd w (Cells.read m k).toNat v)) h

/-- What a list of writes lists: elements named by it, and what was listed before. -/
theorem mem_foldl {α : Type} (l : List α) (k : α → Index) (v : Cells w → α → BitVec w) (m : Cells w)
    {e : Index × BitVec w} (h : e ∈ l.foldl (fun m a => Cells.write m (k a) (v m a)) m) :
    (∃ a ∈ l, e.1 = k a) ∨ e ∈ m := by
  induction l generalizing m with
  | nil => exact .inr h
  | cons a l ih =>
    rcases ih _ h with ⟨b, hb, h'⟩ | h'
    · exact .inl ⟨b, List.mem_cons_of_mem _ hb, h'⟩
    · rcases mem_write h' with h' | h'
      · exact .inl ⟨a, List.mem_cons_self, by rw [h']⟩
      · exact .inr h'

end Cells

/-! The probes of one tier are distinct elements (R54). -/

theorem Lookup.mem_lightProbes {u : Lookup} {p : Nat × Nat} : p ∈ u.lightProbes ↔ p.1 < u.l ∧ p.2 = u.nl p.1 := by
  obtain ⟨l, n⟩ := p
  simp only [Lookup.lightProbes, List.mem_map, List.mem_range, Prod.mk.injEq]
  constructor
  · rintro ⟨a, ha, rfl, rfl⟩; exact ⟨ha, rfl⟩
  · rintro ⟨ha, rfl⟩; exact ⟨l, ha, rfl, rfl⟩

theorem Lookup.mem_c8Probes {u : Lookup} {k : Index} : k ∈ u.c8Probes ↔ ∃ j < u.m, k = [j, u.bi j, u.s8 j] := by
  simp only [Lookup.c8Probes, List.mem_map, List.mem_range, eq_comm]

theorem Lookup.mem_c16Probes {u : Lookup} {k : Index} : k ∈ u.c16Probes ↔ ∃ j < u.m, k = [j, u.bi j, u.s16 j] := by
  simp only [Lookup.c16Probes, List.mem_map, List.mem_range, eq_comm]

theorem Lookup.nodup_lightProbes (u : Lookup) : u.lightProbes.Nodup :=
  List.Nodup.map (fun _ _ h => (Prod.mk.inj h).1) List.nodup_range

theorem Lookup.nodup_c8Probes (u : Lookup) : u.c8Probes.Nodup :=
  List.Nodup.map (fun _ _ h => (List.cons.inj h).1) List.nodup_range

theorem Lookup.nodup_c16Probes (u : Lookup) : u.c16Probes.Nodup :=
  List.Nodup.map (fun _ _ h => (List.cons.inj h).1) List.nodup_range

theorem Lookup.bucket_inj {u u' : Lookup} {j j' : Nat} (h : u.bucket j = u'.bucket j') : j = j' := by
  simp [Lookup.bucket] at h; exact h.1

theorem Lookup.bucket_inj_iff {u : Lookup} {j j' : Nat} : u.bucket j = u.bucket j' ↔ j = j' :=
  ⟨Lookup.bucket_inj, fun h => by rw [h]⟩

/-! Nibbles (R53, R55, R103). -/

theorem nib_lt (t : Storage) (p : Nat × Nat) : t.nib p < 16 := by
  simp only [Storage.nib, BitVec.toNat_and]
  exact lt_of_le_of_lt Nat.and_le_right (by decide)

theorem nibble_write_read (b : BitVec 8) (v : Nat) (hv : v < 16) (i j : Nat) (hi : i < 2) (hj : j < 2) :
    ((((b &&& ~~~(0xF#8 <<< (4 * i))) ||| (BitVec.ofNat 8 v <<< (4 * i))) >>> (4 * j)) &&& 0xF#8).toNat =
      if j = i then v else ((b >>> (4 * j)) &&& 0xF#8).toNat := by
  have h : ∀ (b : BitVec 8) (v : Fin 16) (i j : Fin 2),
      ((((b &&& ~~~(0xF#8 <<< (4 * i.val))) ||| (BitVec.ofNat 8 v.val <<< (4 * i.val))) >>> (4 * j.val)) &&& 0xF#8).toNat =
      if j.val = i.val then v.val else ((b >>> (4 * j.val)) &&& 0xF#8).toNat := by
    intro b v i j
    obtain ⟨x⟩ := b
    revert x v i j
    decide +kernel
  exact h b ⟨v, hv⟩ ⟨i, hi⟩ ⟨j, hj⟩

/-- A nibble write changes the nibble named and no other, not even the other one of its byte (R55, R103). -/
theorem nib_setNib (t : Storage) (p q : Nat × Nat) {v : Nat} (hv : v < 16) :
    (t.setNib p v).nib q = if q = p then v else t.nib q := by
  obtain ⟨l, n⟩ := p
  obtain ⟨l', n'⟩ := q
  simp only [Storage.nib, Storage.setNib, Cells.read_write, List.cons.injEq, and_true, Prod.mk.injEq]
  by_cases h : l' = l ∧ n' / 2 = n / 2
  · obtain ⟨rfl, h⟩ := h
    simp only [h, and_self, if_true, true_and]
    rw [nibble_write_read _ v hv _ _ (Nat.mod_lt _ two_pos) (Nat.mod_lt _ two_pos)]
    have : n' % 2 = n % 2 ↔ n' = n := by omega
    simp only [this]
  · rw [if_neg h]
    have : ¬(l' = l ∧ n' = n) := fun h' => h ⟨h'.1, by rw [h'.2]⟩
    rw [if_neg this]

/-- One update of each of the light probes, which are distinct nibbles. -/
theorem nib_updateEach (f : Nat → Nat) (hf : ∀ a < 16, f a < 16) {ps : List (Nat × Nat)} (hd : ps.Nodup) (t : Storage)
    (q : Nat × Nat) :
    (ps.foldl (fun t p => t.setNib p (f (t.nib p))) t).nib q = if q ∈ ps then f (t.nib q) else t.nib q := by
  induction ps generalizing t with
  | nil => simp
  | cons a ps ih =>
    rw [List.nodup_cons] at hd
    simp only [List.foldl_cons, ih hd.2, nib_setNib _ _ _ (hf _ (nib_lt t a)), List.mem_cons]
    by_cases h : q = a
    · subst h; simp [hd.1]
    · simp [h]

/-- The conservative-update writeback of the light tier (R106). -/
theorem nib_lightRaise (t : Storage) (u : Lookup) {cand : Nat} (hc : cand < 16) (q : Nat × Nat) :
    (t.lightRaise u cand).nib q = if q ∈ u.lightProbes then max (t.nib q) cand else t.nib q :=
  nib_updateEach (fun a => max a cand) (fun _ ha => max_lt ha hc) u.nodup_lightProbes t q

/-- The saturate-all writeback of the light tier (R108). -/
theorem nib_lightFill (t : Storage) (u : Lookup) (q : Nat × Nat) :
    (t.lightFill u).nib q = if q ∈ u.lightProbes then 15 else t.nib q :=
  nib_updateEach (fun _ => 15) (fun _ _ => by decide) u.nodup_lightProbes t q

/-- A light writeback is a write of the light array only. -/
theorem foldl_setNib_eq (g : Storage → Nat × Nat → Nat) (ps : List (Nat × Nat)) (t : Storage) :
    ps.foldl (fun t p => t.setNib p (g t p)) t =
      { t with light := (ps.foldl (fun t p => t.setNib p (g t p)) t).light } := by
  induction ps generalizing t with
  | nil => rfl
  | cons a ps ih => rw [List.foldl_cons, ih]; rfl

theorem lightRaise_eq (t : Storage) (u : Lookup) (cand : Nat) :
    t.lightRaise u cand = { t with light := (t.lightRaise u cand).light } := foldl_setNib_eq _ _ _

theorem lightFill_eq (t : Storage) (u : Lookup) : t.lightFill u = { t with light := (t.lightFill u).light } :=
  foldl_setNib_eq _ _ _

theorem wf_setNib {t : Storage} (p : Nat × Nat) (v : Nat) (h : t.light.wf = true) :
    (t.setNib p v).light.wf = true := Cells.wf_write _ _ h

theorem wf_foldl_setNib (g : Storage → Nat × Nat → Nat) (ps : List (Nat × Nat)) {t : Storage}
    (h : t.light.wf = true) : (ps.foldl (fun t p => t.setNib p (g t p)) t).light.wf = true := by
  induction ps generalizing t with
  | nil => exact h
  | cons a ps ih => exact ih (wf_setNib a _ h)

/-! The key-value slots (R110, R111, R112). -/

/-- What the key write leaves in every key byte (R111). -/
theorem read_keyWrite_keyb (t : Storage) (u : Lookup) (n : Nat) (key : List Byte) (j : Nat) (k : Index) :
    Cells.read (t.keyWrite u n key j).keyb k =
      if ∃ i < n, k = u.bucket j ++ [i] then (if k.getLastD 0 < key.length then key.getD (k.getLastD 0) 0 else 0)
      else Cells.read t.keyb k := by
  simp only [Storage.keyWrite]
  induction n with
  | zero => simp
  | succ n ih =>
    rw [List.range_succ, List.foldl_append, List.foldl_cons, List.foldl_nil, Cells.read_write, ih]
    by_cases h : k = u.bucket j ++ [n]
    · subst h
      have : ∃ i < n + 1, u.bucket j ++ [n] = u.bucket j ++ [i] := ⟨n, Nat.lt_succ_self n, rfl⟩
      rw [if_pos rfl, if_pos this]
      simp [Lookup.bucket]
    · rw [if_neg h]
      have : (∃ i < n + 1, k = u.bucket j ++ [i]) ↔ ∃ i < n, k = u.bucket j ++ [i] := by
        constructor
        · rintro ⟨i, hi, rfl⟩
          exact ⟨i, lt_of_le_of_ne (Nat.lt_succ_iff.mp hi) (fun e => h (by rw [e])), rfl⟩
        · rintro ⟨i, hi, rfl⟩; exact ⟨i, Nat.lt_succ_of_lt hi, rfl⟩
      simp only [this]

/-- A key byte of a candidate bucket after the key write into layer `j` (R111). -/
theorem keyWrite_keyb_bucket (t : Storage) (u : Lookup) {n : Nat} (key : List Byte) (j : Nat) (u' : Lookup) (j' i : Nat) :
    Cells.read (t.keyWrite u n key j).keyb (u'.bucket j' ++ [i]) =
      if u'.bucket j' = u.bucket j ∧ i < n then (if i < key.length then key.getD i 0 else 0)
      else Cells.read t.keyb (u'.bucket j' ++ [i]) := by
  rw [read_keyWrite_keyb]
  have h : (∃ i' < n, u'.bucket j' ++ [i] = u.bucket j ++ [i']) ↔ u'.bucket j' = u.bucket j ∧ i < n := by
    simp only [Lookup.bucket, List.cons_append, List.nil_append, List.cons.injEq, and_true]
    constructor
    · rintro ⟨i', hi, h₁, h₂, rfl⟩; exact ⟨⟨h₁, h₂⟩, hi⟩
    · rintro ⟨⟨h₁, h₂⟩, hi⟩; exact ⟨i, hi, h₁, h₂, rfl⟩
  simp only [h]
  simp [Lookup.bucket]

@[simp] theorem keyWrite_light (t : Storage) (u : Lookup) (n : Nat) (key : List Byte) (j : Nat) :
    (t.keyWrite u n key j).light = t.light := rfl
@[simp] theorem keyWrite_c8 (t : Storage) (u : Lookup) (n : Nat) (key : List Byte) (j : Nat) :
    (t.keyWrite u n key j).c8 = t.c8 := rfl
@[simp] theorem keyWrite_c16 (t : Storage) (u : Lookup) (n : Nat) (key : List Byte) (j : Nat) :
    (t.keyWrite u n key j).c16 = t.c16 := rfl
@[simp] theorem keyWrite_val (t : Storage) (u : Lookup) (n : Nat) (key : List Byte) (j : Nat) :
    (t.keyWrite u n key j).val = t.val := rfl
@[simp] theorem keyWrite_heavy (t : Storage) (u : Lookup) (n : Nat) (key : List Byte) (j : Nat) :
    (t.keyWrite u n key j).heavy = t.heavy := rfl
@[simp] theorem keyWrite_occ (t : Storage) (u : Lookup) (n : Nat) (key : List Byte) (j : Nat) :
    (t.keyWrite u n key j).occ = t.occ.write (u.bucket j) 1#1 := rfl
@[simp] theorem keyWrite_kls (t : Storage) (u : Lookup) (n : Nat) (key : List Byte) (j : Nat) :
    (t.keyWrite u n key j).kls = t.kls.write (u.bucket j) (BitVec.ofNat 8 key.length) := rfl

/-- Key equality, spelt out (R110). -/
theorem keyEq_iff (t : Storage) (u : Lookup) (key : List Byte) (j : Nat) :
    t.keyEq u key j = true ↔
      Cells.read t.occ (u.bucket j) = 1#1 ∧ (Cells.read t.kls (u.bucket j)).toNat = key.length ∧
        ∀ i < key.length, Cells.read t.keyb (u.bucket j ++ [i]) = key.getD i 0 := by
  simp [Storage.keyEq, and_assoc]

/-- Key equality depends on the key fields only. -/
theorem keyEq_congr {t t' : Storage} (u : Lookup) (key : List Byte) (j : Nat)
    (ho : Cells.read t'.occ (u.bucket j) = Cells.read t.occ (u.bucket j))
    (hk : Cells.read t'.kls (u.bucket j) = Cells.read t.kls (u.bucket j))
    (hb : ∀ i, Cells.read t'.keyb (u.bucket j ++ [i]) = Cells.read t.keyb (u.bucket j ++ [i])) :
    t'.keyEq u key j = t.keyEq u key j := by
  simp only [Storage.keyEq, ho, hk, hb]

/-- After the key write into layer `j`, that layer's bucket holds exactly the key written (R110, R111). -/
theorem keyEq_keyWrite_same {n : Nat} (t : Storage) (u u' : Lookup) (key key' : List Byte) (j : Nat)
    (hb : u'.bucket j = u.bucket j) (hk : key.length ≤ n) (hn : n ≤ 255) :
    (t.keyWrite u n key j).keyEq u' key' j = decide (key' = key) := by
  rw [Bool.eq_iff_iff, keyEq_iff, decide_eq_true_eq]
  simp only [keyWrite_occ, keyWrite_kls, Cells.read_write, hb, if_true, true_and]
  rw [BitVec.toNat_ofNat, Nat.mod_eq_of_lt (by omega)]
  have hkb := fun i => keyWrite_keyb_bucket t u (n := n) key j u j i
  constructor
  · rintro ⟨hl, he⟩
    refine List.ext_getElem hl.symm fun i h₁ h₂ => ?_
    have := he i h₁
    rw [hkb, if_pos ⟨rfl, by omega⟩, if_pos h₂] at this
    simpa [List.getD_eq_getElem, h₁, h₂] using this.symm
  · rintro rfl
    refine ⟨rfl, fun i hi => ?_⟩
    rw [hkb, if_pos ⟨rfl, by omega⟩, if_pos hi]

/-- The key write into one bucket leaves key equality at every other bucket as it was (R111). -/
theorem keyEq_keyWrite_other {n : Nat} (t : Storage) (u u' : Lookup) (key key' : List Byte) (j j' : Nat)
    (hb : u'.bucket j' ≠ u.bucket j) : (t.keyWrite u n key j).keyEq u' key' j' = t.keyEq u' key' j' := by
  refine keyEq_congr u' key' j' ?_ ?_ ?_
  · simp [Cells.read_write, hb]
  · simp [Cells.read_write, hb]
  · intro i; rw [keyWrite_keyb_bucket, if_neg (fun h => hb h.1)]

/-- A scan in ascending layer order answers the least layer that satisfies it (R112, R153). -/
theorem find_range_some {n : Nat} {p : Nat → Bool} {j : Nat} :
    (List.range n).find? p = some j ↔ j < n ∧ p j = true ∧ ∀ i < j, p i = false := by
  constructor
  · intro h
    have h₁ := List.mem_of_find?_eq_some h
    refine ⟨List.mem_range.mp h₁, List.find?_some h, fun i hi => ?_⟩
    obtain ⟨as, bs, heq, has⟩ := (List.find?_eq_some_iff_append.mp h).2
    have hlen : as.length = j := by
      have h₃ : (List.range n)[as.length]? = some j := by rw [heq]; simp
      have h₄ := List.getElem?_eq_some_iff.mp h₃
      obtain ⟨h₅, h₆⟩ := h₄
      simpa using h₆
    have hmem : i ∈ as := by
      have h₃ : (List.range n)[i]? = as[i]? := by
        rw [heq, List.getElem?_append_left (by omega)]
      have h₄ : (List.range n)[i]? = some i := by
        rw [List.getElem?_range]; exact lt_trans hi (List.mem_range.mp h₁)
      rw [h₄] at h₃
      exact List.mem_of_getElem? h₃.symm
    simpa using has i hmem
  · rintro ⟨h₁, h₂, h₃⟩
    rw [List.find?_eq_some_iff_append]
    refine ⟨h₂, List.range j, (List.range (n - j - 1)).map (j + 1 + ·), ?_, fun a ha => by
      simpa using h₃ a (List.mem_range.mp ha)⟩
    have : n = j + (1 + (n - j - 1)) := by omega
    conv_lhs => rw [this, List.range_add, List.range_add]
    simp [Nat.add_assoc]

theorem find_range_none {n : Nat} {p : Nat → Bool} :
    (List.range n).find? p = none ↔ ∀ j < n, p j = false := by
  simp [List.find?_eq_none]

/-- A 1-bit element that is not 0 is 1. -/
theorem bit_cases (b : BitVec 1) : b = 0#1 ∨ b = 1#1 := by
  obtain ⟨x⟩ := b; revert x; decide

/-- kv_min exists where there is a layer (R153). -/
theorem kvMin_isSome (t : Storage) {u : Lookup} (h : 0 < u.m) : ∃ k, t.kvMin u = some k := by
  cases hk : t.kvMin u with
  | some k => exact ⟨k, rfl⟩
  | none =>
    rw [Storage.kvMin, find_range_none] at hk
    have := minOf_mem (l := (List.range u.m).map (t.valAt u)) (by simp; omega)
    obtain ⟨j, hj, he⟩ := List.mem_map.mp this
    have := hk j (List.mem_range.mp hj)
    simp [Storage.valMin, he] at this

/-- kv_min is the lowest of the layers with the least VAL (R153). -/
theorem kvMin_eq_some {t : Storage} {u : Lookup} {k : Nat} :
    t.kvMin u = some k ↔ k < u.m ∧ t.valAt u k = t.valMin u ∧ ∀ i < k, t.valAt u i ≠ t.valMin u := by
  rw [Storage.kvMin, find_range_some]; simp

/-! The heavy array (R161). -/

theorem heavyAt_heavyAdd (t : Storage) (u : Lookup) (x : Nat) :
    (t.heavyAdd u x).heavyAt u = satAdd 32 (t.heavyAt u) x := by
  simp only [Storage.heavyAdd, Storage.heavyAt, Cells.read_write_same]
  rw [BitVec.toNat_ofNat, Nat.mod_eq_of_lt (Cells.satAdd_lt 32 _ _)]

theorem heavyAt_lt (t : Storage) (u : Lookup) : t.heavyAt u < 2 ^ 32 := BitVec.isLt _

theorem valAt_lt (t : Storage) (u : Lookup) (j : Nat) : t.valAt u j < 65536 := BitVec.isLt _

theorem valAt_setVal (t : Storage) (u : Lookup) (j j' : Nat) {v : Nat} (hv : v < 65536) :
    (t.setVal u j v).valAt u j' = if j' = j then v else t.valAt u j' := by
  simp only [Storage.setVal, Storage.valAt, Cells.read_write, Lookup.bucket_inj_iff]
  split
  · rw [BitVec.toNat_ofNat, Nat.mod_eq_of_lt hv]
  · rfl

end Sys2Proof.Machine
end

