-- ==== Sys2Proof/Laws/State.lean ====
section
/-! SUPPORT. The small lemmas of the state's updates: what each one leaves of each part of the state, by rfl, and the hash
latch (R101). -/

namespace Sys2Proof.Machine

@[simp] theorem lock_inst (s : State) : s.lock.inst = s.inst := rfl
@[simp] theorem lock_store (s : State) : s.lock.store = s.store := rfl
@[simp] theorem lock_seq (s : State) : s.lock.seq = s.seq := rfl
@[simp] theorem lock_tmp (s : State) : s.lock.tmp = s.tmp := rfl
@[simp] theorem lock_port (s : State) : s.lock.port = s.port := rfl
@[simp] theorem lock_free (s : State) : s.lock.free = s.free := rfl

@[simp] theorem respond_inst (s : State) (st : Status) (est : Nat) : (s.respond st est).inst = s.inst := rfl
@[simp] theorem respond_csr (s : State) (st : Status) (est : Nat) : (s.respond st est).csr = s.csr := rfl
@[simp] theorem respond_store (s : State) (st : Status) (est : Nat) : (s.respond st est).store = s.store := rfl
@[simp] theorem respond_tmp (s : State) (st : Status) (est : Nat) : (s.respond st est).tmp = s.tmp := rfl
@[simp] theorem respond_port (s : State) (st : Status) (est : Nat) : (s.respond st est).port = s.port := rfl
@[simp] theorem respond_free (s : State) (st : Status) (est : Nat) : (s.respond st est).free = s.free := rfl

@[simp] theorem refuse_inst (s : State) (st : Status) : (s.refuse st).inst = s.inst := rfl
@[simp] theorem refuse_csr (s : State) (st : Status) : (s.refuse st).csr = s.csr := rfl
@[simp] theorem refuse_store (s : State) (st : Status) : (s.refuse st).store = s.store := rfl
@[simp] theorem refuse_tmp (s : State) (st : Status) : (s.refuse st).tmp = s.tmp := rfl
@[simp] theorem refuse_port (s : State) (st : Status) : (s.refuse st).port = s.port := rfl
@[simp] theorem refuse_free (s : State) (st : Status) : (s.refuse st).free = s.free := rfl

@[simp] theorem latchCommand_inst (s : State) (w : Word64) (p : List Byte) : (s.latchCommand w p).inst = s.inst := rfl
@[simp] theorem latchCommand_csr (s : State) (w : Word64) (p : List Byte) : (s.latchCommand w p).csr = s.csr := rfl
@[simp] theorem latchCommand_store (s : State) (w : Word64) (p : List Byte) : (s.latchCommand w p).store = s.store := rfl
@[simp] theorem latchCommand_tmp (s : State) (w : Word64) (p : List Byte) : (s.latchCommand w p).tmp = s.tmp := rfl
@[simp] theorem latchCommand_port (s : State) (w : Word64) (p : List Byte) : (s.latchCommand w p).port = s.port := rfl
@[simp] theorem latchCommand_free (s : State) (w : Word64) (p : List Byte) : (s.latchCommand w p).free = s.free := rfl

@[simp] theorem configureStorage_inst (s : State) : s.configureStorage.inst = s.inst := rfl
@[simp] theorem configureStorage_tmp (s : State) : s.configureStorage.tmp = s.tmp := rfl
@[simp] theorem configureStorage_port (s : State) : s.configureStorage.port = s.port := rfl
@[simp] theorem configureStorage_free (s : State) : s.configureStorage.free = s.free := rfl

@[simp] theorem deliver_inst (s : State) : s.deliver.inst = s.inst := rfl
@[simp] theorem deliver_store (s : State) : s.deliver.store = s.store := rfl
@[simp] theorem deliver_tmp (s : State) : s.deliver.tmp = s.tmp := rfl
@[simp] theorem deliver_port (s : State) : s.deliver.port = s.port := rfl
@[simp] theorem deliver_free (s : State) : s.deliver.free = s.free := rfl

@[simp] theorem goto_inst (s : State) (f : Fsm) : (s.goto f).inst = s.inst := rfl
@[simp] theorem goto_csr (s : State) (f : Fsm) : (s.goto f).csr = s.csr := rfl
@[simp] theorem goto_store (s : State) (f : Fsm) : (s.goto f).store = s.store := rfl
@[simp] theorem goto_tmp (s : State) (f : Fsm) : (s.goto f).tmp = s.tmp := rfl
@[simp] theorem goto_port (s : State) (f : Fsm) : (s.goto f).port = s.port := rfl
@[simp] theorem goto_free (s : State) (f : Fsm) : (s.goto f).free = s.free := rfl

@[simp] theorem dropEdge_inst (s : State) : s.dropEdge.inst = s.inst := rfl
@[simp] theorem dropEdge_csr (s : State) : s.dropEdge.csr = s.csr := rfl
@[simp] theorem dropEdge_store (s : State) : s.dropEdge.store = s.store := rfl
@[simp] theorem dropEdge_seq (s : State) : s.dropEdge.seq = s.seq := rfl
@[simp] theorem dropEdge_tmp (s : State) : s.dropEdge.tmp = s.tmp := rfl
@[simp] theorem dropEdge_free (s : State) : s.dropEdge.free = s.free := rfl

@[simp] theorem withoutDead_inst (s : State) : s.withoutDead.inst = s.inst := rfl
@[simp] theorem withoutDead_csr (s : State) : s.withoutDead.csr = s.csr := rfl
@[simp] theorem withoutDead_store (s : State) : s.withoutDead.store = s.store := rfl
@[simp] theorem withoutDead_port (s : State) : s.withoutDead.port = s.port := rfl
@[simp] theorem withoutDead_free (s : State) : s.withoutDead.free = s.free := rfl

@[simp] theorem respond_fsm (s : State) (st : Status) (est : Nat) : (s.respond st est).seq.fsm = .resp := rfl
@[simp] theorem respond_rspStatus (s : State) (st : Status) (est : Nat) : (s.respond st est).seq.rspStatus = st.code := rfl
@[simp] theorem respond_rspEst (s : State) (st : Status) (est : Nat) :
    (s.respond st est).seq.rspEst = BitVec.ofNat 64 est := rfl
@[simp] theorem respond_cfgd (s : State) (st : Status) (est : Nat) : (s.respond st est).seq.cfgd = s.seq.cfgd := rfl
@[simp] theorem respond_cmd (s : State) (st : Status) (est : Nat) : (s.respond st est).seq.cmd = s.seq.cmd := rfl
@[simp] theorem respond_key (s : State) (st : Status) (est : Nat) : (s.respond st est).seq.key = s.seq.key := rfl
@[simp] theorem respond_hv (s : State) (st : Status) (est : Nat) : (s.respond st est).seq.hv = s.seq.hv := rfl
@[simp] theorem refuse_fsm (s : State) (st : Status) : (s.refuse st).seq.fsm = .resp := rfl
@[simp] theorem refuse_rspStatus (s : State) (st : Status) : (s.refuse st).seq.rspStatus = st.code := rfl
@[simp] theorem refuse_rspEst (s : State) (st : Status) : (s.refuse st).seq.rspEst = 0#64 := rfl
@[simp] theorem refuse_cfgd (s : State) (st : Status) : (s.refuse st).seq.cfgd = s.seq.cfgd := rfl
@[simp] theorem lock_cfgLock (s : State) : s.lock.csr.cfgLock = true := rfl
@[simp] theorem lock_configured (s : State) : s.lock.csr.configured = s.csr.configured := rfl
@[simp] theorem lock_lastStatus (s : State) : s.lock.csr.lastStatus = s.csr.lastStatus := rfl
@[simp] theorem lock_cfgValid (s : State) : s.lock.cfgValid = s.cfgValid := rfl
@[simp] theorem deliver_lastStatus (s : State) : s.deliver.csr.lastStatus = s.seq.rspStatus := rfl
@[simp] theorem deliver_cfgLock (s : State) : s.deliver.csr.cfgLock = s.csr.configured := rfl
@[simp] theorem deliver_configured (s : State) : s.deliver.csr.configured = s.csr.configured := rfl
@[simp] theorem goto_fsm (s : State) (f : Fsm) : (s.goto f).seq.fsm = f := rfl

/-! The hash latch (R101). -/

@[simp] theorem latchHashes_inst (key : List Byte) (n : Nat) (s : State) : (latchHashes key n s).inst = s.inst := by
  induction n with
  | zero => rfl
  | succ n ih => exact ih
@[simp] theorem latchHashes_csr (key : List Byte) (n : Nat) (s : State) : (latchHashes key n s).csr = s.csr := by
  induction n with
  | zero => rfl
  | succ n ih => exact ih
@[simp] theorem latchHashes_store (key : List Byte) (n : Nat) (s : State) : (latchHashes key n s).store = s.store := by
  induction n with
  | zero => rfl
  | succ n ih => exact ih
@[simp] theorem latchHashes_tmp (key : List Byte) (n : Nat) (s : State) : (latchHashes key n s).tmp = s.tmp := by
  induction n with
  | zero => rfl
  | succ n ih => exact ih
@[simp] theorem latchHashes_free (key : List Byte) (n : Nat) (s : State) : (latchHashes key n s).free = s.free := by
  induction n with
  | zero => rfl
  | succ n ih => exact ih

theorem latchHashes_seq (key : List Byte) (n : Nat) (s : State) :
    (latchHashes key n s).seq = { s.seq with hv := (latchHashes key n s).seq.hv } := by
  induction n with
  | zero => rfl
  | succ n ih => rw [latchHashes, latchHash, ih]

theorem latchHashes_port (key : List Byte) (n : Nat) (s : State) :
    (latchHashes key n s).port = { s.port with draws := s.port.draws.drop n } := by
  induction n with
  | zero => rfl
  | succ n ih => rw [latchHashes, latchHash]; simp only [ih, List.tail_drop]

/-- The hash latch says once what it does: HV[i] is the provider's answer for seed `i`, each seed below `n` (R101). -/
theorem read_latchHashes (key : List Byte) (n : Nat) (s : State) (k : Index) :
    Cells.read (latchHashes key n s).seq.hv k =
      if ∃ i < n, k = [i] then s.hashOf key (k.headD 0) else Cells.read s.seq.hv k := by
  induction n with
  | zero => simp [latchHashes]
  | succ n ih =>
    rw [latchHashes, latchHash]
    simp only [Cells.read_write, ih, latchHashes_port]
    by_cases h : k = [n]
    · subst h
      have : ∃ i < n + 1, [n] = [i] := ⟨n, Nat.lt_succ_self n, rfl⟩
      rw [if_pos rfl, if_pos this]
      simp only [hashAnswer, State.hashOf, List.headD_cons]
      cases hd : s.port.draws[n]? with
      | none =>
        rw [List.getElem?_eq_none_iff] at hd
        rw [List.drop_eq_nil_of_le hd]
      | some d =>
        obtain ⟨hlt, hd⟩ := List.getElem?_eq_some_iff.mp hd
        rw [List.drop_eq_getElem_cons hlt, hd]
    · rw [if_neg h]
      have : (∃ i < n + 1, k = [i]) ↔ ∃ i < n, k = [i] := by
        constructor
        · rintro ⟨i, hi, rfl⟩
          exact ⟨i, lt_of_le_of_ne (Nat.lt_succ_iff.mp hi) (fun e => h (by rw [e])), rfl⟩
        · rintro ⟨i, hi, rfl⟩; exact ⟨i, Nat.lt_succ_of_lt hi, rfl⟩
      simp only [this]

theorem wf_latchHashes (key : List Byte) (n : Nat) {s : State} (h : s.seq.hv.wf = true) :
    (latchHashes key n s).seq.hv.wf = true := by
  induction n with
  | zero => exact h
  | succ n ih => exact Cells.wf_write _ _ ih

/-! The hash port of the FSM (R81, R101, R170). -/

@[simp] theorem askHash_inst (b : Bool) (s : State) : (s.askHash b).inst = s.inst := by
  unfold State.askHash; split <;> rfl
@[simp] theorem askHash_csr (b : Bool) (s : State) : (s.askHash b).csr = s.csr := by
  unfold State.askHash; split <;> rfl
@[simp] theorem askHash_store (b : Bool) (s : State) : (s.askHash b).store = s.store := by
  unfold State.askHash; split <;> rfl
@[simp] theorem askHash_tmp (b : Bool) (s : State) : (s.askHash b).tmp = s.tmp := by
  unfold State.askHash; split <;> rfl
@[simp] theorem askHash_port (b : Bool) (s : State) : (s.askHash b).port = s.port := by
  unfold State.askHash; split <;> rfl
@[simp] theorem askHash_free (b : Bool) (s : State) : (s.askHash b).free = s.free := by
  unfold State.askHash; split <;> rfl

@[simp] theorem takeHash_inst (v : Option Word32) (s : State) : (s.takeHash v).inst = s.inst := by
  unfold State.takeHash; repeat' split
  all_goals rfl
@[simp] theorem takeHash_csr (v : Option Word32) (s : State) : (s.takeHash v).csr = s.csr := by
  unfold State.takeHash; repeat' split
  all_goals rfl
@[simp] theorem takeHash_store (v : Option Word32) (s : State) : (s.takeHash v).store = s.store := by
  unfold State.takeHash; repeat' split
  all_goals rfl
@[simp] theorem takeHash_tmp (v : Option Word32) (s : State) : (s.takeHash v).tmp = s.tmp := by
  unfold State.takeHash; repeat' split
  all_goals rfl
@[simp] theorem takeHash_port (v : Option Word32) (s : State) : (s.takeHash v).port = s.port := by
  unfold State.takeHash; repeat' split
  all_goals rfl
@[simp] theorem takeHash_free (v : Option Word32) (s : State) : (s.takeHash v).free = s.free := by
  unfold State.takeHash; repeat' split
  all_goals rfl

@[simp] theorem fsmHash_inst (h : HashInput) (s : State) : (fsmHash h s).inst = s.inst := by
  unfold fsmHash; dsimp only; split <;> simp
@[simp] theorem fsmHash_csr (h : HashInput) (s : State) : (fsmHash h s).csr = s.csr := by
  unfold fsmHash; dsimp only; split <;> simp
@[simp] theorem fsmHash_store (h : HashInput) (s : State) : (fsmHash h s).store = s.store := by
  unfold fsmHash; dsimp only; split <;> simp
@[simp] theorem fsmHash_tmp (h : HashInput) (s : State) : (fsmHash h s).tmp = s.tmp := by
  unfold fsmHash; dsimp only; split <;> simp
@[simp] theorem fsmHash_port (h : HashInput) (s : State) : (fsmHash h s).port = s.port := by
  unfold fsmHash; dsimp only; split <;> simp
@[simp] theorem fsmHash_free (h : HashInput) (s : State) : (fsmHash h s).free = s.free := by
  unfold fsmHash; dsimp only; split <;> simp

/-- The request handshake says once what it does: it changes the count of requests only, by at most one (R170). -/
theorem askHash_seq (b : Bool) (s : State) :
    (s.askHash b).seq = { s.seq with hashAsked := if b = true ∧ s.seq.hashAsked < s.csr.seeds then s.seq.hashAsked + 1
      else s.seq.hashAsked } := by
  simp only [State.askHash, State.hashToAsk, Bool.and_eq_true, decide_eq_true_eq]
  split <;> rfl

/-- The response handshake, inverted: no owed answer is taken, or the owed one goes into the HV of its seed (R101). -/
theorem takeHash_cases (rsp : Option Word32) (s : State) :
    ((rsp = none ∨ s.seq.hashAsked ≤ s.seq.hashNext) ∧ s.takeHash rsp = s) ∨
      ∃ v, rsp = some v ∧ s.seq.hashNext < s.seq.hashAsked ∧
        (s.takeHash rsp).seq =
          { s.seq with hv := s.seq.hv.write [s.seq.hashNext] v, hashNext := s.seq.hashNext + 1 } := by
  cases rsp with
  | none => exact .inl ⟨.inl rfl, rfl⟩
  | some v =>
    by_cases h : s.seq.hashNext < s.seq.hashAsked
    · exact .inr ⟨v, rfl, h, by simp only [State.takeHash, State.hashOwed, decide_eq_true h, if_true]⟩
    · refine .inl ⟨.inr (Nat.le_of_not_lt h), ?_⟩
      simp only [State.takeHash, State.hashOwed, decide_eq_false h, Bool.false_eq_true, if_false]

end Sys2Proof.Machine
end

