-- ==== Sys2Proof/Laws/Exec.lean ====
section
/-! SUPPORT. What each command can do, said once: when INSERT, QUERY and CONFIGURE answer a next state and which one; the
probes that a command's latched hash values give (R101, R102); which path through the tiers a command takes; and the
key of a command (R76). -/

namespace Sys2Proof.Machine

/-! Keys (R71, R76). -/

@[simp] theorem keyOf_length (klen : BitVec 8) (p : List Byte) : (keyOf klen p).length = klen.toNat := by
  simp [keyOf]

theorem keyOf_getD (klen : BitVec 8) (p : List Byte) (i : Nat) :
    (keyOf klen p).getD i 0 = if i < klen.toNat then p.getD i 0 else 0 := by
  by_cases h : i < klen.toNat <;> simp [keyOf, List.getD_eq_getElem?_getD, h]

@[simp] theorem onKeyLanes_length (n : Nat) (p : List Byte) : (onKeyLanes n p).length = n := by
  simp [onKeyLanes]

/-- The key is the same read off the payload and off the KEY register, for a key that fits it. -/
theorem keyOf_onKeyLanes {klen : BitVec 8} {n : Nat} (p : List Byte) (h : klen.toNat ≤ n) :
    keyOf klen (onKeyLanes n p) = keyOf klen p := by
  refine List.map_congr_left fun i hi => ?_
  have hi : i < n := lt_of_lt_of_le (List.mem_range.mp hi) h
  simp [onKeyLanes, List.getD_eq_getElem?_getD, hi]

/-! The probes of a command (R101, R102). -/

/-- Lookups under one configuration whose hash values agree on the seeds 0 to S-1 are equal. -/
theorem lookup_congr (c : Csrs) {hv hv' : Nat → Nat} (h : ∀ i < c.seeds, hv i = hv' i) : c.lookup hv = c.lookup hv' := by
  simp only [Csrs.lookup, Lookup.mk.injEq, true_and]
  funext i
  by_cases hi : i < c.seeds
  · simp [hi, h i hi]
  · simp [hi]

/-- What a command sees once its hash values are latched is what the provider answered (R101). -/
theorem lookup_latchHashes (s s₀ : State) (key : List Byte) (hc : s₀.csr = s.csr)
    (hd : s₀.port.draws = s.port.draws) : (latchHashes key s.csr.seeds s₀).lookup = s.probes key := by
  simp only [State.lookup, State.probes, latchHashes_csr, hc]
  refine lookup_congr _ fun i hi => ?_
  rw [read_latchHashes, if_pos ⟨i, hi, rfl⟩]
  simp only [List.headD_cons, State.hashOf, hd]

/-! When a command answers, and what (R202). -/

theorem admitKeyed_eq_ok {s : State} {klen : BitVec 8} :
    s.admitKeyed klen = .ok ↔ s.csr.configured = true ∧ s.klenLegal klen := by
  have hk : klen = 0 ↔ klen.toNat = 0 := by rw [← BitVec.toNat_inj]; rfl
  unfold State.admitKeyed State.klenLegal
  split
  · rename_i h; simp [h]
  · rename_i h
    split
    · rename_i h'; simp only [hk] at h'; simp; omega
    · rename_i h'; simp only [hk] at h'; simp at h ⊢; exact ⟨h, by omega, by omega⟩

theorem admitConfigure_eq_ok {s : State} :
    s.admitConfigure = .ok ↔ s.csr.configured = false ∧ s.cfgValid = true := by
  unfold State.admitConfigure
  cases s.csr.configured <;> cases s.cfgValid <;> simp

/-- The state in which an admitted keyed command runs its stages. -/
def State.latched (s : State) (i : Instr) (klen : BitVec 8) (p : List Byte) : State :=
  latchHashes (keyOf klen p) s.csr.seeds (s.latchCommand (encodeWord i) p)

/-- What an admitted keyed command asks of the storage. -/
def State.asks (s : State) (key : List Byte) : Request :=
  { look := s.probes key, thr := s.csr.thrBits, keyMaxLen := s.inst.keyMaxLen, key := key }

theorem request_latched (s : State) (i : Instr) (klen : BitVec 8) (p : List Byte) :
    (s.latched i klen p).request (keyOf klen p) = s.asks (keyOf klen p) := by
  simp only [State.latched, State.request, State.asks, latchHashes_csr, latchHashes_inst, latchCommand_csr,
    latchCommand_inst]
  rw [lookup_latchHashes s (s.latchCommand (encodeWord i) p) (keyOf klen p) rfl rfl]

@[simp] theorem latched_store (s : State) (i : Instr) (klen : BitVec 8) (p : List Byte) :
    (s.latched i klen p).store = s.store := by simp [State.latched]
@[simp] theorem latched_csr (s : State) (i : Instr) (klen : BitVec 8) (p : List Byte) :
    (s.latched i klen p).csr = s.csr := by simp [State.latched]
@[simp] theorem latched_inst (s : State) (i : Instr) (klen : BitVec 8) (p : List Byte) :
    (s.latched i klen p).inst = s.inst := by simp [State.latched]
@[simp] theorem latched_tmp (s : State) (i : Instr) (klen : BitVec 8) (p : List Byte) :
    (s.latched i klen p).tmp = s.tmp := by simp [State.latched]
@[simp] theorem latched_free (s : State) (i : Instr) (klen : BitVec 8) (p : List Byte) :
    (s.latched i klen p).free = s.free := by simp [State.latched]

/-- An admitted keyed command: whatever it leaves in the storage, outside the storage it completes. -/
theorem completes_respond (s : State) (i : Instr) (klen : BitVec 8) (p : List Byte) (store : Storage) (est : Nat) :
    Completes i p (keyOf klen p) est s (State.respond { s.latched i klen p with store := store } .ok est) where
  inst := latched_inst s i klen p
  csr := latched_csr s i klen p
  tmp := latched_tmp s i klen p
  free := latched_free s i klen p
  port := latchHashes_port _ _ _
  seq := by
    have := latchHashes_seq (keyOf klen p) s.csr.seeds (s.latchCommand (encodeWord i) p)
    simp only [State.respond, State.latched]
    rw [this]
    rfl
  hv k := by
    have := read_latchHashes (keyOf klen p) s.csr.seeds (s.latchCommand (encodeWord i) p) k
    exact this

/-- An admitted keyed command that leaves the storage as it was. -/
theorem completes_respond_same (s : State) (i : Instr) (klen : BitVec 8) (p : List Byte) (est : Nat) :
    Completes i p (keyOf klen p) est s ((s.latched i klen p).respond .ok est) :=
  completes_respond s i klen p (s.latched i klen p).store est

/-- An admitted INSERT runs its stages on the storage as it was, with the probes that the provider's answers give. -/
theorem runInsert_eq (s : State) (klen : BitVec 8) (p : List Byte) (count : Word32) :
    s.runInsert klen p count =
      State.respond
        { s.latched (.insert klen p count) klen p with
          store := (insertLight (s.asks (keyOf klen p)) count.toNat s.store).1 } .ok
        (insertLight (s.asks (keyOf klen p)) count.toNat s.store).2 := by
  rw [← request_latched s (.insert klen p count) klen p, ← latched_store s (.insert klen p count) klen p]
  simp only [State.runInsert, State.latched]

/-- An admitted QUERY reads the storage as it was. -/
theorem runQuery_eq (s : State) (klen : BitVec 8) (p : List Byte) :
    s.runQuery klen p =
      (s.latched (.query klen p) klen p).respond .ok (queryLight (s.asks (keyOf klen p)) s.store) := by
  rw [← request_latched s (.query klen p) klen p, ← latched_store s (.query klen p) klen p]
  simp only [State.runQuery, State.latched]

/-- INSERT, inverted: refused with a status of R202, or run. -/
theorem execInsert_next {klen : BitVec 8} {p : List Byte} {count : Word32} {s t : State}
    (h : execInsert klen p count s = .next t) :
    (¬(s.csr.configured = true ∧ s.klenLegal klen) ∧ s.admitKeyed klen ≠ .ok ∧ t = s.refuse (s.admitKeyed klen)) ∨
      (s.serves klen ∧ t =
        State.respond
          { s.latched (.insert klen p count) klen p with
            store := (insertLight (s.asks (keyOf klen p)) count.toNat s.store).1 } .ok
          (insertLight (s.asks (keyOf klen p)) count.toNat s.store).2) := by
  unfold execInsert at h
  split at h
  · rename_i ha
    split at h
    · rename_i hv
      injection h with h
      refine .inr ⟨⟨(admitKeyed_eq_ok.mp ha).1, hv, (admitKeyed_eq_ok.mp ha).2⟩, ?_⟩
      rw [← h, runInsert_eq]
    · simp at h
  · rename_i ha
    injection h with h
    have ha' : s.admitKeyed klen ≠ .ok := fun e => ha e
    exact .inl ⟨fun e => ha' (admitKeyed_eq_ok.mpr e), ha', h.symm⟩

/-- INSERT runs where the block serves the key. -/
theorem execInsert_serves {klen : BitVec 8} {p : List Byte} {count : Word32} {s : State} (h : s.serves klen) :
    execInsert klen p count s = .next
      (State.respond
        { s.latched (.insert klen p count) klen p with
          store := (insertLight (s.asks (keyOf klen p)) count.toNat s.store).1 } .ok
        (insertLight (s.asks (keyOf klen p)) count.toNat s.store).2) := by
  have ha : s.admitKeyed klen = .ok := admitKeyed_eq_ok.mpr ⟨h.1, h.2.2⟩
  simp only [execInsert, ha, h.2.1, if_true, runInsert_eq]

/-- QUERY, inverted: refused with a status of R202, or run. -/
theorem execQuery_next {klen : BitVec 8} {p : List Byte} {s t : State} (h : execQuery klen p s = .next t) :
    (¬(s.csr.configured = true ∧ s.klenLegal klen) ∧ s.admitKeyed klen ≠ .ok ∧ t = s.refuse (s.admitKeyed klen)) ∨
      (s.serves klen ∧
        t = (s.latched (.query klen p) klen p).respond .ok (queryLight (s.asks (keyOf klen p)) s.store)) := by
  unfold execQuery at h
  split at h
  · rename_i ha
    split at h
    · rename_i hv
      injection h with h
      refine .inr ⟨⟨(admitKeyed_eq_ok.mp ha).1, hv, (admitKeyed_eq_ok.mp ha).2⟩, ?_⟩
      rw [← h, runQuery_eq]
    · simp at h
  · rename_i ha
    injection h with h
    have ha' : s.admitKeyed klen ≠ .ok := fun e => ha e
    exact .inl ⟨fun e => ha' (admitKeyed_eq_ok.mpr e), ha', h.symm⟩

/-- QUERY runs where the block serves the key. -/
theorem execQuery_serves {klen : BitVec 8} {p : List Byte} {s : State} (h : s.serves klen) :
    execQuery klen p s = .next
      ((s.latched (.query klen p) klen p).respond .ok (queryLight (s.asks (keyOf klen p)) s.store)) := by
  have ha : s.admitKeyed klen = .ok := admitKeyed_eq_ok.mpr ⟨h.1, h.2.2⟩
  simp only [execQuery, ha, h.2.1, if_true, runQuery_eq]

/-- CONFIGURE, inverted: refused with a status of R202, or the storage is cleared. -/
theorem execConfigure_next {s t : State} (h : execConfigure s = .next t) :
    (¬(s.csr.configured = false ∧ s.cfgValid = true) ∧ s.lock.admitConfigure ≠ .ok ∧
        t = s.lock.refuse s.lock.admitConfigure) ∨
      ((s.csr.configured = false ∧ s.cfgValid = true) ∧ t = s.lock.configureStorage.respond .ok 0) := by
  unfold execConfigure at h
  split at h
  · rename_i ha; injection h with h; exact .inr ⟨admitConfigure_eq_ok.mp ha, h.symm⟩
  · rename_i ha
    injection h with h
    have ha' : s.lock.admitConfigure ≠ .ok := fun e => ha e
    exact .inl ⟨fun e => ha' (admitConfigure_eq_ok.mpr e), ha', h.symm⟩

/-! The configured sizes of a legal configuration. -/

theorem cfgValid_pos {s : State} (h : s.cfgValid = true) :
    0 < s.csr.cfgL.toNat ∧ 0 < s.csr.cfgM.toNat ∧ 0 < s.csr.cfgLightLen.toNat ∧ 0 < s.csr.cfgB.toNat ∧
      0 < s.csr.cfgH.toNat ∧ 0 < s.csr.cfgLen8.toNat ∧ 0 < s.csr.cfgLen16.toNat := by
  simp only [State.cfgValid, Csrs.cfgValid, inRange, Bool.and_eq_true, decide_eq_true_eq] at h
  omega

end Sys2Proof.Machine
end

