-- ==== Sys2Proof/Laws/Insert.lean ====
section
/-! SUPPORT. The paths of an INSERT through the tiers (R120, R130, R140, R150, R153, R154): which one is taken, and what
the storage is on it. -/

namespace Sys2Proof.Machine

/-- The storage once both low tiers have saturated (R120, R130). -/
def Storage.lowFilled (t : Storage) (u : Lookup) : Storage := (t.lightFill u).c8Fill u

theorem lightFill_c8 (t : Storage) (u : Lookup) : (t.lightFill u).c8 = t.c8 := by rw [lightFill_eq]
theorem lightRaise_c8 (t : Storage) (u : Lookup) (n : Nat) : (t.lightRaise u n).c8 = t.c8 := by rw [lightRaise_eq]
theorem lightRaise_beyond (t : Storage) (u : Lookup) (n : Nat) : sameBeyond8 t (t.lightRaise u n) := by
  rw [lightRaise_eq]; exact ⟨rfl, rfl, rfl, rfl, rfl, rfl⟩
theorem lightFill_beyond (t : Storage) (u : Lookup) : sameBeyond8 t (t.lightFill u) := by
  rw [lightFill_eq]; exact ⟨rfl, rfl, rfl, rfl, rfl, rfl⟩

@[simp] theorem lowFilled_c16 (t : Storage) (u : Lookup) : (t.lowFilled u).c16 = t.c16 := (lightFill_beyond t u).1
@[simp] theorem lowFilled_occ (t : Storage) (u : Lookup) : (t.lowFilled u).occ = t.occ := (lightFill_beyond t u).2.1
@[simp] theorem lowFilled_kls (t : Storage) (u : Lookup) : (t.lowFilled u).kls = t.kls :=
  (lightFill_beyond t u).2.2.1
@[simp] theorem lowFilled_keyb (t : Storage) (u : Lookup) : (t.lowFilled u).keyb = t.keyb :=
  (lightFill_beyond t u).2.2.2.1
@[simp] theorem lowFilled_val (t : Storage) (u : Lookup) : (t.lowFilled u).val = t.val :=
  (lightFill_beyond t u).2.2.2.2.1
@[simp] theorem lowFilled_heavy (t : Storage) (u : Lookup) : (t.lowFilled u).heavy = t.heavy :=
  (lightFill_beyond t u).2.2.2.2.2

theorem nib_congr {t t' : Storage} (h : t'.light = t.light) (q : Nat × Nat) : t'.nib q = t.nib q := by
  simp only [Storage.nib, h]

theorem lowFilled_nib (t : Storage) (u : Lookup) (q : Nat × Nat) :
    (t.lowFilled u).nib q = if q ∈ u.lightProbes then 15 else t.nib q := nib_lightFill t u q

theorem lowFilled_c8 (t : Storage) (u : Lookup) (k : Index) :
    (Cells.read (t.lowFilled u).c8 k).toNat = if k ∈ u.c8Probes then 255 else (Cells.read t.c8 k).toNat := by
  show (Cells.read (Cells.fillWith u.c8Probes 255 (t.lightFill u).c8) k).toNat = _
  rw [lightFill_c8]
  exact Cells.toNat_fillWith u.nodup_c8Probes (by decide) t.c8 k

theorem lowFilled_saturated (t : Storage) (u : Lookup) : lowTiersSaturated u t (t.lowFilled u) :=
  ⟨lowFilled_nib t u, lowFilled_c8 t u⟩

theorem keyEq_lowFilled (t : Storage) (u u' : Lookup) (key : List Byte) (j : Nat) :
    (t.lowFilled u).keyEq u' key j = t.keyEq u' key j :=
  keyEq_congr u' key j (by simp) (by simp) (by simp)

@[simp] theorem matchScan_lowFilled (t : Storage) (u u' : Lookup) (key : List Byte) :
    (t.lowFilled u).matchScan u' key = t.matchScan u' key := by
  simp only [Storage.matchScan, keyEq_lowFilled]

@[simp] theorem findSlot_lowFilled (t : Storage) (u u' : Lookup) (key : List Byte) :
    (t.lowFilled u).findSlot u' key = t.findSlot u' key := by
  simp only [Storage.findSlot, matchScan_lowFilled, Storage.freeScan, lowFilled_occ]

@[simp] theorem valAt_lowFilled (t : Storage) (u u' : Lookup) (j : Nat) :
    (t.lowFilled u).valAt u' j = t.valAt u' j := by simp only [Storage.valAt, lowFilled_val]

/-! The paths. -/

/-- The light tier takes the count (R120). -/
theorem insertLight_light {r : Request} {n : Nat} {t : Storage} (h : t.lightMin r.look + n < 15) :
    insertLight r n t = (t.lightRaise r.look (t.lightMin r.look + n), t.lightMin r.look + n) := by
  simp [insertLight, h]

/-- The 8-bit tier takes what the light tier forwards (R130). -/
theorem insertLight_mid8 {r : Request} {n : Nat} {t : Storage} (h : 15 ≤ t.lightMin r.look + n)
    (h' : t.c8Min r.look + (t.lightMin r.look + n - 14) < 255) :
    insertLight r n t =
      ((t.lightFill r.look).c8Raise r.look (t.c8Min r.look + (t.lightMin r.look + n - 14)),
        14 + (t.c8Min r.look + (t.lightMin r.look + n - 14))) := by
  have hm : (t.lightFill r.look).c8Min r.look = t.c8Min r.look := by simp only [Storage.c8Min, lightFill_c8]
  simp only [insertLight, Config.lightSat, if_neg (Nat.not_lt.mpr h), insertMid8, forwarded, Config.lightCap, hm,
    Config.c8Sat, if_pos h', Config.base1]

/-- Both low tiers saturate, and the key-value stage is reached (R130, R140). -/
theorem insertLight_kv {r : Request} {n : Nat} {t : Storage} (h : lowTiersOverflow r.look t n) :
    insertLight r n t = insertKv r (remAfterLowTiers r.look t n) (t.lowFilled r.look) := by
  have hm : (t.lightFill r.look).c8Min r.look = t.c8Min r.look := by simp only [Storage.c8Min, lightFill_c8]
  obtain ⟨h₁, h₂⟩ := h
  have h₁' : ¬t.lightMin r.look + n < Config.lightSat := Nat.not_lt.mpr h₁
  have h₂' : ¬t.c8Min r.look + (t.lightMin r.look + n - 14) < Config.c8Sat := Nat.not_lt.mpr h₂
  unfold insertLight
  rw [if_neg h₁']
  unfold insertMid8
  simp only [forwarded, hm, if_neg h₂']
  rfl

/-- Every INSERT takes one of the three (R197). -/
theorem insert_cases (u : Lookup) (t : Storage) (n : Nat) :
    t.lightMin u + n < 15 ∨
      (15 ≤ t.lightMin u + n ∧ t.c8Min u + (t.lightMin u + n - 14) < 255) ∨ lowTiersOverflow u t n := by
  unfold lowTiersOverflow; omega

/-- What reaches the key-value stage is at least 1 (R109). -/
theorem remAfterLowTiers_pos {u : Lookup} {t : Storage} {n : Nat} (h : lowTiersOverflow u t n) :
    1 ≤ remAfterLowTiers u t n := by
  unfold lowTiersOverflow at h; unfold remAfterLowTiers; omega

/-- The slot found has room (R140). -/
theorem insertKv_room {r : Request} {rem f : Nat} {t : Storage} (hf : t.findSlot r.look r.key = some f)
    (h : t.valAt r.look f + rem < 65535) :
    insertKv r rem t =
      ((t.claim r.look r.keyMaxLen r.key f).setVal r.look f (t.valAt r.look f + rem),
        268 + (t.valAt r.look f + rem)) := by
  have hv : (t.claim r.look r.keyMaxLen r.key f).valAt r.look f = t.valAt r.look f := by
    unfold Storage.claim; split <;> rfl
  simp [insertKv, hf, hv, h]

/-- The slot found overflows into the heavy array (R140). -/
theorem insertKv_overflow {r : Request} {rem f : Nat} {t : Storage} (hf : t.findSlot r.look r.key = some f)
    (h : 65535 ≤ t.valAt r.look f + rem) :
    insertKv r rem t =
      (((t.claim r.look r.keyMaxLen r.key f).setVal r.look f 65535).heavyAdd r.look
          (t.valAt r.look f + rem - 65534),
        65802 + satAdd 32 (t.heavyAt r.look) (t.valAt r.look f + rem - 65534)) := by
  have hv : (t.claim r.look r.keyMaxLen r.key f).valAt r.look f = t.valAt r.look f := by
    unfold Storage.claim; split <;> rfl
  have hh : ((t.claim r.look r.keyMaxLen r.key f).setVal r.look f 65535).heavyAt r.look = t.heavyAt r.look := by
    unfold Storage.claim; split <;> rfl
  simp [insertKv, hf, hv, Nat.not_lt.mpr h, forwarded, heavyAt_heavyAdd, hh]

/-- The storage after the 16-bit counters have taken or forwarded the remainder, before the eviction decision
(R150). -/
def Storage.counted16 (t : Storage) (u : Lookup) (cand : Nat) : Storage :=
  if cand < 65535 then t.c16Raise u cand else (t.c16Fill u).heavyAdd u (cand - 65534)

/-- No slot is found: the 16-bit counters take the remainder, and the eviction is decided on the updated minimum
(R150 to R153). -/
theorem insertKv_none {r : Request} {rem : Nat} {t : Storage} (hf : t.findSlot r.look r.key = none) :
    insertKv r rem t =
      (insertEvict r (min (t.c16Min r.look + rem) 65535) (t.counted16 r.look (t.c16Min r.look + rem)),
        if t.c16Min r.look + rem < 65535 then 268 + (t.c16Min r.look + rem)
        else 65802 + satAdd 32 (t.heavyAt r.look) (t.c16Min r.look + rem - 65534)) := by
  have hh : (t.c16Fill r.look).heavyAt r.look = t.heavyAt r.look := rfl
  by_cases h : t.c16Min r.look + rem < 65535
  · simp [insertKv, hf, insertMid16, Storage.counted16, h, Nat.min_eq_left (Nat.le_of_lt h)]
  · simp [insertKv, hf, insertMid16, Storage.counted16, h, Nat.min_eq_right (Nat.not_lt.mp h), forwarded,
      heavyAt_heavyAdd, hh]

section counted16
variable (t : Storage) (u : Lookup) (n : Nat)

@[simp] theorem counted16_light : (t.counted16 u n).light = t.light := by unfold Storage.counted16; split <;> rfl
@[simp] theorem counted16_c8 : (t.counted16 u n).c8 = t.c8 := by unfold Storage.counted16; split <;> rfl
@[simp] theorem counted16_occ : (t.counted16 u n).occ = t.occ := by unfold Storage.counted16; split <;> rfl
@[simp] theorem counted16_kls : (t.counted16 u n).kls = t.kls := by unfold Storage.counted16; split <;> rfl
@[simp] theorem counted16_keyb : (t.counted16 u n).keyb = t.keyb := by unfold Storage.counted16; split <;> rfl
@[simp] theorem counted16_val : (t.counted16 u n).val = t.val := by unfold Storage.counted16; split <;> rfl

/-- The 16-bit counters after the update (R150). -/
theorem counted16_c16 (k : Index) :
    (Cells.read (t.counted16 u n).c16 k).toNat =
      if k ∈ u.c16Probes then (if n < 65535 then max (Cells.read t.c16 k).toNat n else 65535)
      else (Cells.read t.c16 k).toNat := by
  unfold Storage.counted16
  split
  · rename_i h; exact Cells.toNat_raiseTo u.nodup_c16Probes (by omega) t.c16 k
  · exact Cells.toNat_fillWith u.nodup_c16Probes (by decide) t.c16 k

/-- The heavy array after the update (R151). -/
theorem counted16_heavy (k : Index) :
    (Cells.read (t.counted16 u n).heavy k).toNat =
      if k = u.heavyProbe ∧ 65535 ≤ n then satAdd 32 (t.heavyAt u) (n - 65534) else (Cells.read t.heavy k).toNat := by
  unfold Storage.counted16
  split
  · rename_i h; rw [if_neg (by omega)]; rfl
  · rename_i h
    have e : (t.c16Fill u).heavyAt u = t.heavyAt u := rfl
    simp only [Storage.heavyAdd, Cells.read_write, e]
    by_cases hk : k = u.heavyProbe
    · rw [if_pos hk, if_pos ⟨hk, Nat.not_lt.mp h⟩, BitVec.toNat_ofNat, Nat.mod_eq_of_lt (Cells.satAdd_lt 32 _ _)]
    · rw [if_neg hk, if_neg (fun e => hk e.1)]; rfl

end counted16

/-- The eviction decision, said once (R153): nothing changes, or kv_min's bucket is replaced. -/
theorem insertEvict_cases (r : Request) (m16r : Nat) (t : Storage) :
    insertEvict r m16r t = t ∨
      ∃ k, t.kvMin r.look = some k ∧ thrGE r.thr m16r (t.valAt r.look k) = true ∧
        insertEvict r m16r t = t.evict r.look r.keyMaxLen r.key k (t.valAt r.look k) m16r := by
  unfold insertEvict
  split
  · rename_i k hk
    split
    · rename_i hg; exact .inr ⟨k, hk, hg, rfl⟩
    · exact .inl rfl
  · exact .inl rfl

theorem insertEvict_yes {r : Request} {m16r k : Nat} {t : Storage} (hk : t.kvMin r.look = some k)
    (h : thrGE r.thr m16r (t.valAt r.look k) = true) :
    insertEvict r m16r t = t.evict r.look r.keyMaxLen r.key k (t.valAt r.look k) m16r := by
  simp [insertEvict, hk, h]

theorem insertEvict_no {r : Request} {m16r k : Nat} {t : Storage} (hk : t.kvMin r.look = some k)
    (h : thrGE r.thr m16r (t.valAt r.look k) = false) : insertEvict r m16r t = t := by
  simp [insertEvict, hk, h]

theorem kvMin_congr {t t' : Storage} (u : Lookup) (h : t'.val = t.val) : t'.kvMin u = t.kvMin u := by
  have hv : t'.valAt u = t.valAt u := by funext j; simp only [Storage.valAt, h]
  simp only [Storage.kvMin, Storage.valMin, hv]

section evict
variable (t : Storage) (u : Lookup) (n : Nat) (key : List Byte) (k v m : Nat)

@[simp] theorem evict_light : (t.evict u n key k v m).light = t.light := rfl
@[simp] theorem evict_c8 : (t.evict u n key k v m).c8 = t.c8 := rfl
@[simp] theorem evict_heavy : (t.evict u n key k v m).heavy = t.heavy := rfl
@[simp] theorem evict_occ : (t.evict u n key k v m).occ = (t.keyWrite u n key k).occ := rfl
@[simp] theorem evict_kls : (t.evict u n key k v m).kls = (t.keyWrite u n key k).kls := rfl
@[simp] theorem evict_keyb : (t.evict u n key k v m).keyb = (t.keyWrite u n key k).keyb := rfl
@[simp] theorem evict_val : (t.evict u n key k v m).val = t.val.write (u.bucket k) (BitVec.ofNat 16 m) := rfl

/-- The fold of the evicted value (R154). -/
theorem evict_c16 (a : Index) :
    (Cells.read (t.evict u n key k v m).c16 a).toNat =
      if a ∈ u.c16Probes then satAdd 16 (Cells.read t.c16 a).toNat v else (Cells.read t.c16 a).toNat :=
  Cells.toNat_foldIn u.nodup_c16Probes v t.c16 a

end evict

/-- The key write, in the words the statements use (R111). -/
theorem keyWritten_keyWrite {t t₀ t' : Storage} (u : Lookup) (n : Nat) (key : List Byte) (j : Nat)
    (hk : key.length < 256) (ho : t₀.occ = t.occ) (hl : t₀.kls = t.kls) (hb : t₀.keyb = t.keyb)
    (ho' : t'.occ = (t₀.keyWrite u n key j).occ) (hl' : t'.kls = (t₀.keyWrite u n key j).kls)
    (hb' : t'.keyb = (t₀.keyWrite u n key j).keyb) : keyWritten u n key j t t' := by
  refine ⟨fun k => ?_, fun k => ?_, fun i hi => ?_, fun k hk => ?_⟩
  · rw [ho', keyWrite_occ, Cells.read_write, ho]; rfl
  · rw [hl', keyWrite_kls, Cells.read_write, hl]
    split
    · rw [BitVec.toNat_ofNat, Nat.mod_eq_of_lt hk]
    · rfl
  · rw [hb', keyWrite_keyb_bucket, if_pos ⟨rfl, hi⟩]
    split
    · rfl
    · rename_i h; rw [List.getD_eq_default _ _ (Nat.not_lt.mp h)]
  · rw [hb', read_keyWrite_keyb, if_neg, hb]
    rintro ⟨i, hi, e⟩; exact hk i hi e

theorem claim_free {t : Storage} {u : Lookup} {n : Nat} {key : List Byte} {f : Nat}
    (h : Cells.read t.occ (u.bucket f) = 0#1) : t.claim u n key f = t.keyWrite u n key f := by
  rw [Storage.claim, if_pos h]

theorem claim_held {t : Storage} {u : Lookup} {n : Nat} {key : List Byte} {f : Nat}
    (h : Cells.read t.occ (u.bucket f) = 1#1) : t.claim u n key f = t := by
  rw [Storage.claim, if_neg]; rw [h]; decide

section claim
variable (t : Storage) (u : Lookup) (n : Nat) (key : List Byte) (f : Nat)

@[simp] theorem claim_light : (t.claim u n key f).light = t.light := by unfold Storage.claim; split <;> rfl
@[simp] theorem claim_c8 : (t.claim u n key f).c8 = t.c8 := by unfold Storage.claim; split <;> rfl
@[simp] theorem claim_c16 : (t.claim u n key f).c16 = t.c16 := by unfold Storage.claim; split <;> rfl
@[simp] theorem claim_val : (t.claim u n key f).val = t.val := by unfold Storage.claim; split <;> rfl
@[simp] theorem claim_heavy : (t.claim u n key f).heavy = t.heavy := by unfold Storage.claim; split <;> rfl

end claim

/-- INSERT's stages, said once (R120, R130, R140, R150 to R154, R197): the six ways an INSERT ends, with the storage
and the estimate it leaves. -/
theorem insertLight_cases (r : Request) (n : Nat) (t : Storage) :
    (∃ cand, cand = t.lightMin r.look + n ∧ cand < 15 ∧ insertLight r n t = (t.lightRaise r.look cand, cand)) ∨
    (∃ cand, 15 ≤ t.lightMin r.look + n ∧ cand = t.c8Min r.look + (t.lightMin r.look + n - 14) ∧ cand < 255 ∧
      insertLight r n t = ((t.lightFill r.look).c8Raise r.look cand, 14 + cand)) ∨
    (∃ f nv, lowTiersOverflow r.look t n ∧ t.findSlot r.look r.key = some f ∧
      nv = t.valAt r.look f + remAfterLowTiers r.look t n ∧ nv < 65535 ∧
      insertLight r n t =
        (((t.lowFilled r.look).claim r.look r.keyMaxLen r.key f).setVal r.look f nv, 268 + nv)) ∨
    (∃ f x, lowTiersOverflow r.look t n ∧ t.findSlot r.look r.key = some f ∧
      t.valAt r.look f + remAfterLowTiers r.look t n = x + 65534 ∧ 1 ≤ x ∧
      insertLight r n t =
        ((((t.lowFilled r.look).claim r.look r.keyMaxLen r.key f).setVal r.look f 65535).heavyAdd r.look x,
          65802 + satAdd 32 (t.heavyAt r.look) x)) ∨
    (∃ cand, lowTiersOverflow r.look t n ∧ t.findSlot r.look r.key = none ∧
      cand = t.c16Min r.look + remAfterLowTiers r.look t n ∧
      (insertLight r n t).2 =
        (if cand < 65535 then 268 + cand else 65802 + satAdd 32 (t.heavyAt r.look) (cand - 65534)) ∧
      ((insertLight r n t).1 = (t.lowFilled r.look).counted16 r.look cand ∨
        ∃ k, t.kvMin r.look = some k ∧ thrGE r.thr (min cand 65535) (t.valAt r.look k) = true ∧
          (insertLight r n t).1 =
            ((t.lowFilled r.look).counted16 r.look cand).evict r.look r.keyMaxLen r.key k (t.valAt r.look k)
              (min cand 65535))) := by
  rcases insert_cases r.look t n with h | ⟨h, h'⟩ | h
  · exact .inl ⟨_, rfl, h, insertLight_light h⟩
  · exact .inr (.inl ⟨_, h, rfl, h', insertLight_mid8 h h'⟩)
  · refine .inr (.inr ?_)
    rw [insertLight_kv h]
    generalize hrem : remAfterLowTiers r.look t n = rem
    cases hf : t.findSlot r.look r.key with
    | some f =>
      have hf' : (t.lowFilled r.look).findSlot r.look r.key = some f := by rw [findSlot_lowFilled, hf]
      have hv : (t.lowFilled r.look).valAt r.look f = t.valAt r.look f := valAt_lowFilled _ _ _ _
      by_cases hn : t.valAt r.look f + rem < 65535
      · refine .inl ⟨f, _, h, rfl, rfl, hn, ?_⟩
        rw [insertKv_room hf' (by rw [hv]; exact hn), hv]
      · refine .inr (.inl ⟨f, t.valAt r.look f + rem - 65534, h, rfl, by omega, by omega, ?_⟩)
        rw [insertKv_overflow hf' (by rw [hv]; exact Nat.not_lt.mp hn), hv]
        simp only [Storage.heavyAt, lowFilled_heavy]
    | none =>
      have hf' : (t.lowFilled r.look).findSlot r.look r.key = none := by rw [findSlot_lowFilled, hf]
      have hm : (t.lowFilled r.look).c16Min r.look = t.c16Min r.look := by simp only [Storage.c16Min, lowFilled_c16]
      refine .inr (.inr ⟨t.c16Min r.look + rem, h, rfl, rfl, ?_⟩)
      rw [insertKv_none hf', hm]
      generalize t.c16Min r.look + rem = cand
      refine ⟨by simp only [Storage.heavyAt, lowFilled_heavy], ?_⟩
      have hval : ((t.lowFilled r.look).counted16 r.look cand).val = t.val := by simp
      have hvat : ∀ k, ((t.lowFilled r.look).counted16 r.look cand).valAt r.look k = t.valAt r.look k := by
        intro k; simp only [Storage.valAt, hval]
      rcases insertEvict_cases r (min cand 65535) ((t.lowFilled r.look).counted16 r.look cand) with e | ⟨k, hk, hg, e⟩
      · exact .inl e
      · rw [kvMin_congr r.look hval] at hk
        rw [hvat] at hg e
        exact .inr ⟨k, hk, hg, e⟩

end Sys2Proof.Machine
end

