-- ==== Sys2Proof/Laws/PerInstr.lean ====
section
/-! SUPPORT. Statements made for every instruction, one lemma per constructor: the encoding of each command has the fixed
bits of its row of the opcode table, and its operands stand in the row's operand bits. -/

namespace Sys2Proof

theorem rsv0_word (count : Word32) (klen : BitVec 8) (opc : BitVec 4) :
    BitVec.extractLsb' 4 4 (count ++ 0#16 ++ klen ++ 0#4 ++ opc : Word64) = 0#4 := by
  apply BitVec.eq_of_getLsbD_eq; intro j hj
  rw [BitVec.getLsbD_extractLsb', getLsbD_word, if_neg (by omega), if_pos (by omega)]
  simp

theorem rsv1_word (count : Word32) (klen : BitVec 8) (opc : BitVec 4) :
    BitVec.extractLsb' 16 16 (count ++ 0#16 ++ klen ++ 0#4 ++ opc : Word64) = 0#16 := by
  apply BitVec.eq_of_getLsbD_eq; intro j hj
  rw [BitVec.getLsbD_extractLsb', getLsbD_word, if_neg (by omega), if_neg (by omega), if_neg (by omega),
    if_pos (by omega)]
  simp

/-- The row of a command in the opcode table (R73, R74, R75). -/
def Instr.row : Instr → EncodingRow
  | .insert _ _ _ => rowInsert
  | .query _ _ => rowQuery
  | .configure => rowConfigure

/-- The encoding of a well-formed command has its row's fixed bits. -/
def Laws.EncodeMatchesTable.Statement (i : Instr) : Prop := i.wellFormed = true → i.row.fits (encodeWord i) = true

theorem Laws.EncodeMatchesTable.insert (klen : BitVec 8) (payload : List Byte) (count : Word32) :
    Laws.EncodeMatchesTable.Statement (.insert klen payload count) := fun _ =>
  (rowInsert_fits_iff _).mpr ⟨opcOf_word _ _ _, rsv0_word _ _ _, rsv1_word _ _ _⟩

theorem Laws.EncodeMatchesTable.query (klen : BitVec 8) (payload : List Byte) :
    Laws.EncodeMatchesTable.Statement (.query klen payload) := fun _ =>
  (rowQuery_fits_iff _).mpr ⟨opcOf_word _ _ _, rsv0_word _ _ _, rsv1_word _ _ _, countOf_word _ _ _⟩

theorem Laws.EncodeMatchesTable.configure : Laws.EncodeMatchesTable.Statement .configure := fun _ =>
  (rowConfigure_fits_iff _).mpr (by decide)

end Sys2Proof
end

