-- ==== Sys2Proof/Laws/Step.lean ====
section
/-! SUPPORT. What one edge can do, said once (R210): the CSR port, the acceptance of a command, and the step of a block
that has no command in flight. -/

namespace Sys2Proof.Machine

/-! The CSR port (R178, R179). -/

@[simp] theorem csrPort_inst (a : Option CsrAccess) (s : State) : (csrPort a s).inst = s.inst := by
  unfold csrPort; split <;> rfl
@[simp] theorem csrPort_store (a : Option CsrAccess) (s : State) : (csrPort a s).store = s.store := by
  unfold csrPort; split <;> rfl
@[simp] theorem csrPort_seq (a : Option CsrAccess) (s : State) : (csrPort a s).seq = s.seq := by
  unfold csrPort; split <;> rfl
@[simp] theorem csrPort_tmp (a : Option CsrAccess) (s : State) : (csrPort a s).tmp = s.tmp := by
  unfold csrPort; split <;> rfl
@[simp] theorem csrPort_free (a : Option CsrAccess) (s : State) : (csrPort a s).free = s.free := by
  unfold csrPort; split <;> rfl

/-- A CSR access reaches no draw and no edge to come. -/
theorem csrPort_port (a : Option CsrAccess) (s : State) :
    (csrPort a s).port = { s.port with csrRdata := (csrPort a s).port.csrRdata } := by
  unfold csrPort; split <;> rfl

/-- A CSR write, said once: it leaves the three STATUS bits, and while CFG_LOCK is 1 every register (R34, R179). -/
theorem csrWrite_flags (c : Csrs) (a : BitVec 8) (v : Word32) :
    (c.write a v).configured = c.configured ∧ (c.write a v).cfgLock = c.cfgLock ∧
      (c.write a v).lastStatus = c.lastStatus ∧ (c.cfgLock = true → c.write a v = c) := by
  unfold Csrs.write
  split
  · split
    · exact ⟨rfl, rfl, rfl, fun _ => rfl⟩
    · rename_i h
      refine ⟨?_, ?_, ?_, fun e => absurd e h⟩ <;> (unfold Csrs.setReg; split <;> rfl)
  · exact ⟨rfl, rfl, rfl, fun _ => rfl⟩

/-- A CSR access leaves the three STATUS bits, and while CFG_LOCK is 1 every register (R34). -/
theorem csrPort_csr (a : Option CsrAccess) (s : State) :
    (csrPort a s).csr.configured = s.csr.configured ∧ (csrPort a s).csr.cfgLock = s.csr.cfgLock ∧
      (csrPort a s).csr.lastStatus = s.csr.lastStatus ∧ (s.csr.cfgLock = true → (csrPort a s).csr = s.csr) := by
  unfold csrPort
  split
  · exact ⟨rfl, rfl, rfl, fun _ => rfl⟩
  · exact ⟨rfl, rfl, rfl, fun _ => rfl⟩
  · exact csrWrite_flags _ _ _

/-! Acceptance and the step (R57, R202, R210). -/

/-- The acceptance of a command, inverted: a decode error, or the decoded command runs. -/
theorem acceptCommand_cases {c : Command} {s t : State} (h : acceptCommand c s = .next t) :
    (decode c.word c.payload = .illegalOpcode ∧ t = s.refuse .errOpcode) ∨
      (decode c.word c.payload = .reservedField ∧ t = (lockIfConfigure c.word s).refuse .errReserved) ∨
      ∃ i, decode c.word c.payload = .command i ∧ exec i s = .next t := by
  unfold acceptCommand at h
  split at h
  · rename_i e; injection h with h; exact .inl ⟨e, h.symm⟩
  · rename_i e; injection h with h; exact .inr (.inl ⟨e, h.symm⟩)
  · rename_i i e; exact .inr (.inr ⟨i, e, h⟩)

/-- A step with rst = 1 (R220). -/
theorem step_reset {s : State} (hr : s.nextEdge.rst = true) : step s = .next s.dropEdge.resetEdge := by
  simp only [step, clockEdge, edgeWith, hr, if_true]

/-- A step of a block with no command in flight, inverted: after the CSR access nothing more happens, or the response
is taken, or a command is accepted. -/
theorem step_cases {s t : State} (hs : s.seq.fsm = .uncfg ∨ s.seq.fsm = .idle ∨ s.seq.fsm = .resp)
    (hr : s.nextEdge.rst = false) (h : step s = .next t) :
    t = csrPort s.nextEdge.csr s.dropEdge ∨
      (s.seq.fsm = .resp ∧ t = (csrPort s.nextEdge.csr s.dropEdge).deliver) ∨
      ((s.seq.fsm = .uncfg ∨ s.seq.fsm = .idle) ∧
        ∃ c, s.nextEdge.cmd = some c ∧ acceptCommand c (csrPort s.nextEdge.csr s.dropEdge) = .next t) := by
  simp only [step, clockEdge, edgeWith, hr, Bool.false_eq_true, if_false] at h
  have hf' : (csrPort s.nextEdge.csr s.dropEdge).seq.fsm = s.seq.fsm := by rw [csrPort_seq, dropEdge_seq]
  rcases hs with hf | hf | hf <;> rw [hf] at hf' <;> simp only [hf'] at h
  · split at h
    · rename_i c hc; exact .inr (.inr ⟨.inl hf, c, hc, h⟩)
    · injection h with h; exact .inl h.symm
  · split at h
    · rename_i c hc; exact .inr (.inr ⟨.inr hf, c, hc, h⟩)
    · injection h with h; exact .inl h.symm
  · split at h
    · injection h with h; exact .inr (.inl ⟨hf, h.symm⟩)
    · injection h with h; exact .inl h.symm

end Sys2Proof.Machine
end

