-- ==== Sys2Proof/Tests/Slice0.lean ====
section
/-! SUPPORT. The model's own tests: the smoke test of WellFormed, decoding of the words of 30_encoding.md R84 and
95_test_vectors.md, one-step vectors of 95_test_vectors.md, and a witness for the hypotheses of every statement of
Certificates/Slice0/Obligations.lean. -/

set_option Elab.async false

namespace Sys2Proof.Tests

open Sys2Proof.Machine

/-! ## States -/

/-- The largest instance with 4-byte keys (R7). -/
def inst4 : Params :=
  { lMax := 256, mMax := 256, llMax := 4294967295, bMax := 4294967295, hMax := 4294967295, n8Max := 4294967295,
    n16Max := 4294967295, keyMaxLen := 4 }

/-- The configuration registers with sizes as `SETUP` lists them, and CFG_THR_HI. -/
def cfgOf (l m ll b h n8 n16 thrHi : Word32) : Csrs :=
  { Csrs.reset with
    cfgL := l, cfgM := m, cfgLightLen := ll, cfgB := b, cfgH := h, cfgLen8 := n8, cfgLen16 := n16, cfgThrHi := thrHi }

/-- Not configured: the registers written, nothing sent yet. -/
def written (c : Csrs) : State :=
  { State.start inst4 { inputs := [], draws := [], csrRdata := none } with csr := c }

/-- Configured and idle, with the given storage and draws of the hash provider. -/
def idleWith (c : Csrs) (t : Storage) (draws : List Word32) : State :=
  { State.start inst4 { inputs := [], draws := draws, csrRdata := none } with
    csr := { c with configured := true, cfgLock := true }
    store := t
    seq := { Sequencer.reset inst4 with fsm := .idle, cfgd := true } }

/-- CFG-A of 95_test_vectors.md. -/
def cfgA : Csrs := cfgOf 2 2 4 2 2 2 2 0x40000000

/-- Every size 1, THR = 0.5. -/
def cfgOne : Csrs := cfgOf 1 1 1 1 1 1 1 0x3FE00000

/-- Every size 1, THR = 2.0. -/
def cfgTwo : Csrs := cfgOf 1 1 1 1 1 1 1 0x40000000

/-- The empty sketch of CFG-A, with HASH("A", 0) = 3 and HASH("A", 1) = 6 for two commands. -/
def emptyA : State := idleWith cfgA Storage.cleared [3, 6, 3, 6]

/-- The low tiers saturated and the one bucket held by "B" with the value `v`. -/
def heldByB (v : BitVec 16) : Storage :=
  { Storage.cleared with
    light := [([0, 0], 0x0F)], c8 := [([0, 0, 0], 0xFF)], occ := [([0, 0], 1)], kls := [([0, 0], 1)],
    keyb := [([0, 0, 0], 0x42)], val := [([0, 0], v)] }

/-- The low tiers saturated and the one bucket unclaimed. -/
def lowFull : Storage :=
  { Storage.cleared with light := [([0, 0], 0x0F)], c8 := [([0, 0, 0], 0xFF)] }

/-- One bucket, held by "B" with value 100, THR = 0.5. -/
def evictable : State := idleWith cfgOne (heldByB 100) [0, 0]

/-- One bucket, held by "B" with value 100, THR = 2.0. -/
def keeping : State := idleWith cfgTwo (heldByB 100) [0, 0]

/-- The state with an edge to come. -/
def before (s : State) (e : Edge) : State := { s with port := { s.port with inputs := [e] } }

/-- A response waits. -/
def waiting (s : State) : State := { s with seq := { s.seq with fsm := .resp, rspStatus := 0x3 } }

/-- A command in flight in an FSM state. -/
def inFlight (s : State) (f : Fsm) (i : Instr) (rem : Nat) : State :=
  { s with
    seq := { s.seq with fsm := f, cmd := encodeWord i, key := onKeyLanes 4 (encodePayload i) }
    tmp := { s.tmp with rem := rem } }

/-- The next state of an outcome. -/
def nextOf : Result → Option State
  | .next s => some s
  | .fault _ => none
  | .refused _ => none

/-- "A", the key 0x41. -/
abbrev keyA : List Byte := [0x41]
/-- "B", the key 0x42. -/
abbrev keyB : List Byte := [0x42]

/-! ## WellFormed (R7, R70): the payload of a command fits the widest channel -/

theorem test_wellFormed_insert_payload_of_256 :
    (Instr.insert 1 (List.replicate 256 0) 1).wellFormed = false := by decide +kernel
theorem test_wellFormed_query_payload_of_256 : (Instr.query 1 (List.replicate 256 0)).wellFormed = false := by
  decide +kernel
theorem test_wellFormed_payload_of_255 :
    (Instr.insert 0 (List.replicate 255 0) 1).wellFormed = true ∧
      (Instr.query 255 (List.replicate 255 0)).wellFormed = true ∧
      Instr.configure.wellFormed = true := by decide +kernel

/-! ## Decoding and encoding (R84; 95_test_vectors.md section 2.1) -/

/-- E-1: COUNT 10, RSV1 0, KLEN 1, RSV0 0, OPC 1, written out field by field. -/
theorem test_decode_insert :
    decode 0b00000000000000000000000000001010_0000000000000000_00000001_0000_0001 keyA = .command (.insert 1 keyA 10) := by
  decide
/-- E-2: COUNT 0, RSV1 0, KLEN 1, RSV0 0, OPC 2. -/
theorem test_decode_query :
    decode 0b00000000000000000000000000000000_0000000000000000_00000001_0000_0010 keyA = .command (.query 1 keyA) := by
  decide
/-- E-5: every bit 0 but OPC 3. -/
theorem test_decode_configure :
    decode 0b00000000000000000000000000000000_0000000000000000_00000000_0000_0011 [] = .command .configure := by decide
/-- E-6 to E-13: the rejected words. -/
theorem test_decode_rejects :
    decode 0x0 [] = .illegalOpcode ∧ decode 0x5 [] = .illegalOpcode ∧
      decode 0xFFFFFFFFFFFFFFFF [] = .illegalOpcode ∧ decode 0x0000000100000102 keyA = .reservedField ∧
      decode 0x0000000A00000111 keyA = .reservedField ∧ decode 0x0000000A00010101 keyA = .reservedField ∧
      decode 0x0000000000000103 [] = .reservedField ∧ decode 0x0000000100000003 [] = .reservedField := by decide
/-- R84's words, the other way. -/
theorem test_encode :
    encodeWord (.insert 2 [0x0A, 0x0B] 300) = 0x0000012C00000201 ∧ encodeWord (.query 1 keyA) = 0x0000000000000102 ∧
      encodeWord .configure = 0x0000000000000003 ∧ Instr.wellFormed (.insert 0 [] 1) = true ∧
      encodeWord (.insert 0 [] 1) = 0x0000000100000001 := by decide
/-- The opcode table's numbering: the word in bits 63:0. -/
theorem test_decodeTableWord :
    (decodeTableWord 64 0x0000000A00000101).map encodeWord = some 0x0000000A00000101 ∧
      decodeTableWord 64 0x3 = some .configure ∧ decodeTableWord 64 0x5 = none := by decide +kernel

/-! ## One step (95_test_vectors.md) -/

/-- W1 step 1: the response 10, LIGHT[0][1] = 0xA0, LIGHT[1][3] = 0x0A. -/
theorem test_insert_light :
    (nextOf (exec (.insert 1 keyA 10) emptyA)).map (fun t => (t.seq.rspStatus, t.seq.rspEst, t.store.light)) =
      some (0, 10, [([0, 1], 0xA0), ([1, 3], 0x0A)]) := by decide +kernel
/-- X-7: with THR = 0.5, VAL falls to 50, and the evicted 100 is folded into the 16-bit counter (50 + 100). -/
theorem test_insert_evicts :
    (nextOf (exec (.insert 1 keyA 48) evictable)).map (fun t =>
        (t.seq.rspEst, t.store.val == [([0, 0], 50)] && t.store.keyb == [([0, 0, 0], 0x41)] &&
          t.store.c16 == [([0, 0, 0], 150)])) = some (318, true) := by decide +kernel
/-- K-11: a tracked key with VAL saturated answers from the heavy base, 65802 + 66. -/
theorem test_query_heavy :
    (nextOf (exec (.query 1 keyB)
        (idleWith cfgTwo { heldByB 65535 with heavy := [([0], 66)] } [0]))).map (fun t => t.seq.rspEst) =
      some 65868 := by decide +kernel
/-- K-12 and Q-3's neighbour: an unclaimed bucket is no match, and the 16-bit tier answers 268. -/
theorem test_query_mid16 :
    (nextOf (exec (.query 1 keyA) (idleWith cfgTwo lowFull [0]))).map (fun t => (t.seq.rspEst, decide (t.store = lowFull))) =
      some (268, true) := by decide +kernel
/-- C-12's shape: OK, estimate 0, STATUS bits CONFIGURED, BUSY and CFG_LOCK while the response waits. -/
theorem test_configure_ok :
    (nextOf (exec .configure (written cfgA))).map (fun t => (t.seq.rspStatus, t.seq.rspEst, t.statusWord)) =
      some (0, 0, 0x7) := by decide +kernel
/-- C-8: all CFG_* still 0: ERR_CONFIG, CFG_LOCK 1 in flight and 0 after, STATUS 0x500. -/
theorem test_configure_refused :
    (nextOf (exec .configure (written Csrs.reset))).map (fun t => (t.seq.rspStatus, t.csr.cfgLock, t.deliver.statusWord)) =
      some (5, true, 0x500) := by decide +kernel

/-! ## Witnesses: states and operands that meet the hypotheses of the statements -/

/-- The threshold of `cfgTwo` is 2. -/
theorem thrValue_two : thrValue 0x4000000000000000#64 = 2 := by
  rw [thrValue, show thrExponent 0x4000000000000000#64 = 1024 by decide,
    show thrFraction 0x4000000000000000#64 = 0 by decide]
  norm_num

/-- The threshold of `cfgOne` is 1/2. -/
theorem thrValue_half : thrValue 0x3FE0000000000000#64 = 1 / 2 := by
  rw [thrValue, show thrExponent 0x3FE0000000000000#64 = 1022 by decide,
    show thrFraction 0x3FE0000000000000#64 = 0 by decide]
  norm_num

theorem inst4_legal : inst4.legal := by decide

theorem cleared_inv (c : Csrs) (n : Nat) : Storage.cleared.Inv c n := by
  refine ⟨fun j b _ => ⟨rfl, rfl, fun _ => rfl⟩, fun j b h => ?_, fun j b i h => absurd rfl h,
    ⟨fun j b h => ?_, fun j b i _ => rfl⟩, ?_⟩
  · exact absurd (show (0#1 = 1#1) from h) (by decide)
  · exact absurd (show (0#1 = 1#1) from h) (by decide)
  · constructor <;> exact fun k h => absurd rfl h

theorem read_one {w : Nat} (i j b : Nat) (v : BitVec w) :
    Cells.read [([0, 0], v)] [j, b] = (if j = 0 ∧ b = 0 then v else 0#w) ∧
      Cells.read [([0, 0, 0], v)] [j, b, i] = (if j = 0 ∧ b = 0 ∧ i = 0 then v else 0#w) := by
  constructor <;> simp [Cells.read]

/-- The storage of `evictable` and `keeping` meets the invariants. -/
theorem heldByB_inv (thrHi : Word32) : (heldByB 100).Inv (cfgOf 1 1 1 1 1 1 1 thrHi) 4 := by
  have one : ∀ {w : Nat} {v : BitVec w} {k k' : Index}, Cells.read [(k', v)] k ≠ 0 → k = k' := by
    intro w v k k' h
    by_contra hne
    exact h (by simp [Cells.read, hne])
  refine ⟨fun j b h => ?_, fun j b h => ?_, fun j b i h => absurd rfl h, ⟨fun j b h => ?_, fun j b i h => ?_⟩, ?_⟩
  · simp only [heldByB, (read_one 0 j b _).1] at h
    split at h
    · exact absurd h (by decide)
    · rename_i hn
      refine ⟨?_, ?_, fun i => ?_⟩
      · simp only [heldByB, (read_one 0 j b _).1, if_neg hn]
      · simp only [heldByB, (read_one 0 j b _).1, if_neg hn]
      · simp only [heldByB, (read_one i j b _).2]; rw [if_neg (fun e => hn ⟨e.1, e.2.1⟩)]
  · simp only [heldByB, (read_one 0 j b _).1] at h ⊢
    split at h
    · rename_i hn; rw [if_pos hn]; decide
    · exact absurd h (by decide)
  · simp only [heldByB, (read_one 0 j b _).1] at h ⊢
    split at h
    · rename_i hn; rw [if_pos hn]; decide
    · exact absurd h (by decide)
  · simp only [heldByB, (read_one 0 j b _).1, (read_one i j b _).2] at h ⊢
    by_cases hn : j = 0 ∧ b = 0 ∧ i = 0
    · obtain ⟨rfl, rfl, rfl⟩ := hn; exact absurd h (by decide)
    · rw [if_neg hn]
  · constructor
    · exact fun k h => ⟨0, 0, one h, Nat.one_pos, Nat.one_pos⟩
    · exact fun k h => ⟨0, 0, 0, one h, Nat.one_pos, Nat.one_pos, Nat.one_pos⟩
    · exact fun k h => absurd rfl h
    · exact fun k h => ⟨0, 0, one h, Nat.one_pos, Nat.one_pos⟩
    · exact fun k h => ⟨0, 0, one h, Nat.one_pos, Nat.one_pos⟩
    · exact fun k h => ⟨0, 0, 0, one h, Nat.one_pos, Nat.one_pos, by decide⟩
    · exact fun k h => ⟨0, 0, one h, Nat.one_pos, Nat.one_pos⟩
    · exact fun k h => absurd rfl h

theorem idleWith_inv {c : Csrs} {t : Storage} {draws : List Word32} (h : Csrs.cfgValid c inst4 = true)
    (hl : c.lastStatus = 0) (hw : t.wf) (hi : t.Inv c 4) : Inv (idleWith c t draws) where
  legal := inst4_legal
  settled := .inr (.inl rfl)
  uncfg e := by cases e
  idle _ := rfl
  cfgd := rfl
  valid _ := h
  locked _ := rfl
  lockIdle _ := rfl
  codes := ⟨by show c.lastStatus.toNat ≤ 6; rw [hl]; decide, Nat.zero_le _⟩
  errEst e := absurd rfl e
  est := Nat.zero_le _
  keyLanes := rfl
  hvWf := rfl
  storeWf := hw
  tiers _ := ⟨hi.1, hi.2, hi.3, hi.4, ⟨hi.5.1, hi.5.2, hi.5.3, hi.5.4, hi.5.5, hi.5.6, hi.5.7, hi.5.8⟩⟩

/-- Witness for `Inv` and for the premise of StepNeverStops, StepKeepsTheInvariant: a configured, empty sketch. -/
theorem test_inv_emptyA : Inv emptyA := idleWith_inv (by decide) rfl (by decide) (cleared_inv _ _)

/-- A configured sketch with a claimed bucket. -/
theorem test_inv_evictable : Inv evictable := idleWith_inv (by decide) rfl (by decide) (heldByB_inv _)

theorem test_inv_keeping : Inv keeping := idleWith_inv (by decide) rfl (by decide) (heldByB_inv _)

/-- Witness for DecodeOfEncodeIsTheCommand, with the longest payload. -/
theorem test_witness_wellFormed : (Instr.insert 255 (List.replicate 255 0xFF) 0xFFFFFFFF).wellFormed = true := by
  decide +kernel

/-- Witness for EncodeOfDecodeIsTheWord: one word of each command. -/
theorem test_witness_decoded :
    decode 0xFFFFFFFF00000101 keyA = .command (.insert 1 keyA 0xFFFFFFFF) ∧
      decode 0x000000000000FF02 keyA = .command (.query 255 keyA) ∧ decode 0x3 keyA = .command .configure := by decide

/-- Witness for ReservedFieldsOfEachOpcode: a word of each opcode. -/
theorem test_witness_opcodes :
    BitVec.extractLsb' 0 4 0x0000000A00000111#64 = 0x1 ∧ BitVec.extractLsb' 0 4 0x0000000100000102#64 = 0x2 ∧
      BitVec.extractLsb' 0 4 0x0000000000000103#64 = 0x3 := by decide

/-- An idle block at an edge that brings E-1's word. -/
def sent : State := before emptyA (Edge.sending ⟨0x0000000A00000101, keyA⟩)

/-- Witness for StepRunsTheDecodedCommand. -/
theorem test_witness_step_runs :
    sent.nextEdge.rst = false ∧ sent.nextEdge.cmd = some ⟨0x0000000A00000101, keyA⟩ ∧ sent.seq.fsm = .idle ∧
      decode 0x0000000A00000101 keyA = .command (.insert 1 keyA 10) ∧ (Instr.insert 1 keyA 10).wellFormed = true := by
  decide +kernel

/-- Witness for UndecodableWordAnswersItsError: an illegal opcode, and a reserved field of OPC 0x3. -/
theorem test_witness_undecodable :
    let s := before emptyA (Edge.sending ⟨0x5, []⟩)
    let s' := before (written cfgA) (Edge.sending ⟨0x0000000100000003, []⟩)
    (s.nextEdge.rst = false ∧ s.nextEdge.csr = none ∧ s.nextEdge.cmd = some ⟨0x5, []⟩ ∧ s.seq.fsm = .idle ∧
      decode 0x5 [] = .illegalOpcode) ∧
    s'.nextEdge.rst = false ∧ s'.nextEdge.csr = none ∧ s'.nextEdge.cmd = some ⟨0x0000000100000003, []⟩ ∧
      s'.seq.fsm = .uncfg ∧ decode 0x0000000100000003 [] = .reservedField := by decide +kernel

/-- Witness for EdgeWithoutTransferHoldsEverything: each of its two cases, the second with a command offered, and a CSR
read and a CSR write in the first. -/
theorem test_witness_no_transfer :
    let s := before (waiting emptyA) (Edge.sending ⟨0x3, []⟩)
    (emptyA.nextEdge.rst = false ∧ emptyA.nextEdge.csr = none ∧ emptyA.seq.fsm = .idle ∧ emptyA.nextEdge.cmd = none) ∧
    (s.nextEdge.rst = false ∧ s.nextEdge.csr = none ∧ s.seq.fsm = .resp ∧ s.nextEdge.rspReady = false) ∧
    [AsmLine.csrr .status, .csrw .cfgL 3].map (fun l => ((before (written cfgA) (l.edges.headD Edge.quiet)).nextEdge.rst,
        (before (written cfgA) (l.edges.headD Edge.quiet)).nextEdge.csr,
        (before (written cfgA) (l.edges.headD Edge.quiet)).nextEdge.cmd)) =
      [(false, some (.read 0x04), none), (false, some (.write 0x08 3), none)] ∧ (written cfgA).seq.fsm = .uncfg := by
  decide +kernel

/-- The write of a SETUP line takes effect in a step (R83, R179), and so does one at a delivery with CFG_LOCK 0, while at
the delivery of a refused CONFIGURE's response it is ignored (R34, R210). -/
theorem test_step_csr_write :
    let e : Edge := { Edge.taking with csr := some (.write 0x08 3) }
    [before (written cfgA) { Edge.quiet with csr := some (.write 0x08 3) }, before (waiting (written cfgA)) e,
        before (waiting (written cfgA).lock) e].map
        (fun s => (nextOf (step s)).map fun t => (t.csr.cfgL.toNat, t.csr.cfgLock)) =
      [some (3, false), some (3, false), some (2, false)] := by decide +kernel

/-- Witness for TakingTheResponseUpdatesStatus, without and with a CSR access. -/
theorem test_witness_taking :
    let s := before (waiting emptyA) Edge.taking
    let s' := before (waiting emptyA) { Edge.taking with csr := some (.write 0x08 3) }
    (s.nextEdge.rst = false ∧ s.nextEdge.csr = none ∧ s.nextEdge.rspReady = true ∧ s.seq.fsm = .resp) ∧
      s'.nextEdge.rst = false ∧ s'.nextEdge.rspReady = true ∧ s'.seq.fsm = .resp := by
  decide +kernel

/-- Witness for ResetEdgeLeavesTheResetValues: with a command in flight. -/
theorem test_witness_reset :
    let s := before (inFlight emptyA .mid8 (.insert 1 keyA 10) 3) { Edge.quiet with rst := true }
    s.nextEdge.rst = true ∧ s.seq.fsm = .mid8 := by decide +kernel

/-- Witness for CsrAccessComesBeforeCommandAndDelivery: its four clauses, the third locked and unlocked at both ends of the
CFG_* addresses. -/
theorem test_witness_simultaneous :
    let e : Edge := { Edge.quiet with csr := some (.write 0x08 3), cmd := some ⟨0x3, []⟩ }
    let e' : Edge := { Edge.quiet with csr := some (.read 0x04), rspReady := true }
    (before (written cfgA) e).nextEdge = e ∧ (before (written cfgA) e).seq.fsm = .uncfg ∧
      (before (waiting emptyA) e').nextEdge = e' ∧ (before (waiting emptyA) e').seq.fsm = .resp ∧
      (∀ a ∈ [0x08#8, 0x28#8],
        let w : Edge := { Edge.quiet with csr := some (.write a 3), rspReady := true }
        (before (waiting (written cfgA)) w).nextEdge = w ∧ (before (waiting (written cfgA)) w).csr.cfgLock = false ∧
          (before (waiting (written cfgA).lock) w).csr.cfgLock = true) ∧
      (let r : Edge := { Edge.quiet with csr := some (.read 0x04), cmd := some ⟨0x102, keyA⟩ }
       (before emptyA r).nextEdge = r ∧ (before emptyA r).seq.fsm = .idle) := by decide +kernel

/-- Witness for CsrReadGivesTheMappedRegister's last addresses, and for CsrWriteIsTakenOnlyWhenUnlocked: the first
and the last register written, the lock, and an address of each ignored kind. -/
theorem test_witness_csr_addresses :
    (written cfgA).csr.cfgLock = false ∧ emptyA.csr.cfgLock = true ∧
      (0x08#8).toNat % 4 = 0 ∧ (0x28#8).toNat % 4 = 0 ∧ 0x08 ≤ (0x08#8).toNat ∧ (0x28#8).toNat ≤ 0x28 ∧
      (0x09#8).toNat % 4 ≠ 0 ∧ (0x07#8).toNat < 0x08 ∧ 0x28 < (0x2C#8).toNat ∧ 0x2C ≤ (0xFF#8).toNat := by decide

/-- C-3, C-5 and C-14 at the boundary addresses, by computation. -/
theorem test_csr_access :
    (written cfgA).csrRead 0x28 = 0x40000000 ∧ (written cfgA).csrRead 0x2C = 0 ∧ (written cfgA).csrRead 0x01 = 0 ∧
      (csrPort (some (.write 0x28 7)) (written cfgA)).csrRead 0x28 = 7 ∧
      (csrPort (some (.write 0x08 0)) emptyA).csrRead 0x08 = 2 := by decide +kernel

/-- Witness for ProbeIndexFormulas, at the last seed; D-3's shape under CFG-A (nl = 6, bi = 0). -/
theorem test_witness_seeds : 1 < max emptyA.csr.cfgL.toNat emptyA.csr.cfgM.toNat := by decide

/-- R102's indices of key "A" under CFG-A. -/
theorem test_probes :
    let u := emptyA.probes keyA
    (u.nl 0, u.nl 1, u.bi 0, u.bi 1, u.s8 0, u.s16 1, u.hi) = (3, 6, 1, 0, 1, 0, 1) := by decide +kernel

/-- Witness for TierMinimumIsTheLeastProbe and KvMinIsTheLowestLeastValue. -/
theorem test_witness_layers : 0 < (emptyA.probes keyA).l ∧ 0 < (emptyA.probes keyA).m := by decide +kernel

/-- D-19 to D-27: the threshold comparison. -/
theorem test_thrGE :
    [(0x4000000000000000#64, 1002, 32), (0x4000000000000000, 999, 500), (0x4000000000000000, 1000, 500),
      (0x3FF8000000000000, 4, 3), (0x3FF8000000000000, 5, 3), (0x3FE0000000000000, 50, 100),
      (0x3FF0000000000001, 1, 1), (0x0000000000000001, 65535, 1), (0x0000000000000001, 1, 0)].map
        (fun e => thrGE e.1 e.2.1 e.2.2) =
      [true, false, true, false, true, true, false, true, true] := by decide +kernel

/-- Witness for HashRequestCarriesTheKey. -/
theorem test_witness_hash_request :
    (inFlight emptyA .hash (.insert 1 keyA 10) 0).hashRequest false =
      some { key := [0x41, 0, 0, 0], klen := 1, seed := 0 } := by decide +kernel

/-- Witness for KeyedCommandBeforeConfigureIsRefused, IllegalKeyLengthIsRefused (0 and KEY_MAX_LEN + 1) and
ConfigureIsRefused (both clauses). -/
theorem test_witness_refusals :
    (written cfgA).csr.configured = false ∧ emptyA.csr.configured = true ∧ (0#8).toNat = 0 ∧
      emptyA.inst.keyMaxLen < (5#8).toNat ∧ (written Csrs.reset).csr.configured = false ∧
      (written Csrs.reset).cfgValid = false := by decide +kernel

/-- Witness for RefusedCommandChangesOnlyLastStatus: ERR_ALREADY_CONFIGURED. -/
theorem test_witness_refused :
    Inv emptyA ∧ emptyA.seq.fsm = .idle ∧ ∃ t, exec .configure emptyA = .next t ∧ t.seq.rspStatus ≠ 0 :=
  ⟨test_inv_emptyA, rfl, _, rfl, by decide⟩

/-- Witness for ConfigureClearsTheStorage. -/
theorem test_witness_configure : (written cfgA).csr.configured = false ∧ (written cfgA).cfgValid = true := by
  decide +kernel

/-- Witness for the statements about an admitted INSERT or QUERY: the shortest and the longest key. -/
theorem test_witness_serves : emptyA.serves 1 ∧ emptyA.serves 4 := by decide +kernel

/-- Witness for InsertEndingInTheLightTier at its bound, and for InsertEndingInThe8BitTier at both of its bounds. -/
theorem test_witness_low_tiers :
    let u := emptyA.probes keyA
    let t := emptyA.store
    t.lightMin u + (14#32).toNat < 15 ∧ 15 ≤ t.lightMin u + (15#32).toNat ∧
      t.c8Min u + (t.lightMin u + (15#32).toNat - 14) < 255 ∧
      t.c8Min u + (t.lightMin u + (268#32).toNat - 14) = 254 := by decide +kernel

/-- Witness for InsertKeptInItsSlot, with room to spare and at the bound; and for InsertOverflowingItsSlot. -/
theorem test_witness_slot :
    let u := emptyA.probes keyA
    let t := emptyA.store
    lowTiersOverflow u t (300#32).toNat ∧ lowTiersOverflow u t (65803#32).toNat ∧ t.findSlot u keyA = some 0 ∧
      (t.val.read (u.bucket 0)).toNat + remAfterLowTiers u t (65802#32).toNat = 65534 ∧
      65535 ≤ (t.val.read (u.bucket 0)).toNat + remAfterLowTiers u t (65803#32).toNat := by
  unfold lowTiersOverflow; decide +kernel

/-- Witness for the claim of the unclaimed and of the held slot in InsertKeptInItsSlot. -/
theorem test_witness_slot_held :
    evictable.store.occ.read ((evictable.probes keyB).bucket 0) = 1 ∧
      evictable.store.findSlot (evictable.probes keyB) keyB = some 0 ∧
      emptyA.store.occ.read ((emptyA.probes keyA).bucket 0) = 0 := by decide +kernel

/-- Witness for InsertEndingInThe16BitTier: cand16 = 50, VAL 100, THR 2. -/
theorem test_witness_not_evicting :
    let u := keeping.probes keyA
    keeping.serves 1 ∧ lowTiersOverflow u keeping.store (48#32).toNat ∧ keeping.store.findSlot u keyA = none ∧
      keeping.store.kvMin u = some 0 ∧
      ((min (keeping.store.c16Min u + remAfterLowTiers u keeping.store (48#32).toNat) 65535 : Nat) : ℚ) <
        ((keeping.store.val.read (u.bucket 0)).toNat : ℚ) * thrValue keeping.csr.thrBits := by
  intro u
  refine ⟨by decide +kernel, by unfold lowTiersOverflow; decide +kernel, by decide +kernel, by decide +kernel, ?_⟩
  rw [show min (keeping.store.c16Min u + remAfterLowTiers u keeping.store (48#32).toNat) 65535 = 50 by decide +kernel,
    show (keeping.store.val.read (u.bucket 0)).toNat = 100 by decide +kernel,
    show keeping.csr.thrBits = 0x4000000000000000#64 by decide +kernel, thrValue_two]
  norm_num

/-- Witness for InsertEvictingTheLeastKey, at equality (X-7): cand16 = 50, VAL 100, THR 1/2. -/
theorem test_witness_evicting :
    let u := evictable.probes keyA
    evictable.serves 1 ∧ lowTiersOverflow u evictable.store (48#32).toNat ∧ evictable.store.findSlot u keyA = none ∧
      evictable.store.kvMin u = some 0 ∧
      ((evictable.store.val.read (u.bucket 0)).toNat : ℚ) * thrValue evictable.csr.thrBits ≤
        ((min (evictable.store.c16Min u + remAfterLowTiers u evictable.store (48#32).toNat) 65535 : Nat) : ℚ) := by
  intro u
  refine ⟨by decide +kernel, by unfold lowTiersOverflow; decide +kernel, by decide +kernel, by decide +kernel, ?_⟩
  rw [show min (evictable.store.c16Min u + remAfterLowTiers u evictable.store (48#32).toNat) 65535 = 50 by
      decide +kernel, show (evictable.store.val.read (u.bucket 0)).toNat = 100 by decide +kernel,
    show evictable.csr.thrBits = 0x3FE0000000000000#64 by decide +kernel, thrValue_half]
  norm_num

/-- Witness for the four clauses of QueryAnswersTheFirstUnsaturatedTier. -/
theorem test_witness_query :
    emptyA.store.lightMin (emptyA.probes keyA) < 15 ∧
      (let s := idleWith cfgTwo { lowFull with c8 := [([0, 0, 0], 254)] } [0]
       s.serves 1 ∧ s.store.lightMin (s.probes keyA) = 15 ∧ s.store.c8Min (s.probes keyA) < 255) ∧
      (evictable.serves 1 ∧ evictable.store.lightMin (evictable.probes keyB) = 15 ∧
        evictable.store.c8Min (evictable.probes keyB) = 255 ∧
        evictable.store.matchScan (evictable.probes keyB) keyB = some 0) ∧
      evictable.store.matchScan (evictable.probes keyA) keyA = none := by decide +kernel

/-- Witness for PayloadBeyondTheKeyIsIgnored: payloads that differ at byte 1, KLEN 1. -/
theorem test_witness_payload :
    (∀ i < (1#8).toNat, ([0x41, 0x99] : List Byte).getD i 0 = ([0x41, 0x77] : List Byte).getD i 0) ∧
      (∃ t, exec (.insert 1 [0x41, 0x99] 10) emptyA = .next t) ∧ ∃ t, exec (.query 1 [0x41, 0x99]) emptyA = .next t :=
  ⟨by decide, ⟨_, rfl⟩, ⟨_, rfl⟩⟩

/-- Witness for QueryAfterInsertAnswersTheSame, across an eviction. -/
theorem test_witness_query_after_insert :
    ∃ t u, Inv evictable ∧ exec (.insert 1 keyA 48) evictable = .next t ∧ t.seq.rspStatus = 0 ∧
      (∀ i < evictable.csr.seeds, t.hashOf (keyOf 1 keyA) i = evictable.hashOf (keyOf 1 keyA) i) ∧
      exec (.query 1 keyA) t.deliver = .next u :=
  ⟨_, _, test_inv_evictable, rfl, by decide +kernel, by decide +kernel, rfl⟩

/-- Witness for RepeatedQueryAnswersTheSame. -/
theorem test_witness_repeated_query :
    ∃ t u, exec (.query 1 keyA) emptyA = .next t ∧
      (∀ i < emptyA.csr.seeds, t.hashOf (keyOf 1 keyA) i = emptyA.hashOf (keyOf 1 keyA) i) ∧
      exec (.query 1 keyA) t.deliver = .next u :=
  ⟨_, _, rfl, by decide +kernel, rfl⟩

/-- Witness for QueryNeverFallsWithoutEviction: another key is inserted beside the held one, and the held key again. -/
theorem test_witness_query_never_falls :
    let r' : Request := { look := cfgTwo.lookup fun _ => 0, thr := cfgTwo.thrBits, keyMaxLen := 4, key := keyA }
    let r : Request := { look := cfgTwo.lookup fun _ => 0, thr := cfgTwo.thrBits, keyMaxLen := 4, key := keyB }
    1 ≤ cfgTwo.cfgL.toNat ∧ 1 ≤ cfgTwo.cfgM.toNat ∧ keyA.length ≤ 4 ∧ (heldByB 100).c16Claimed ∧
      (heldByB 100).matchScan r.look keyB = some 0 ∧
      (insertLight r' 48 (heldByB 100)).1.matchScan r.look keyB = some 0 ∧
      (insertLight r 48 (heldByB 100)).1.matchScan r.look keyB = some 0 :=
  ⟨by decide, by decide, by decide, fun j b i h => absurd rfl h, by decide +kernel, by decide +kernel,
    by decide +kernel⟩

/-- Witness for CountersNeverDecrease, ConfigurationIsFixedUntilReset and StepKeepsTheInvariant. -/
theorem test_witness_step :
    let s := before evictable (Edge.sending ⟨0x0000003000000101, keyA⟩)
    Inv s ∧ s.csr.configured = true ∧ s.nextEdge.rst = false ∧ (nextOf (step s)).isSome = true := by
  intro s
  have h := test_inv_evictable
  exact ⟨⟨h.1, h.2, h.3, h.4, h.5, h.6, h.7, h.8, h.9, h.10, h.11, h.12, h.13, h.14, h.15⟩, rfl, rfl, by
    decide +kernel⟩

/-- At that edge the VAL of the evicted bucket falls, from 100 to 50, the last clause of CountersNeverDecrease. -/
theorem test_witness_step_falls :
    let s := before evictable (Edge.sending ⟨0x0000003000000101, keyA⟩)
    (nextOf (step s)).map (fun t => (s.store.val.read [0, 0], t.store.val.read [0, 0])) = some (100, 50) := by
  decide +kernel

/-- Witness for InsertKeepsFirstFit and EvictedKeyIsHeldNowhere: every key hashes to 0, and "A" evicts "B". -/
theorem test_witness_first_fit :
    let h : List Byte → Nat → Nat := fun _ _ => 0
    let uE := evictable.csr.lookup (h keyB)
    Inv evictable ∧ evictable.serves 1 ∧ evictable.store.firstFit evictable.csr h ∧
      (∀ i < evictable.csr.seeds, (evictable.hashOf (keyOf 1 keyA) i).toNat = h (keyOf 1 keyA) i) ∧
      uE.bucket 0 = (evictable.probes (keyOf 1 keyA)).bucket 0 ∧ evictable.store.keyEq uE keyB 0 = true ∧
      ∃ t, exec (.insert 1 keyA 48) evictable = .next t := by
  refine ⟨test_inv_evictable, by decide +kernel, ?_, by decide +kernel, by decide +kernel, by decide +kernel, _, rfl⟩
  intro key f hf _ g hg
  exact absurd (show f < 1 from hf) (by omega)

/-- Witness for StepKeepsFirstFit: an edge that accepts the evicting INSERT. -/
theorem test_witness_step_first_fit :
    let h : List Byte → Nat → Nat := fun _ _ => 0
    let c : Command := ⟨0x0000003000000101, keyA⟩
    let s := before evictable (Edge.sending c)
    Inv s ∧ s.csr.configured = true ∧ s.store.firstFit s.csr h ∧ s.nextEdge.cmd = some c ∧
      (∀ i < s.csr.seeds, (s.hashOf (keyOf (klenOf c.word) c.payload) i).toNat = h (keyOf (klenOf c.word) c.payload) i) ∧
      ∃ t, step s = .next t ∧ t.csr.configured = true := by
  have h := test_inv_evictable
  refine ⟨⟨h.1, h.2, h.3, h.4, h.5, h.6, h.7, h.8, h.9, h.10, h.11, h.12, h.13, h.14, h.15⟩, rfl,
    test_witness_first_fit.2.2.1, rfl, by decide +kernel, _, rfl, rfl⟩

/-- Witness for the legal instances of InvariantHoldsAtReset and NoRunFromResetStops. -/
theorem test_witness_legal : inst4.legal := inst4_legal

/-- In HASH, with `asked` requests transferred and `latched` answers latched. -/
def hashing (asked latched : Nat) : State :=
  let s := inFlight emptyA .hash (.insert 1 keyA 10) 0
  { s with seq := { s.seq with hashAsked := asked, hashNext := latched } }

/-- The hash provider drives nothing. -/
abbrev noHash : HashInput := Edge.quiet.hash

/-- Witness for EdgeAdvancesTheCommandInFlight, with the provider silent, and for HashRequestIsHeldUntilTaken, with the
first request taken and its answer owed. -/
theorem test_witness_in_flight :
    let s := hashing 1 0
    s.nextEdge.rst = false ∧ s.nextEdge.csr = none ∧ s.seq.fsm.successors ≠ [] ∧ s.cfgValid = true ∧
      s.seq.hashNext < s.csr.seeds ∧ s.nextEdge.hash = noHash ∧ s.csr.cfgLock = true ∧
      s.hashRequest false = some { key := [0x41, 0, 0, 0], klen := 1, seed := 1 } ∧
      (∃ t, cycle s = .next t) := by
  refine ⟨rfl, rfl, by decide, by decide +kernel, by decide +kernel, rfl, rfl, by decide +kernel, _, rfl⟩

/-- Witness for the clauses of HashHandshakesAtAnEdge: a request taken with no answer owed and with one owed, and the
last answer (R101: CFG-A has S = 2). -/
theorem test_witness_hash_handshakes :
    (hashing 0 0).seq.fsm = .hash ∧ (hashing 0 0).cfgValid = true ∧
    [(hashing 0 0, true, some 3#32), (hashing 1 0, true, none), (hashing 1 0, true, some 3), (hashing 2 1, true, some 6)].map
        (fun e => (nextOf (advance { hreqReady := e.2.1, hrsp := e.2.2 } e.1)).map fun t =>
          (t.seq.fsm.code.toNat, t.seq.hashAsked, t.seq.hashNext, (t.seq.hv.read [0]).toNat, (t.seq.hv.read [1]).toNat)) =
      [some (3, 1, 0, 0, 0), some (3, 2, 0, 0, 0), some (3, 2, 1, 3, 0), some (4, 2, 2, 0, 6)] := by decide +kernel

/-- Witness for HashAnswersNeverOutrunRequests: an accepted INSERT, and a transition in HASH at the bounds. -/
theorem test_witness_hash_counts :
    (∃ a, fsmAccept ⟨0x0000000A00000101, keyA⟩ emptyA = .next a ∧ a.seq.fsm = .hash) ∧
      (hashing 2 1).seq.hashNext ≤ (hashing 2 1).seq.hashAsked ∧ (hashing 2 1).seq.hashAsked ≤ (hashing 2 1).csr.seeds ∧
      ∃ t, advance { hreqReady := false, hrsp := some 6 } (hashing 2 1) = .next t ∧ t.seq.fsm = .light :=
  ⟨⟨_, rfl, rfl⟩, by decide +kernel, by decide +kernel, _, rfl, by decide +kernel⟩

/-- Witness for FsmFollowsItsTransitions: a QUERY at LIGHT, and the CLEAR of a CONFIGURE. -/
theorem test_witness_fsm :
    (∃ t, advance noHash (inFlight evictable .light (.query 1 keyA) 0) = .next t ∧
      (inFlight evictable .light (.query 1 keyA) 0).inserting = false ∧ t.seq.fsm = .mid8) ∧
    ∃ t, advance noHash (inFlight emptyA .clear .configure 0) = .next t ∧ t.seq.fsm = .resp :=
  ⟨⟨_, rfl, by decide +kernel, by decide +kernel⟩, _, rfl, by decide +kernel⟩

/-- Witness for the three clauses of FsmEscalatesOnlyWhenSaturated. -/
theorem test_witness_escalation :
    (∃ t, advance noHash (inFlight evictable .light (.insert 1 keyA 48) 0) = .next t ∧ t.seq.fsm = .mid8) ∧
    (∃ t, advance noHash (inFlight evictable .mid8 (.insert 1 keyA 48) 49) = .next t ∧ t.seq.fsm = .kv) ∧
    (∃ t, advance noHash (inFlight evictable .kv (.insert 1 keyA 48) 50) = .next t ∧ t.seq.fsm = .mid16) ∧
    (inFlight evictable .kv (.insert 1 keyA 48) 50).inserting = true :=
  ⟨⟨_, rfl, by decide +kernel⟩, ⟨_, rfl, by decide +kernel⟩, ⟨_, rfl, by decide +kernel⟩, by decide +kernel⟩

/-- Witness for CsrAccessDoesNotDisturbTheCommand. -/
theorem test_witness_csr_in_flight :
    (inFlight evictable .mid8 (.insert 1 keyA 48) 49).csr.cfgLock = true ∧
      ∃ t, advance noHash (inFlight evictable .mid8 (.insert 1 keyA 48) 49) = .next t := ⟨rfl, _, rfl⟩

/-- Witness for FsmRefinesTheAtomicCommand; F-9's shape, through every FSM state but HEAVY, with a slow provider. -/
theorem test_witness_refinement :
    Inv evictable ∧ evictable.seq.fsm = .idle ∧
      (∃ t, acceptCommand ⟨0x0000003000000101, keyA⟩ evictable = .next t ∧ t.seq.rspEst = 318) ∧
      ∃ a r, fsmAccept ⟨0x0000003000000101, keyA⟩ evictable = .next a ∧
        advanceAll (fun _ => 0) [(false, true), (true, false), (false, false), (false, true), (true, true), (true, true),
          (true, true), (true, true), (true, true)] a = .next r ∧ r.seq.fsm = .resp :=
  ⟨test_inv_evictable, rfl, ⟨_, rfl, by decide +kernel⟩, _, _, rfl, rfl, by decide +kernel⟩

end Sys2Proof.Tests
end

section
/-! SUPPORT. What one INSERT writes in the tier storage, said once: which elements of each array it may change, that no
counter falls, and the one change it may make to the key-value slots. -/

namespace Sys2Proof.Machine

/-! ## Which elements a stage may change -/

/-- `m'` is `m` after writes to elements of `K` only, and canonical if `m` is (R55). -/
structure Cells.ChangedWithin {w : Nat} (K : Index → Prop) (m m' : Cells w) : Prop where
  wf : m.wf = true → m'.wf = true
  frame : ∀ k, ¬K k → m'.read k = m.read k

namespace Cells.ChangedWithin
variable {w : Nat} {K : Index → Prop} {m m' m'' : Cells w}

theorem refl (m : Cells w) : ChangedWithin K m m := ⟨id, fun _ _ => rfl⟩

theorem trans (h : ChangedWithin K m m') (h' : ChangedWithin K m' m'') : ChangedWithin K m m'' :=
  ⟨h'.wf ∘ h.wf, fun k hk => (h'.frame k hk).trans (h.frame k hk)⟩

theorem write {k : Index} (v : BitVec w) (hk : K k) : ChangedWithin K m (m.write k v) :=
  ⟨Cells.wf_write k v, fun _ h => Cells.read_write_other m v fun e => h (e ▸ hk)⟩

/-- A list of writes, each at an element of `K`. -/
theorem foldl {α : Type} {l : List α} {k : α → Index} (v : Cells w → α → BitVec w) (hk : ∀ a ∈ l, K (k a)) :
    ChangedWithin K m (l.foldl (fun m a => Cells.write m (k a) (v m a)) m) := by
  induction l generalizing m with
  | nil => exact refl m
  | cons a l ih => exact (write _ (hk a List.mem_cons_self)).trans (ih fun b hb => hk b (List.mem_cons_of_mem a hb))

/-- What is nonzero after the writes was nonzero before or is one of the elements written. -/
theorem nonzero {k : Index} (h : ChangedWithin K m m') (hk : m'.read k ≠ 0#w) : m.read k ≠ 0#w ∨ K k := by
  by_cases hK : K k
  · exact .inr hK
  · exact .inl (h.frame k hK ▸ hk)

end Cells.ChangedWithin

/-- A candidate bucket of the key (R102). -/
def Lookup.isBucket (u : Lookup) (k : Index) : Prop := ∃ j < u.m, k = u.bucket j

/-- A byte that holds a light probe (R35, R102). -/
def Lookup.isLightByte (u : Lookup) (k : Index) : Prop := ∃ l < u.l, k = [l, u.nl l / 2]

/-- A key byte of a candidate bucket (R38). -/
def Lookup.isKeyByte (u : Lookup) (n : Nat) (k : Index) : Prop := ∃ j < u.m, ∃ i < n, k = u.bucket j ++ [i]

/-- `t'` is `t` after writes to the probed elements of each array (R55, R102). -/
structure Storage.WritesWithin (u : Lookup) (n : Nat) (t t' : Storage) : Prop where
  light : Cells.ChangedWithin u.isLightByte t.light t'.light
  c8 : Cells.ChangedWithin (· ∈ u.c8Probes) t.c8 t'.c8
  c16 : Cells.ChangedWithin (· ∈ u.c16Probes) t.c16 t'.c16
  occ : Cells.ChangedWithin u.isBucket t.occ t'.occ
  kls : Cells.ChangedWithin u.isBucket t.kls t'.kls
  keyb : Cells.ChangedWithin (u.isKeyByte n) t.keyb t'.keyb
  val : Cells.ChangedWithin u.isBucket t.val t'.val
  heavy : Cells.ChangedWithin (· = u.heavyProbe) t.heavy t'.heavy

namespace Storage.WritesWithin
variable {u : Lookup} {n : Nat} {t t' t'' : Storage}

theorem refl (t : Storage) : WritesWithin u n t t :=
  ⟨.refl _, .refl _, .refl _, .refl _, .refl _, .refl _, .refl _, .refl _⟩

theorem trans (h : WritesWithin u n t t') (h' : WritesWithin u n t' t'') : WritesWithin u n t t'' :=
  ⟨h.light.trans h'.light, h.c8.trans h'.c8, h.c16.trans h'.c16, h.occ.trans h'.occ, h.kls.trans h'.kls,
    h.keyb.trans h'.keyb, h.val.trans h'.val, h.heavy.trans h'.heavy⟩

theorem setNib {p : Nat × Nat} (v : Nat) (hp : p ∈ u.lightProbes) : WritesWithin u n t (t.setNib p v) :=
  have ⟨hl, hn⟩ := Lookup.mem_lightProbes.mp hp
  { refl t with light := .write _ ⟨p.1, hl, by rw [hn]⟩ }

/-- A list of nibble writes, each at a light probe. -/
theorem foldl_setNib (g : Storage → Nat × Nat → Nat) {ps : List (Nat × Nat)} (hps : ∀ p ∈ ps, p ∈ u.lightProbes) :
    WritesWithin u n t (ps.foldl (fun t p => t.setNib p (g t p)) t) := by
  induction ps generalizing t with
  | nil => exact refl t
  | cons p ps ih =>
    exact (setNib _ (hps p List.mem_cons_self)).trans (ih fun q hq => hps q (List.mem_cons_of_mem p hq))

theorem lightRaise (cand : Nat) : WritesWithin u n t (t.lightRaise u cand) :=
  foldl_setNib (fun t p => max (t.nib p) cand) fun _ => id

theorem lightFill : WritesWithin u n t (t.lightFill u) := foldl_setNib (fun _ _ => 15) fun _ => id

theorem c8Raise (cand : Nat) : WritesWithin u n t (t.c8Raise u cand) :=
  { refl t with c8 := .foldl (fun m k => BitVec.ofNat 8 (max (m.read k).toNat cand)) fun _ => id }

theorem c8Fill : WritesWithin u n t (t.c8Fill u) :=
  { refl t with c8 := .foldl (fun _ _ => BitVec.ofNat 8 255) fun _ => id }

theorem c16Raise (cand : Nat) : WritesWithin u n t (t.c16Raise u cand) :=
  { refl t with c16 := .foldl (fun m k => BitVec.ofNat 16 (max (m.read k).toNat cand)) fun _ => id }

theorem c16Fill : WritesWithin u n t (t.c16Fill u) :=
  { refl t with c16 := .foldl (fun _ _ => BitVec.ofNat 16 65535) fun _ => id }

theorem heavyAdd (x : Nat) : WritesWithin u n t (t.heavyAdd u x) := { refl t with heavy := .write _ rfl }

theorem keyWrite {j : Nat} (key : List Byte) (hj : j < u.m) : WritesWithin u n t (t.keyWrite u n key j) :=
  have hb : u.isBucket (u.bucket j) := ⟨j, hj, rfl⟩
  { refl (u := u) (n := n) t with
    occ := .write 1#1 hb
    kls := .write (BitVec.ofNat 8 key.length) hb
    keyb := .foldl (k := fun i => u.bucket j ++ [i]) (fun _ i => if i < key.length then key.getD i 0 else 0)
      fun i hi => ⟨j, hj, i, List.mem_range.mp hi, rfl⟩ }

theorem setVal {j : Nat} (v : Nat) (hj : j < u.m) : WritesWithin u n t (t.setVal u j v) :=
  { refl t with val := .write _ ⟨j, hj, rfl⟩ }

theorem claim {j : Nat} (key : List Byte) (hj : j < u.m) : WritesWithin u n t (t.claim u n key j) := by
  rcases bit_cases (t.occ.read (u.bucket j)) with h | h
  · rw [claim_free h]; exact keyWrite key hj
  · rw [claim_held h]; exact refl t

theorem lowFilled : WritesWithin u n t (t.lowFilled u) := lightFill.trans c8Fill

theorem counted16 (cand : Nat) : WritesWithin u n t (t.counted16 u cand) := by
  unfold Storage.counted16
  split
  · exact c16Raise cand
  · exact c16Fill.trans (heavyAdd _)

theorem evict {k : Nat} (key : List Byte) (v m : Nat) (hk : k < u.m) : WritesWithin u n t (t.evict u n key k v m) := by
  have fold : WritesWithin u n ((t.keyWrite u n key k).setVal u k m) (t.evict u n key k v m) :=
    { refl _ with c16 := .foldl (fun c a => BitVec.ofNat 16 (satAdd 16 (c.read a).toNat v)) fun _ => id }
  exact ((keyWrite key hk).trans (setVal m hk)).trans fold

end Storage.WritesWithin

/-! ## The scans -/

theorem matchScan_some {t : Storage} {u : Lookup} {key : List Byte} {f : Nat} (h : t.matchScan u key = some f) :
    f < u.m ∧ t.keyEq u key f = true :=
  have ⟨hf, hk, _⟩ := find_range_some.mp h
  ⟨hf, hk⟩

/-- FindSlot answers a bucket that holds the key, or the lowest unclaimed one where none holds it (R112). -/
theorem findSlot_some {t : Storage} {u : Lookup} {key : List Byte} {f : Nat} (h : t.findSlot u key = some f) :
    f < u.m ∧ (t.keyEq u key f = true ∨
      (∀ j < u.m, t.keyEq u key j = false) ∧ t.occ.read (u.bucket f) = 0#1 ∧ ∀ g < f, t.occ.read (u.bucket g) = 1#1) := by
  unfold Storage.findSlot at h
  split at h
  · rename_i hm
    rw [← Option.some.inj h]
    exact (matchScan_some hm).imp_right .inl
  · rename_i hm
    obtain ⟨hf, hfree, hlow⟩ := find_range_some.mp h
    exact ⟨hf, .inr ⟨find_range_none.mp hm, by simpa using hfree,
      fun g hg => (bit_cases _).resolve_left (by simpa using hlow g hg)⟩⟩

/-- FindSlot answers nothing: no candidate bucket holds the key, and all are claimed (R112). -/
theorem findSlot_none {t : Storage} {u : Lookup} {key : List Byte} (h : t.findSlot u key = none) :
    (∀ j < u.m, t.keyEq u key j = false) ∧ ∀ j < u.m, t.occ.read (u.bucket j) = 1#1 := by
  unfold Storage.findSlot at h
  split at h
  · cases h
  · rename_i hm
    exact ⟨find_range_none.mp hm,
      fun j hj => (bit_cases _).resolve_left (by simpa using find_range_none.mp h j hj)⟩

/-! ## INSERT's writes -/

/-- INSERT writes the probed elements of each array and no other (R55, R102). -/
theorem insertLight_writesWithin (r : Request) (n : Nat) (t : Storage) :
    Storage.WritesWithin r.look r.keyMaxLen t (insertLight r n t).1 := by
  rcases insertLight_cases r n t with ⟨cand, -, -, e⟩ | ⟨cand, -, -, -, e⟩ | ⟨f, nv, -, hf, -, -, e⟩ |
    ⟨f, x, -, hf, -, -, e⟩ | ⟨cand, -, -, -, -, e | ⟨k, hk, -, e⟩⟩ <;> rw [e]
  · exact .lightRaise cand
  · exact Storage.WritesWithin.lightFill.trans (.c8Raise cand)
  · have hf := (findSlot_some hf).1
    exact (Storage.WritesWithin.lowFilled.trans (.claim r.key hf)).trans (.setVal nv hf)
  · have hf := (findSlot_some hf).1
    exact ((Storage.WritesWithin.lowFilled.trans (.claim r.key hf)).trans (.setVal 65535 hf)).trans (.heavyAdd x)
  · exact Storage.WritesWithin.lowFilled.trans (.counted16 cand)
  · exact (Storage.WritesWithin.lowFilled.trans (.counted16 cand)).trans (.evict r.key _ _ (kvMin_eq_some.mp hk).1)

/-- INSERT keeps the canonical form of every array. -/
theorem insertLight_wf (r : Request) (n : Nat) {t : Storage} (h : t.wf) : (insertLight r n t).1.wf := by
  obtain ⟨hlight, hc8, hc16, hocc, hkls, hkeyb, hval, hheavy⟩ := h
  have hw := insertLight_writesWithin r n t
  exact ⟨hw.light.wf hlight, hw.c8.wf hc8, hw.c16.wf hc16, hw.occ.wf hocc, hw.kls.wf hkls, hw.keyb.wf hkeyb,
    hw.val.wf hval, hw.heavy.wf hheavy⟩

/-- Writes to the probes of a legal configuration stay within its sizes (R35 to R39, R102). -/
theorem Storage.WritesWithin.sized {c : Csrs} {hv : Nat → Nat} {n : Nat} {t t' : Storage}
    (hw : Storage.WritesWithin (c.lookup hv) n t t') (hLL : 0 < c.cfgLightLen.toNat) (hB : 0 < c.cfgB.toNat)
    (hH : 0 < c.cfgH.toNat) (h8 : 0 < c.cfgLen8.toNat) (h16 : 0 < c.cfgLen16.toNat) (h : t.Sized c n) : t'.Sized c n where
  light k hk := (hw.light.nonzero hk).elim (h.light k) fun ⟨l, hl, e⟩ =>
    ⟨l, _, e, hl, Nat.div_lt_of_lt_mul (Nat.mod_lt _ (by simp only [Csrs.lookup]; omega))⟩
  c8 k hk := (hw.c8.nonzero hk).elim (h.c8 k) fun hp =>
    have ⟨j, hj, e⟩ := Lookup.mem_c8Probes.mp hp
    ⟨j, _, _, e, hj, Nat.mod_lt _ hB, Nat.mod_lt _ h8⟩
  c16 k hk := (hw.c16.nonzero hk).elim (h.c16 k) fun hp =>
    have ⟨j, hj, e⟩ := Lookup.mem_c16Probes.mp hp
    ⟨j, _, _, e, hj, Nat.mod_lt _ hB, Nat.mod_lt _ h16⟩
  occ k hk := (hw.occ.nonzero hk).elim (h.occ k) fun ⟨j, hj, e⟩ => ⟨j, _, e, hj, Nat.mod_lt _ hB⟩
  kls k hk := (hw.kls.nonzero hk).elim (h.kls k) fun ⟨j, hj, e⟩ => ⟨j, _, e, hj, Nat.mod_lt _ hB⟩
  keyb k hk := (hw.keyb.nonzero hk).elim (h.keyb k) fun ⟨j, hj, i, hi, e⟩ => ⟨j, _, i, e, hj, Nat.mod_lt _ hB, hi⟩
  val k hk := (hw.val.nonzero hk).elim (h.val k) fun ⟨j, hj, e⟩ => ⟨j, _, e, hj, Nat.mod_lt _ hB⟩
  heavy k hk := (hw.heavy.nonzero hk).elim (h.heavy k) fun e => ⟨_, e, Nat.mod_lt _ hH⟩

/-! ## No counter falls -/

/-- No light nibble, 8-bit, 16-bit or heavy counter of `t'` is below that of `t` (R45 item 4). -/
structure Storage.CountersLe (t t' : Storage) : Prop where
  nib : ∀ q, t.nib q ≤ t'.nib q
  c8 : ∀ k, (t.c8.read k).toNat ≤ (t'.c8.read k).toNat
  c16 : ∀ k, (t.c16.read k).toNat ≤ (t'.c16.read k).toNat
  heavy : ∀ k, (t.heavy.read k).toNat ≤ (t'.heavy.read k).toNat

theorem le_satAdd {w : Nat} (v : BitVec w) (x : Nat) : v.toNat ≤ satAdd w v.toNat x :=
  le_min (Nat.le_add_right _ _) (Nat.le_sub_one_of_lt v.isLt)

namespace Storage.CountersLe
variable {u : Lookup} {t t' t'' : Storage}

theorem refl (t : Storage) : CountersLe t t := ⟨fun _ => le_rfl, fun _ => le_rfl, fun _ => le_rfl, fun _ => le_rfl⟩

theorem trans (h : CountersLe t t') (h' : CountersLe t' t'') : CountersLe t t'' :=
  ⟨fun q => (h.nib q).trans (h'.nib q), fun k => (h.c8 k).trans (h'.c8 k), fun k => (h.c16 k).trans (h'.c16 k),
    fun k => (h.heavy k).trans (h'.heavy k)⟩

/-- A stage that leaves the counter arrays alone lets no counter fall. -/
theorem of_eq (hl : t'.light = t.light) (h8 : t'.c8 = t.c8) (h16 : t'.c16 = t.c16) (hh : t'.heavy = t.heavy) :
    CountersLe t t' :=
  ⟨fun q => (nib_congr hl q).ge, fun _ => by rw [h8], fun _ => by rw [h16], fun _ => by rw [hh]⟩

theorem lightRaise {cand : Nat} (hc : cand < 16) : CountersLe t (t.lightRaise u cand) where
  nib q := by rw [nib_lightRaise t u hc]; split <;> omega
  c8 _ := by rw [lightRaise_c8]
  c16 _ := by rw [(lightRaise_beyond t u cand).1]
  heavy _ := by rw [lightRaise_eq]

theorem lightFill : CountersLe t (t.lightFill u) where
  nib q := by
    rw [nib_lightFill]
    split
    · exact Nat.le_of_lt_succ (nib_lt t q)
    · exact le_rfl
  c8 _ := by rw [lightFill_c8]
  c16 _ := by rw [(lightFill_beyond t u).1]
  heavy _ := by rw [lightFill_eq]

theorem c8Raise {cand : Nat} (hc : cand < 2 ^ 8) : CountersLe t (t.c8Raise u cand) :=
  { refl t with
    c8 := fun k => by simp only [Storage.c8Raise, Cells.toNat_raiseTo u.nodup_c8Probes hc]; split <;> omega }

theorem lowFilled : CountersLe t (t.lowFilled u) :=
  { lightFill with
    c8 := fun k => by rw [lowFilled_c8]; split <;> omega
    c16 := fun _ => by rw [lowFilled_c16]
    heavy := fun _ => by rw [lowFilled_heavy] }

theorem heavyAdd (x : Nat) : CountersLe t (t.heavyAdd u x) :=
  { refl t with
    heavy := fun k => by
      simp only [Storage.heavyAdd, Cells.read_write]
      split
      · rename_i hk
        rw [hk, BitVec.toNat_ofNat, Nat.mod_eq_of_lt (Cells.satAdd_lt 32 _ _)]
        exact le_satAdd _ _
      · exact le_rfl }

theorem claim_setVal (n : Nat) (key : List Byte) (f v : Nat) : CountersLe t ((t.claim u n key f).setVal u f v) :=
  of_eq (claim_light t u n key f) (claim_c8 t u n key f) (claim_c16 t u n key f) (claim_heavy t u n key f)

theorem counted16 (cand : Nat) : CountersLe t (t.counted16 u cand) where
  nib q := (nib_congr (counted16_light t u cand) q).ge
  c8 _ := by rw [counted16_c8]
  c16 k := by
    rw [counted16_c16]
    split
    · split <;> omega
    · exact le_rfl
  heavy k := by
    rw [counted16_heavy]
    split
    · rename_i hk; rw [hk.1]; exact le_satAdd _ _
    · exact le_rfl

theorem evict (n : Nat) (key : List Byte) (k v m : Nat) : CountersLe t (t.evict u n key k v m) :=
  { refl t with
    c16 := fun a => by
      rw [evict_c16]
      split
      · exact le_satAdd _ _
      · exact le_rfl }

end Storage.CountersLe

/-- INSERT lets no counter fall (R45 item 4, R106, R108, R154, R161). -/
theorem insertLight_countersLe (r : Request) (n : Nat) (t : Storage) : t.CountersLe (insertLight r n t).1 := by
  rcases insertLight_cases r n t with ⟨cand, -, hc, e⟩ | ⟨cand, -, -, hc, e⟩ | ⟨f, nv, -, -, -, -, e⟩ |
    ⟨f, x, -, -, -, -, e⟩ | ⟨cand, -, -, -, -, e | ⟨k, -, -, e⟩⟩ <;> rw [e]
  · exact .lightRaise (by omega)
  · exact Storage.CountersLe.lightFill.trans (.c8Raise (by omega))
  · exact Storage.CountersLe.lowFilled.trans (.claim_setVal _ _ _ _)
  · exact (Storage.CountersLe.lowFilled.trans (.claim_setVal _ _ _ _)).trans (.heavyAdd x)
  · exact Storage.CountersLe.lowFilled.trans (.counted16 cand)
  · exact (Storage.CountersLe.lowFilled.trans (.counted16 cand)).trans (.evict _ _ _ _ _)

end Sys2Proof.Machine
end

section
/-! SUPPORT. The key-value slots under one INSERT (R140, R141, R153, R154): the one change it may make to them, and what
that change keeps: the invariants of the slots (R45 items 2 and 3, R38), first fit (R45 item 5), and that a VAL falls
only with its key (R45 item 4). -/

namespace Sys2Proof.Machine

/-! ## The change -/

/-- The key fields of every bucket are the same (R38). -/
structure Storage.SameKeys (t t' : Storage) : Prop where
  occ : t'.occ = t.occ
  kls : t'.kls = t.kls
  keyb : t'.keyb = t.keyb

/-- What one INSERT of `key` may do to the key-value slots: nothing, raise the VAL of the bucket that holds the key, or
put the key into a candidate bucket, where no candidate bucket held it and the lower ones are claimed. -/
inductive Storage.SlotUpdate (u : Lookup) (n : Nat) (key : List Byte) (t t' : Storage) : Prop where
  | same (keys : t.SameKeys t') (val : t'.val = t.val)
  | add {f v : Nat} (layer : f < u.m) (held : t.keyEq u key f = true) (rises : t.valAt u f ≤ v) (pos : 1 ≤ v)
      (fits : v < 65536) (keys : t.SameKeys t') (val : t'.val = t.val.write (u.bucket f) (BitVec.ofNat 16 v))
  | place {f v : Nat} (layer : f < u.m) (absent : ∀ j < u.m, t.keyEq u key j = false)
      (below : ∀ g < f, t.occ.read (u.bucket g) = 1#1) (pos : 1 ≤ v) (fits : v < 65536)
      (keys : (t.keyWrite u n key f).SameKeys t') (val : t'.val = t.val.write (u.bucket f) (BitVec.ofNat 16 v))

theorem lowFilled_sameKeys (t : Storage) (u : Lookup) : t.SameKeys (t.lowFilled u) :=
  ⟨lowFilled_occ t u, lowFilled_kls t u, lowFilled_keyb t u⟩

theorem counted16_sameKeys (t : Storage) (u : Lookup) (n : Nat) : t.SameKeys (t.counted16 u n) :=
  ⟨counted16_occ t u n, counted16_kls t u n, counted16_keyb t u n⟩

theorem setVal_sameKeys (t : Storage) (u : Lookup) (f v : Nat) : t.SameKeys (t.setVal u f v) := ⟨rfl, rfl, rfl⟩

theorem heavyAdd_sameKeys (t : Storage) (u : Lookup) (x : Nat) : t.SameKeys (t.heavyAdd u x) := ⟨rfl, rfl, rfl⟩

namespace Storage.SameKeys
variable {t t' t'' : Storage}

theorem trans (h : t.SameKeys t') (h' : t'.SameKeys t'') : t.SameKeys t'' :=
  ⟨h'.occ.trans h.occ, h'.kls.trans h.kls, h'.keyb.trans h.keyb⟩

theorem keyWrite (h : t.SameKeys t') (u : Lookup) (n : Nat) (key : List Byte) (f : Nat) :
    (t.keyWrite u n key f).SameKeys (t'.keyWrite u n key f) := by
  refine ⟨?_, ?_, ?_⟩ <;> simp only [Storage.keyWrite, h.occ, h.kls, h.keyb]

theorem keyEq (h : t.SameKeys t') (u : Lookup) (key : List Byte) (j : Nat) : t'.keyEq u key j = t.keyEq u key j :=
  keyEq_congr u key j (by rw [h.occ]) (by rw [h.kls]) fun _ => by rw [h.keyb]

end Storage.SameKeys

/-- The slot that FindSlot answers, once claimed, and its new VAL (R140, R141). -/
theorem slotUpdate_of_findSlot {t t₀ t' : Storage} {u : Lookup} {n f v : Nat} {key : List Byte}
    (hf : t.findSlot u key = some f) (rises : t.valAt u f ≤ v) (pos : 1 ≤ v) (fits : v < 65536)
    (low : t.SameKeys t₀) (keys : (t₀.claim u n key f).SameKeys t')
    (val : t'.val = t.val.write (u.bucket f) (BitVec.ofNat 16 v)) : Storage.SlotUpdate u n key t t' := by
  obtain ⟨layer, held | ⟨absent, free, below⟩⟩ := findSlot_some hf
  · rw [claim_held (by rw [low.occ]; exact ((keyEq_iff t u key f).mp held).1)] at keys
    exact .add layer held rises pos fits (low.trans keys) val
  · rw [claim_free (by rw [low.occ]; exact free)] at keys
    exact .place layer absent below pos fits ((low.keyWrite u n key f).trans keys) val

/-- INSERT makes one change to the key-value slots. -/
theorem insertLight_slotUpdate (r : Request) (n : Nat) (t : Storage) :
    Storage.SlotUpdate r.look r.keyMaxLen r.key t (insertLight r n t).1 := by
  rcases insertLight_cases r n t with ⟨cand, -, -, e⟩ | ⟨cand, -, -, -, e⟩ | ⟨f, nv, hlow, hf, hnv, hlt, e⟩ |
    ⟨f, x, -, hf, -, -, e⟩ | ⟨cand, hlow, hf, hc, -, e | ⟨k, hk, -, e⟩⟩ <;> rw [e]
  · obtain ⟨-, ho, hl, hb, hv, -⟩ := lightRaise_beyond t r.look cand
    exact .same ⟨ho, hl, hb⟩ hv
  · obtain ⟨-, ho, hl, hb, hv, -⟩ := lightFill_beyond t r.look
    exact .same ⟨ho, hl, hb⟩ hv
  · have hpos := remAfterLowTiers_pos hlow
    refine slotUpdate_of_findSlot (v := nv) hf (by omega) (by omega) (by omega) (lowFilled_sameKeys t r.look)
      (setVal_sameKeys _ _ _ _) ?_
    simp only [Storage.setVal, claim_val, lowFilled_val]
  · refine slotUpdate_of_findSlot (v := 65535) hf (Nat.le_of_lt_succ (valAt_lt t r.look f)) (by omega) (by omega)
      (lowFilled_sameKeys t r.look) ((setVal_sameKeys _ _ _ _).trans (heavyAdd_sameKeys _ _ _)) ?_
    simp only [Storage.heavyAdd, Storage.setVal, claim_val, lowFilled_val]
  · exact .same ((lowFilled_sameKeys t r.look).trans (counted16_sameKeys _ _ _))
      ((counted16_val _ _ _).trans (lowFilled_val t r.look))
  · have hpos := remAfterLowTiers_pos hlow
    obtain ⟨absent, claimed⟩ := findSlot_none hf
    have layer := (kvMin_eq_some.mp hk).1
    have low := (lowFilled_sameKeys t r.look).trans (counted16_sameKeys _ r.look cand)
    refine .place (v := min cand 65535) layer absent (fun g hg => claimed g (hg.trans layer)) (by omega) (by omega)
      ((low.keyWrite r.look r.keyMaxLen r.key k).trans ⟨evict_occ .., evict_kls .., evict_keyb ..⟩) ?_
    rw [evict_val, counted16_val, lowFilled_val]

/-- INSERT writes 16-bit counters only where every candidate bucket is claimed (R112, R150). -/
theorem insertLight_c16_same_or_claimed (r : Request) (n : Nat) (t : Storage) :
    (insertLight r n t).1.c16 = t.c16 ∨ ∀ j < r.look.m, t.occ.read (r.look.bucket j) = 1#1 := by
  rcases insertLight_cases r n t with ⟨cand, -, -, e⟩ | ⟨cand, -, -, -, e⟩ | ⟨f, nv, -, -, -, -, e⟩ |
    ⟨f, x, -, -, -, -, e⟩ | ⟨cand, -, hf, -⟩
  · rw [e]; exact .inl (lightRaise_beyond t r.look cand).1
  · rw [e]; exact .inl (lightFill_beyond t r.look).1
  · rw [e]; exact .inl (by simp only [Storage.setVal, claim_c16, lowFilled_c16])
  · rw [e]; exact .inl (by simp only [Storage.heavyAdd, Storage.setVal, claim_c16, lowFilled_c16])
  · exact .inr (findSlot_none hf).2

/-- The estimate of an INSERT is at most that of a full heavy counter (R174). -/
theorem insertLight_est_le (r : Request) (n : Nat) (t : Storage) : (insertLight r n t).2 ≤ 4295033097 := by
  have hsat : ∀ a b, satAdd 32 a b < 2 ^ 32 := Cells.satAdd_lt 32
  rcases insertLight_cases r n t with ⟨cand, -, hc, e⟩ | ⟨cand, -, -, hc, e⟩ | ⟨f, nv, -, -, -, hc, e⟩ |
    ⟨f, x, -, -, -, -, e⟩ | ⟨cand, -, -, -, e, -⟩ <;> rw [e]
  · simp only; omega
  · simp only; omega
  · simp only; omega
  · have := hsat (t.heavyAt r.look) x
    simp only; omega
  · have := hsat (t.heavyAt r.look) (cand - 65534)
    split <;> omega

/-- The estimate of a QUERY is at most that of a full heavy counter (R174). -/
theorem queryLight_le (r : Request) (t : Storage) : queryLight r t ≤ 4295033097 := by
  have hheavy : queryHeavy r t ≤ 4295033097 := by
    have := heavyAt_lt t r.look
    simp only [queryHeavy, Config.base3]; omega
  have hmid16 : queryMid16 r t ≤ 4295033097 := by
    unfold queryMid16; split
    · simp only [Config.base2, Config.c16Sat] at *; omega
    · exact hheavy
  have hkv : queryKv r t ≤ 4295033097 := by
    unfold queryKv; split
    · exact hmid16
    · split
      · simp only [Config.base2, Config.c16Sat] at *; omega
      · exact hheavy
  have hmid8 : queryMid8 r t ≤ 4295033097 := by
    unfold queryMid8; split
    · simp only [Config.base1, Config.c8Sat] at *; omega
    · exact hkv
  unfold queryLight; split
  · simp only [Config.base0, Config.lightSat] at *; omega
  · exact hmid8

/-! ## The invariants of one bucket -/

/-- R45 items 2 and 3 and R38, of bucket `[j, b]`. -/
structure Storage.SlotOk (t : Storage) (n j b : Nat) : Prop where
  empty : t.occ.read [j, b] = 0#1 →
    t.kls.read [j, b] = 0#8 ∧ t.val.read [j, b] = 0#16 ∧ ∀ i, t.keyb.read [j, b, i] = 0#8
  positive : t.occ.read [j, b] = 1#1 → 1 ≤ (t.val.read [j, b]).toNat
  klen : t.occ.read [j, b] = 1#1 → 1 ≤ (t.kls.read [j, b]).toNat ∧ (t.kls.read [j, b]).toNat ≤ n
  padded : ∀ i, (t.kls.read [j, b]).toNat ≤ i → t.keyb.read [j, b, i] = 0#8

theorem Storage.Inv.slotOk {t : Storage} {c : Csrs} {n : Nat} (h : t.Inv c n) (j b : Nat) : t.SlotOk n j b :=
  ⟨h.unclaimed j b, h.claimed j b, h.keys.1 j b, h.keys.2 j b⟩

namespace Storage.SlotOk
variable {t t' : Storage} {n j b : Nat}

/-- A key length is at most KEY_MAX_LEN, also in an unclaimed bucket, where it is 0. -/
theorem klen_le (h : t.SlotOk n j b) : (t.kls.read [j, b]).toNat ≤ n := by
  rcases bit_cases (t.occ.read [j, b]) with ho | ho
  · rw [(h.empty ho).1]; exact Nat.zero_le n
  · exact (h.klen ho).2

/-- The invariants of a bucket speak of its own fields only. -/
theorem congr (h : t.SlotOk n j b) (ho : t'.occ.read [j, b] = t.occ.read [j, b])
    (hl : t'.kls.read [j, b] = t.kls.read [j, b]) (hv : t'.val.read [j, b] = t.val.read [j, b])
    (hb : ∀ i, t'.keyb.read [j, b, i] = t.keyb.read [j, b, i]) : t'.SlotOk n j b where
  empty := by simpa only [ho, hl, hv, hb] using h.empty
  positive := by simpa only [ho, hv] using h.positive
  klen := by simpa only [ho, hl] using h.klen
  padded := by simpa only [hl, hb] using h.padded

end Storage.SlotOk

/-- A key byte after the key write (R111). -/
theorem keyWrite_keyb_read (t : Storage) (u : Lookup) (n : Nat) (key : List Byte) (f j b i : Nat) :
    (t.keyWrite u n key f).keyb.read [j, b, i] =
      if [j, b] = u.bucket f ∧ i < n then key.getD i 0 else t.keyb.read [j, b, i] := by
  have at_byte : (∃ i' < n, [j, b, i] = u.bucket f ++ [i']) ↔ [j, b] = u.bucket f ∧ i < n := by
    simp only [Lookup.bucket, List.cons_append, List.nil_append, List.cons.injEq, and_true]
    constructor
    · rintro ⟨i', hi, hj, hb, rfl⟩; exact ⟨⟨hj, hb⟩, hi⟩
    · rintro ⟨⟨hj, hb⟩, hi⟩; exact ⟨i, hi, hj, hb, rfl⟩
  have byte : (if i < key.length then key.getD i 0 else 0) = key.getD i 0 := by
    split
    · rfl
    · rename_i h; rw [List.getD_eq_default _ _ (Nat.not_lt.mp h)]
  rw [read_keyWrite_keyb]
  simp only [at_byte, List.getLastD_cons, List.getLastD_nil, byte]

/-! ## What the change keeps -/

namespace Storage.SlotUpdate
variable {u : Lookup} {n : Nat} {key : List Byte} {t t' : Storage}

/-- A claimed bucket stays claimed (R45 item 4). -/
theorem occ_stays (h : SlotUpdate u n key t t') {k : Index} (hk : t.occ.read k = 1#1) : t'.occ.read k = 1#1 := by
  cases h with
  | same keys _ => rw [keys.occ, hk]
  | add _ _ _ _ _ keys _ => rw [keys.occ, hk]
  | place _ _ _ _ _ keys _ => rw [keys.occ, keyWrite_occ, Cells.read_write, hk, ite_self]

/-- The invariants of a bucket are kept, for a key of a legal length (R45 items 2 and 3, R38). -/
theorem slotOk (h : SlotUpdate u n key t t') (hpos : 1 ≤ key.length) (hlen : key.length ≤ n) (hn : n ≤ 255) {j b : Nat}
    (ok : t.SlotOk n j b) : t'.SlotOk n j b := by
  cases h with
  | same keys val => exact ok.congr (by rw [keys.occ]) (by rw [keys.kls]) (by rw [val]) fun _ => by rw [keys.keyb]
  | @add f v _ held _ pos fits keys val =>
    by_cases hb : [j, b] = u.bucket f
    · have occ : t'.occ.read [j, b] = 1#1 := by rw [keys.occ, hb]; exact ((keyEq_iff t u key f).mp held).1
      have new : (t'.val.read [j, b]).toNat = v := by
        rw [val, hb, Cells.read_write_same, BitVec.toNat_ofNat, Nat.mod_eq_of_lt fits]
      exact { empty := fun h => absurd (occ.symm.trans h) (by decide)
              positive := fun _ => by rw [new]; exact pos
              klen := fun _ => by rw [keys.kls]; exact ok.klen (keys.occ ▸ occ)
              padded := fun i hi => by rw [keys.keyb]; exact ok.padded i (by rwa [keys.kls] at hi) }
    · exact ok.congr (by rw [keys.occ]) (by rw [keys.kls]) (by rw [val, Cells.read_write_other _ _ hb]) fun _ => by
        rw [keys.keyb]
  | @place f v _ _ _ pos fits keys val =>
    by_cases hb : [j, b] = u.bucket f
    · have occ : t'.occ.read [j, b] = 1#1 := by rw [keys.occ, keyWrite_occ, hb, Cells.read_write_same]
      have new : (t'.val.read [j, b]).toNat = v := by
        rw [val, hb, Cells.read_write_same, BitVec.toNat_ofNat, Nat.mod_eq_of_lt fits]
      have kls : (t'.kls.read [j, b]).toNat = key.length := by
        rw [keys.kls, keyWrite_kls, hb, Cells.read_write_same, BitVec.toNat_ofNat, Nat.mod_eq_of_lt (by omega)]
      refine { empty := fun h => absurd (occ.symm.trans h) (by decide), positive := fun _ => by rw [new]; exact pos,
               klen := fun _ => by rw [kls]; exact ⟨hpos, hlen⟩, padded := fun i hi => ?_ }
      rw [kls] at hi
      rw [keys.keyb, keyWrite_keyb_read]
      split
      · exact List.getD_eq_default _ _ hi
      · rename_i beyond
        exact ok.padded i (ok.klen_le.trans (Nat.not_lt.mp fun hi => beyond ⟨hb, hi⟩))
    · refine ok.congr ?_ ?_ (by rw [val, Cells.read_write_other _ _ hb]) fun i => ?_
      · rw [keys.occ, keyWrite_occ, Cells.read_write_other _ _ hb]
      · rw [keys.kls, keyWrite_kls, Cells.read_write_other _ _ hb]
      · rw [keys.keyb, keyWrite_keyb_read, if_neg fun h => hb h.1]

/-- Where a VAL falls, the bucket has another key (R45 item 4, R154): the bucket was claimed, since its VAL was not 0, by
a key other than the one that is put into it. -/
theorem key_replaced (h : SlotUpdate u n key t t') (hlen : key.length ≤ n) (hn : n ≤ 255) {j b : Nat}
    (ok : t.SlotOk n j b) (falls : (t'.val.read [j, b]).toNat < (t.val.read [j, b]).toNat) :
    t'.kls.read [j, b] ≠ t.kls.read [j, b] ∨ ∃ i, t'.keyb.read [j, b, i] ≠ t.keyb.read [j, b, i] := by
  cases h with
  | same _ val => rw [val] at falls; exact absurd falls (lt_irrefl _)
  | @add f v _ _ rises _ fits _ val =>
    rw [val, Cells.read_write] at falls
    split at falls
    · rename_i hb
      rw [hb, BitVec.toNat_ofNat, Nat.mod_eq_of_lt fits] at falls
      exact absurd rises (Nat.not_le.mpr falls)
    · exact absurd falls (lt_irrefl _)
  | @place f v layer absent _ _ _ keys val =>
    by_cases hb : [j, b] = u.bucket f
    · have occ : t.occ.read [j, b] = 1#1 := (bit_cases _).resolve_left fun h => by
        rw [(ok.empty h).2.1] at falls; exact absurd falls (Nat.not_lt_zero _)
      by_contra unchanged
      push Not at unchanged
      obtain ⟨same_kls, same_keyb⟩ := unchanged
      refine absurd ((keyEq_iff t u key f).mpr ⟨hb ▸ occ, ?_, fun i hi => ?_⟩) (by simp [absent f layer])
      · rw [← hb, ← same_kls, keys.kls, keyWrite_kls, hb, Cells.read_write_same, BitVec.toNat_ofNat,
          Nat.mod_eq_of_lt (by omega)]
      · rw [← hb]
        show t.keyb.read [j, b, i] = _
        rw [← same_keyb, keys.keyb, keyWrite_keyb_read, if_pos ⟨hb, hi.trans_le hlen⟩]
    · rw [val, Cells.read_write_other _ _ hb] at falls
      exact absurd falls (lt_irrefl _)

end Storage.SlotUpdate

/-! ## First fit -/

/-- First fit speaks of the key fields only (R45 item 5). -/
theorem Storage.SameKeys.firstFit {t t' : Storage} {c : Csrs} {h : List Byte → Nat → Nat} (keys : t.SameKeys t')
    (ff : t.firstFit c h) : t'.firstFit c h := by
  intro key f hf held g hg
  rw [keys.keyEq] at held ⊢
  rw [keys.occ]
  exact ff key f hf held g hg

/-- Putting a key into one of its candidate buckets keeps first fit, where none of them held it and the lower ones are
claimed (R45 item 5). A key that was held before stays behind buckets claimed by others: the bucket written holds the new
key, and no other. -/
theorem keyWrite_firstFit {t : Storage} {c : Csrs} {h : List Byte → Nat → Nat} {n f : Nat} {key : List Byte}
    (hlen : key.length ≤ n) (hn : n ≤ 255) (layer : f < c.cfgM.toNat)
    (absent : ∀ j < c.cfgM.toNat, t.keyEq (c.lookup (h key)) key j = false)
    (below : ∀ g < f, t.occ.read ((c.lookup (h key)).bucket g) = 1#1) (ff : t.firstFit c h) :
    (t.keyWrite (c.lookup (h key)) n key f).firstFit c h := by
  have occ_stays : ∀ k, t.occ.read k = 1#1 → (t.keyWrite (c.lookup (h key)) n key f).occ.read k = 1#1 := fun k hk => by
    rw [keyWrite_occ, Cells.read_write, hk, ite_self]
  intro key' f' hf' held g hg
  by_cases hb : (c.lookup (h key')).bucket f' = (c.lookup (h key)).bucket f
  · obtain rfl := Lookup.bucket_inj hb
    rw [keyEq_keyWrite_same t _ _ key key' f' hb hlen hn, decide_eq_true_eq] at held
    subst held
    refine ⟨occ_stays _ (below g hg), ?_⟩
    rw [keyEq_keyWrite_other t _ _ key' key' f' g fun e => hg.ne (Lookup.bucket_inj e)]
    exact absent g (hg.trans layer)
  · rw [keyEq_keyWrite_other t _ _ key key' f f' hb] at held
    obtain ⟨claimed, other⟩ := ff key' f' hf' held g hg
    refine ⟨occ_stays _ claimed, ?_⟩
    by_cases hgb : (c.lookup (h key')).bucket g = (c.lookup (h key)).bucket f
    · obtain rfl := Lookup.bucket_inj hgb
      rw [keyEq_keyWrite_same t _ _ key key' g hgb hlen hn, decide_eq_false_iff_not]
      rintro rfl
      rw [absent f' hf'] at held
      exact Bool.false_ne_true held
    · rw [keyEq_keyWrite_other t _ _ key key' f g hgb, other]

/-- One INSERT of a key keeps first fit, where the provider answers it as it answers every other (R45 item 5). -/
theorem Storage.SlotUpdate.firstFit {t t' : Storage} {c : Csrs} {h : List Byte → Nat → Nat} {n : Nat} {key : List Byte}
    (hu : Storage.SlotUpdate (c.lookup (h key)) n key t t') (hlen : key.length ≤ n) (hn : n ≤ 255)
    (ff : t.firstFit c h) : t'.firstFit c h := by
  cases hu with
  | same keys _ => exact keys.firstFit ff
  | add _ _ _ _ _ keys _ => exact keys.firstFit ff
  | place layer absent below _ _ keys _ => exact keys.firstFit (keyWrite_firstFit hlen hn layer absent below ff)

/-! ## The invariants of the storage -/

theorem keyMaxLen_le_of_legal {p : Params} (h : p.legal) : p.keyMaxLen ≤ 255 := by
  obtain ⟨-, -, -, -, -, -, -, -, le⟩ := h
  exact le

theorem Storage.Inv.of_slotOk {t : Storage} {c : Csrs} {n : Nat} (ok : ∀ j b, t.SlotOk n j b) (c16 : t.c16Claimed)
    (sized : t.Sized c n) : t.Inv c n where
  unclaimed j b := (ok j b).empty
  claimed j b := (ok j b).positive
  c16 := c16
  keys := ⟨fun j b => (ok j b).klen, fun j b => (ok j b).padded⟩
  sized := sized

/-- INSERT keeps 16-bit counters to claimed buckets (R45 item 6). -/
theorem insertLight_c16Claimed (r : Request) (n : Nat) {t : Storage} (h : t.c16Claimed) :
    (insertLight r n t).1.c16Claimed := by
  intro j b i hne
  refine (insertLight_slotUpdate r n t).occ_stays ?_
  rcases insertLight_c16_same_or_claimed r n t with same | claimed
  · exact h j b i (same ▸ hne)
  · rcases (insertLight_writesWithin r n t).c16.nonzero hne with old | probed
    · exact h j b i old
    · obtain ⟨l, hl, e⟩ := Lookup.mem_c16Probes.mp probed
      simp only [List.cons.injEq, and_true] at e
      obtain ⟨rfl, rfl, -⟩ := e
      exact claimed j hl

/-- INSERT keeps the invariants of the storage, for a legal configuration and a key of a legal length (R45, R38). -/
theorem insertLight_inv {s : State} {key : List Byte} (count : Nat) (hv : s.cfgValid = true) (hpos : 1 ≤ key.length)
    (hlen : key.length ≤ s.inst.keyMaxLen) (hn : s.inst.keyMaxLen ≤ 255) (h : s.store.Inv s.csr s.inst.keyMaxLen) :
    (insertLight (s.asks key) count s.store).1.Inv s.csr s.inst.keyMaxLen := by
  obtain ⟨-, -, hLL, hB, hH, h8, h16⟩ := cfgValid_pos hv
  exact .of_slotOk
    (fun j b => (insertLight_slotUpdate (s.asks key) count s.store).slotOk hpos hlen hn (h.slotOk j b))
    (insertLight_c16Claimed _ _ h.c16)
    ((insertLight_writesWithin (s.asks key) count s.store).sized hLL hB hH h8 h16 h.sized)

/-- A cleared storage has the invariants, whatever the configured sizes (R40, R176). -/
theorem cleared_inv (c : Csrs) (n : Nat) : Storage.cleared.Inv c n :=
  .of_slotOk
    (fun _ _ => { empty := fun _ => ⟨rfl, rfl, fun _ => rfl⟩, positive := nofun, klen := nofun, padded := fun _ _ => rfl })
    (fun _ _ _ h => absurd rfl h)
    ⟨fun _ h => absurd rfl h, fun _ h => absurd rfl h, fun _ h => absurd rfl h, fun _ h => absurd rfl h,
      fun _ h => absurd rfl h, fun _ h => absurd rfl h, fun _ h => absurd rfl h, fun _ h => absurd rfl h⟩

/-- No bucket of a cleared storage holds a key, so first fit holds there. -/
theorem cleared_firstFit (c : Csrs) (h : List Byte → Nat → Nat) : Storage.cleared.firstFit c h :=
  fun _ _ _ held => absurd (show 0#1 = 1#1 from ((keyEq_iff _ _ _ _).mp held).1) (by decide)

end Sys2Proof.Machine
end

section
/-! SUPPORT. What one edge leaves of the machine's invariants (R24, R34, R41, R45, R200): the acceptance of a command,
inverted once, the reset, the CSR access and the delivery, and from them the statements about every step. -/

namespace Sys2Proof.Machine

/-! ## The acceptance of a command, said once -/

/-- What the acceptance of a command in an idle block comes to (R202): a refusal, with CFG_LOCK set by a CONFIGURE (R34);
the cleared storage of a CONFIGURE; or a keyed command that has run. -/
inductive Accepted (c : Command) (s : State) : State → Prop where
  | refused {st : Status} (failed : st ≠ .ok) : Accepted c s (s.refuse st)
  | lockRefused {st : Status} (failed : st ≠ .ok) : Accepted c s (s.lock.refuse st)
  | configured (fresh : s.csr.configured = false) (valid : s.cfgValid = true) :
      Accepted c s (s.lock.configureStorage.respond .ok 0)
  | inserted {klen : BitVec 8} {p : List Byte} {count : Word32}
      (decodes : decode c.word c.payload = .command (.insert klen p count)) (serves : s.serves klen) :
      Accepted c s (State.respond
        { s.latched (.insert klen p count) klen p with
          store := (insertLight (s.asks (keyOf klen p)) count.toNat s.store).1 } .ok
        (insertLight (s.asks (keyOf klen p)) count.toNat s.store).2)
  | queried {klen : BitVec 8} {p : List Byte} (serves : s.serves klen) :
      Accepted c s ((s.latched (.query klen p) klen p).respond .ok (queryLight (s.asks (keyOf klen p)) s.store))

theorem acceptCommand_accepted {c : Command} {s t : State} (h : acceptCommand c s = .next t) : Accepted c s t := by
  rcases acceptCommand_cases h with ⟨-, rfl⟩ | ⟨-, rfl⟩ | ⟨i, decodes, hi⟩
  · exact .refused (by decide)
  · unfold lockIfConfigure
    split
    · exact .lockRefused (by decide)
    · exact .refused (by decide)
  · cases i with
    | insert klen p count =>
      rcases execInsert_next hi with ⟨-, failed, rfl⟩ | ⟨serves, rfl⟩
      · exact .refused failed
      · exact .inserted decodes serves
    | query klen p =>
      rcases execQuery_next hi with ⟨-, failed, rfl⟩ | ⟨serves, rfl⟩
      · exact .refused failed
      · exact .queried serves
    | configure =>
      rcases execConfigure_next hi with ⟨-, failed, rfl⟩ | ⟨⟨fresh, valid⟩, rfl⟩
      · exact .lockRefused failed
      · exact .configured fresh valid

/-- An INSERT is decoded with the KLEN of its word and the payload as sent (R76). -/
theorem decode_insert {w : Word64} {payload p : List Byte} {klen : BitVec 8} {count : Word32}
    (h : decode w payload = .command (.insert klen p count)) : klen = klenOf w ∧ p = payload := by
  unfold decode at h
  split at h
  · split at h
    · obtain ⟨rfl, rfl, -⟩ := Instr.insert.inj (Decoded.command.inj h)
      exact ⟨rfl, rfl⟩
    · cases h
  · repeat' split at h
    all_goals cases h

/-! ## The invariants of a block that is about to answer -/

/-- The invariants without the FSM state and the response: they hold while a command is answered. -/
structure Answerable (s : State) : Prop where
  legal : s.inst.legal
  cfgd : s.seq.cfgd = s.csr.configured
  valid : s.csr.configured = true → s.cfgValid = true
  locked : s.csr.configured = true → s.csr.cfgLock = true
  lastStatus : s.csr.lastStatus.toNat ≤ 6
  keyLanes : s.seq.key.length = s.inst.keyMaxLen
  hvWf : s.seq.hv.wf = true
  storeWf : s.store.wf
  tiers : s.csr.configured = true → s.store.Inv s.csr s.inst.keyMaxLen

theorem Inv.answerable {s : State} (h : Inv s) : Answerable s :=
  { h with lastStatus := h.codes.1 }

theorem Status.code_le (st : Status) : st.code.toNat ≤ 6 := by cases st <;> decide

namespace Answerable
variable {s : State}

/-- Ending a command gives the invariants back, with the estimate 0 for an error (R203) and one in range otherwise. -/
theorem respond (h : Answerable s) (st : Status) {est : Nat} (err : st ≠ .ok → est = 0) (le : est ≤ 4295033097) :
    Inv (s.respond st est) where
  legal := h.legal
  settled := .inr (.inr rfl)
  uncfg := nofun
  idle := nofun
  cfgd := h.cfgd
  valid := h.valid
  locked := h.locked
  lockIdle hne := absurd rfl hne
  codes := ⟨h.lastStatus, st.code_le⟩
  errEst hne := by
    rw [respond_rspEst, err (by rintro rfl; exact hne rfl)]
    rfl
  est := by rw [respond_rspEst, BitVec.toNat_ofNat]; exact (Nat.mod_le _ _).trans le
  keyLanes := h.keyLanes
  hvWf := h.hvWf
  storeWf := h.storeWf
  tiers := h.tiers

theorem refuse (h : Answerable s) (st : Status) : Inv (s.refuse st) := h.respond st (fun _ => rfl) (Nat.zero_le _)

theorem lock (h : Answerable s) : Answerable s.lock :=
  { h with locked := fun _ => rfl, tiers := fun hc => { h.tiers hc with sized := { (h.tiers hc).sized with } } }

/-- A legal configuration and a cleared storage (R176). -/
theorem configureStorage (h : Answerable s) (valid : s.cfgValid = true) (locked : s.csr.cfgLock = true) :
    Answerable s.configureStorage :=
  { h with
    cfgd := rfl
    valid := fun _ => valid
    locked := fun _ => locked
    storeWf := ⟨rfl, rfl, rfl, rfl, rfl, rfl, rfl, rfl⟩
    tiers := fun _ => cleared_inv _ _ }

/-- Latching a command, its key and its hash values (R101, R191). -/
theorem latched (h : Answerable s) (i : Instr) (klen : BitVec 8) (p : List Byte) : Answerable (s.latched i klen p) where
  legal := by rw [latched_inst]; exact h.legal
  cfgd := by rw [latched_csr, State.latched, latchHashes_seq]; exact h.cfgd
  valid := by rw [State.cfgValid, latched_csr, latched_inst]; exact h.valid
  locked := by rw [latched_csr]; exact h.locked
  lastStatus := by rw [latched_csr]; exact h.lastStatus
  keyLanes := by rw [latched_inst, State.latched, latchHashes_seq]; exact onKeyLanes_length _ _
  hvWf := wf_latchHashes _ _ h.hvWf
  storeWf := by rw [latched_store]; exact h.storeWf
  tiers := by rw [latched_csr, latched_inst, latched_store]; exact h.tiers

/-- Writing the storage (R172). -/
theorem withStore (h : Answerable s) {t : Storage} (wf : t.wf)
    (inv : s.csr.configured = true → t.Inv s.csr s.inst.keyMaxLen) : Answerable { s with store := t } :=
  { h with storeWf := wf, tiers := inv }

end Answerable

/-! ## The invariants are kept -/

/-- Accepting a command keeps the invariants (R45, R202). -/
theorem Accepted.inv {c : Command} {s t : State} (h : Accepted c s t) (hi : Inv s) : Inv t := by
  have ready := hi.answerable
  cases h with
  | refused _ => exact ready.refuse _
  | lockRefused _ => exact ready.lock.refuse _
  | configured _ valid => exact (ready.lock.configureStorage valid rfl).respond .ok (fun _ => rfl) (Nat.zero_le _)
  | @inserted klen p count _ serves =>
    obtain ⟨conf, valid, kpos, kle⟩ := serves
    refine Answerable.respond ((ready.latched _ _ _).withStore (insertLight_wf _ _ hi.storeWf) fun _ => ?_) .ok
      (fun h => absurd rfl h) (insertLight_est_le _ _ _)
    rw [latched_csr, latched_inst]
    exact insertLight_inv count.toNat valid (by rwa [keyOf_length]) (by rwa [keyOf_length])
      (keyMaxLen_le_of_legal hi.legal) (hi.tiers conf)
  | queried _ => exact (ready.latched _ _ _).respond .ok (fun h => absurd rfl h) (queryLight_le _ _)

/-- A block at its reset values, with any canonical storage, has the invariants (R44, R220). -/
theorem inv_of_reset {s : State} (legal : s.inst.legal) (csr : s.csr = Csrs.reset) (seq : s.seq = Sequencer.reset s.inst)
    (wf : s.store.wf) : Inv s where
  legal := legal
  settled := by rw [seq]; exact .inl rfl
  uncfg _ := by rw [csr]; rfl
  idle := by rw [seq]; nofun
  cfgd := by rw [seq, csr]; rfl
  valid := by rw [csr]; nofun
  locked := by rw [csr]; nofun
  lockIdle _ := by rw [csr]; rfl
  codes := by rw [seq, csr]; exact ⟨Nat.zero_le _, Nat.zero_le _⟩
  errEst := by rw [seq]; exact fun h => absurd rfl h
  est := by rw [seq]; exact Nat.zero_le _
  keyLanes := by rw [seq]; exact List.length_replicate
  hvWf := by rw [seq]; rfl
  storeWf := wf
  tiers := by rw [csr]; nofun

theorem unspecified_wf (n : Nat) : (Storage.unspecified n).wf :=
  ⟨Cells.wf_ofWrites _, Cells.wf_ofWrites _, Cells.wf_ofWrites _, Cells.wf_ofWrites _, Cells.wf_ofWrites _,
    Cells.wf_ofWrites _, Cells.wf_ofWrites _, Cells.wf_ofWrites _⟩

/-- A reset edge gives the invariants, in whatever state it comes (R220). -/
theorem resetEdge_inv {s : State} (legal : s.inst.legal) : Inv s.resetEdge :=
  inv_of_reset legal rfl rfl (unspecified_wf _)

theorem dropEdge_inv {s : State} (h : Inv s) : Inv s.dropEdge := { h with }

/-- A CSR access keeps the invariants: while the block is configured it changes no register (R34). -/
theorem csrPort_inv {s : State} (a : Option CsrAccess) (h : Inv s) : Inv (csrPort a s) := by
  obtain ⟨configured, cfgLock, lastStatus, fixed⟩ := csrPort_csr a s
  have same : s.csr.configured = true → (csrPort a s).csr = s.csr := fun hc => fixed (h.locked hc)
  exact
    { legal := by rw [csrPort_inst]; exact h.legal
      settled := by rw [csrPort_seq]; exact h.settled
      uncfg := by rw [csrPort_seq, configured]; exact h.uncfg
      idle := by rw [csrPort_seq, configured]; exact h.idle
      cfgd := by rw [csrPort_seq, configured]; exact h.cfgd
      valid := fun hc => by
        rw [configured] at hc
        rw [State.cfgValid, same hc, csrPort_inst]; exact h.valid hc
      locked := by rw [configured, cfgLock]; exact h.locked
      lockIdle := by rw [csrPort_seq, configured, cfgLock]; exact h.lockIdle
      codes := by rw [csrPort_seq, lastStatus]; exact h.codes
      errEst := by rw [csrPort_seq]; exact h.errEst
      est := by rw [csrPort_seq]; exact h.est
      keyLanes := by rw [csrPort_seq, csrPort_inst]; exact h.keyLanes
      hvWf := by rw [csrPort_seq]; exact h.hvWf
      storeWf := by rw [csrPort_store]; exact h.storeWf
      tiers := fun hc => by
        rw [configured] at hc
        rw [same hc, csrPort_store, csrPort_inst]; exact h.tiers hc }

/-- Taking a response keeps the invariants (R180). -/
theorem deliver_inv {s : State} (h : Inv s) : Inv s.deliver := by
  have fsm : s.deliver.seq.fsm = if s.csr.configured then .idle else .uncfg := by rw [← h.cfgd]; rfl
  exact
    { h with
      settled := by rw [fsm]; cases s.csr.configured <;> decide
      uncfg := by rw [fsm, deliver_configured]; cases s.csr.configured <;> decide
      idle := by rw [fsm, deliver_configured]; cases s.csr.configured <;> decide
      locked := id
      lockIdle := fun _ => rfl
      codes := ⟨h.codes.2, h.codes.2⟩
      tiers := fun hc => { h.tiers hc with sized := { (h.tiers hc).sized with } } }

/-- Every step keeps the invariants: each of the events of an edge does (R210). -/
theorem step_inv {s t : State} (h : Inv s) (ht : step s = .next t) : Inv t := by
  have port := csrPort_inv s.nextEdge.csr (dropEdge_inv h)
  by_cases hr : s.nextEdge.rst = true
  · rw [step_reset hr] at ht
    injection ht with ht
    exact ht ▸ resetEdge_inv h.legal
  · rcases step_cases h.settled (Bool.eq_false_iff.mpr hr) ht with rfl | ⟨-, rfl⟩ | ⟨-, c, -, hc⟩
    · exact port
    · exact deliver_inv port
    · exact (acceptCommand_accepted hc).inv port

/-! ## What a step does to the configuration and the storage -/

/-- Accepting a command leaves the built maxima. -/
theorem Accepted.inst {c : Command} {s t : State} (h : Accepted c s t) : t.inst = s.inst := by
  cases h with
  | refused _ => rfl
  | lockRefused _ => rfl
  | configured _ _ => rfl
  | inserted _ _ => exact latched_inst s _ _ _
  | queried _ => exact latched_inst s _ _ _

/-- Accepting a command in a configured block leaves every CSR (R34). -/
theorem Accepted.csr {c : Command} {s t : State} (h : Accepted c s t) (conf : s.csr.configured = true)
    (locked : s.csr.cfgLock = true) : t.csr = s.csr := by
  have lock : s.lock.csr = s.csr := by rw [State.lock, ← locked]
  cases h with
  | refused _ => rfl
  | lockRefused _ => exact lock
  | configured fresh _ => rw [conf] at fresh; cases fresh
  | inserted _ _ => exact latched_csr s _ _ _
  | queried _ => exact latched_csr s _ _ _

/-- A block that is not configured has a CONFIGURE's cleared storage if accepting a command configures it (R176). -/
theorem Accepted.store_of_fresh {c : Command} {s t : State} (h : Accepted c s t) (fresh : s.csr.configured = false)
    (conf : t.csr.configured = true) : t.store = Storage.cleared := by
  cases h with
  | refused _ => exact absurd (fresh.symm.trans conf) Bool.false_ne_true
  | lockRefused _ => exact absurd (fresh.symm.trans conf) Bool.false_ne_true
  | configured _ _ => rfl
  | inserted _ serves => exact absurd (fresh.symm.trans serves.1) Bool.false_ne_true
  | queried serves => exact absurd (fresh.symm.trans serves.1) Bool.false_ne_true

/-- A step that inserts: the INSERT accepted at the edge, with a key of a legal length. -/
structure Inserts (s t : State) (c : Command) (key : List Byte) (count : Nat) : Prop where
  cmd : s.nextEdge.cmd = some c
  sent : key = keyOf (klenOf c.word) c.payload
  pos : 1 ≤ key.length
  le : key.length ≤ s.inst.keyMaxLen
  store : t.store = (insertLight (s.asks key) count s.store).1

/-- Accepting a command in a configured block leaves the storage, or runs an INSERT on it. -/
theorem Accepted.store {c : Command} {s t : State} (h : Accepted c s t) (conf : s.csr.configured = true) :
    t.store = s.store ∨ ∃ klen p count, decode c.word c.payload = .command (.insert klen p count) ∧ s.klenLegal klen ∧
      t.store = (insertLight (s.asks (keyOf klen p)) count.toNat s.store).1 := by
  cases h with
  | refused _ => exact .inl rfl
  | lockRefused _ => exact .inl rfl
  | configured fresh _ => rw [conf] at fresh; cases fresh
  | inserted decodes serves => exact .inr ⟨_, _, _, decodes, serves.2.2, rfl⟩
  | queried _ => exact .inl (latched_store s _ _ _)

section step
variable {s t : State} (h : Inv s)
include h

/-- The state in which a configured block accepts a command has the storage and the configuration of the one before the
edge, and what a command asks of the storage is the same (R34, R210). -/
theorem csrPort_configured (conf : s.csr.configured = true) :
    (csrPort s.nextEdge.csr s.dropEdge).csr = s.csr ∧
      ∀ key, (csrPort s.nextEdge.csr s.dropEdge).asks key = s.asks key := by
  obtain ⟨-, -, -, fixed⟩ := csrPort_csr s.nextEdge.csr s.dropEdge
  have same : (csrPort s.nextEdge.csr s.dropEdge).csr = s.csr := fixed (h.locked conf)
  refine ⟨same, fun key => ?_⟩
  have draws : (csrPort s.nextEdge.csr s.dropEdge).port.draws = s.port.draws := by rw [csrPort_port]; rfl
  simp only [State.asks, State.probes, State.hashOf, same, draws, csrPort_inst, dropEdge_inst]

/-- While configured, an edge without reset leaves the storage or runs one INSERT on it (R45). -/
theorem step_store (conf : s.csr.configured = true) (hr : s.nextEdge.rst = false) (ht : step s = .next t) :
    t.store = s.store ∨ ∃ c key count, Inserts s t c key count := by
  obtain ⟨csr, asks⟩ := csrPort_configured h conf
  have port : (csrPort s.nextEdge.csr s.dropEdge).store = s.store := by rw [csrPort_store, dropEdge_store]
  rcases step_cases h.settled hr ht with rfl | ⟨-, rfl⟩ | ⟨-, c, cmd, hc⟩
  · exact .inl port
  · exact .inl port
  · rcases (acceptCommand_accepted hc).store (by rw [csr]; exact conf) with same | ⟨klen, p, count, decodes, legal, store⟩
    · exact .inl (same.trans port)
    · obtain ⟨rfl, rfl⟩ := decode_insert decodes
      rw [asks, port] at store
      rw [State.klenLegal, csrPort_inst, dropEdge_inst] at legal
      rw [← keyOf_length (klenOf c.word) c.payload] at legal
      exact .inr ⟨c, _, _, ⟨cmd, rfl, legal.1, legal.2, store⟩⟩

/-- No step changes the built maxima (R7). -/
theorem step_inst (ht : step s = .next t) : t.inst = s.inst := by
  have port : (csrPort s.nextEdge.csr s.dropEdge).inst = s.inst := by rw [csrPort_inst, dropEdge_inst]
  by_cases hr : s.nextEdge.rst = true
  · rw [step_reset hr] at ht
    injection ht with ht
    exact ht ▸ rfl
  · rcases step_cases h.settled (Bool.eq_false_iff.mpr hr) ht with rfl | ⟨-, rfl⟩ | ⟨-, c, -, hc⟩
    · exact port
    · exact port
    · exact (acceptCommand_accepted hc).inst.trans port

/-- While configured, an edge without reset changes no CSR but LAST_STATUS (R34, R180). -/
theorem step_csr (conf : s.csr.configured = true) (hr : s.nextEdge.rst = false) (ht : step s = .next t) :
    t.csr = { s.csr with lastStatus := t.csr.lastStatus } := by
  have csr := (csrPort_configured h conf).1
  rcases step_cases h.settled hr ht with rfl | ⟨-, rfl⟩ | ⟨-, c, -, hc⟩
  · rw [csr]
  · have lock : s.csr.configured = s.csr.cfgLock := conf.trans (h.locked conf).symm
    simp only [State.deliver, csr, lock]
  · rw [(acceptCommand_accepted hc).csr (by rw [csr]; exact conf) (by rw [csr]; exact h.locked conf), csr]

/-- A step that configures the block clears its storage (R176). -/
theorem step_configures (fresh : s.csr.configured = false) (ht : step s = .next t) (conf : t.csr.configured = true) :
    t.store = Storage.cleared := by
  have port : (csrPort s.nextEdge.csr s.dropEdge).csr.configured = false := (csrPort_csr _ s.dropEdge).1.trans fresh
  by_cases hr : s.nextEdge.rst = true
  · rw [step_reset hr] at ht
    injection ht with ht
    subst ht
    cases conf
  · rcases step_cases h.settled (Bool.eq_false_iff.mpr hr) ht with rfl | ⟨-, rfl⟩ | ⟨-, c, -, hc⟩
    · exact absurd (port.symm.trans conf) Bool.false_ne_true
    · exact absurd (port.symm.trans conf) Bool.false_ne_true
    · exact (acceptCommand_accepted hc).store_of_fresh port conf

end step

/-! ## First fit over a step -/

/-- First fit depends on the configured sizes and not on STATUS. -/
theorem firstFit_lastStatus {t : Storage} {c : Csrs} {h : List Byte → Nat → Nat} (st : BitVec 4) (ff : t.firstFit c h) :
    t.firstFit { c with lastStatus := st } h := ff

/-- An INSERT whose hash values are those of the provider `h` keeps first fit (R45 item 5). -/
theorem insertLight_firstFit {s : State} {h : List Byte → Nat → Nat} {key : List Byte} (count : Nat)
    (le : key.length ≤ s.inst.keyMaxLen) (legal : s.inst.legal)
    (answers : ∀ i < s.csr.seeds, (s.hashOf key i).toNat = h key i) (ff : s.store.firstFit s.csr h) :
    (insertLight (s.asks key) count s.store).1.firstFit s.csr h := by
  have update := insertLight_slotUpdate (s.asks key) count s.store
  have look : (s.asks key).look = s.csr.lookup (h key) := lookup_congr s.csr answers
  rw [look] at update
  exact update.firstFit le (keyMaxLen_le_of_legal legal) ff

end Sys2Proof.Machine
end

section
/-! SUPPORT. The statements about the machine state and its invariants (10_state.md). -/

namespace Sys2Proof.Machine

/-! ## The STATUS word (R24) -/

/-- The bits of STATUS, field by field (R24). -/
theorem getLsbD_statusWord (s : State) (i : Nat) :
    s.statusWord.getLsbD i =
      if i = 0 then s.csr.configured else if i = 1 then s.busy else if i = 2 then s.csr.cfgLock
      else if i < 8 then false else if i < 12 then s.csr.lastStatus.getLsbD (i - 8) else false := by
  show BitVec.getLsbD (w := 20 + 4 + 5 + 1 + 1 + 1) (0#20 ++ s.csr.lastStatus ++ 0#5 ++ BitVec.ofBool s.csr.cfgLock ++
    BitVec.ofBool s.busy ++ BitVec.ofBool s.csr.configured) i = _
  simp only [BitVec.getLsbD_append, BitVec.getLsbD_ofBool, BitVec.getLsbD_zero, Nat.sub_sub]
  rcases i with _ | _ | _ | i
  · simp
  · simp
  · simp
  · by_cases h₈ : i < 5
    · simp [h₈, show i + 3 < 8 by omega]
    · by_cases h₁₂ : i < 9
      · simp [h₈, show ¬i + 3 < 8 by omega, show i + 3 < 12 by omega, show i - 5 < 4 by omega]
      · simp [h₈, show ¬i + 3 < 8 by omega, show ¬i + 3 < 12 by omega, show ¬i - 5 < 4 by omega]

/-- BUSY is 1 outside UNCFG and IDLE (R194). -/
theorem busy_iff (s : State) : s.busy = true ↔ s.seq.fsm ≠ .uncfg ∧ s.seq.fsm ≠ .idle := by
  simp [State.busy, Fsm.accepting]

/-- Settles O16, from the bits of STATUS field by field. -/
theorem statusFields : Obligations.StatusFields := by
  unfold Obligations.StatusFields
  intro s
  have field : ∀ {a n : Nat} {x : BitVec n}, (∀ i < n, s.statusWord.getLsbD (a + i) = x.getLsbD i) →
      s.statusWord.extractLsb' a n = x := fun h =>
    BitVec.eq_of_getLsbD_eq fun i hi => by rw [BitVec.getLsbD_extractLsb', decide_eq_true hi, Bool.true_and, h i hi]
  refine ⟨getLsbD_statusWord s 0, ?_, getLsbD_statusWord s 2, field fun i hi => ?_, field fun i hi => ?_,
    field fun i hi => ?_⟩
  · rw [← busy_iff, getLsbD_statusWord]; rfl
  · rw [getLsbD_statusWord, if_neg (by omega), if_neg (by omega), if_neg (by omega), if_pos (by omega)]
    exact BitVec.getLsbD_zero.symm
  · rw [getLsbD_statusWord, if_neg (by omega), if_neg (by omega), if_neg (by omega), if_neg (by omega),
      if_pos (by omega), Nat.add_sub_cancel_left]
  · rw [getLsbD_statusWord, if_neg (by omega), if_neg (by omega), if_neg (by omega), if_neg (by omega),
      if_neg (by omega)]
    exact BitVec.getLsbD_zero.symm

/-! ## Reset -/

/-- Settles O12: each value is read off State.reset. -/
theorem resetStateHasTheResetValues : Obligations.ResetStateHasTheResetValues := by
  unfold Obligations.ResetStateHasTheResetValues
  refine ⟨rfl, rfl, ?_, rfl, rfl, rfl, rfl, rfl⟩
  intro a ha
  fin_cases ha <;> rfl

/-- The maxima of State.reset lie in R7's ranges. -/
theorem params_legal : Config.params.legal := by
  have ranges : ∀ {n : Nat} (i : Fin n), 1 ≤ i.val + 1 ∧ i.val + 1 ≤ n := fun i => ⟨Nat.succ_pos _, i.isLt⟩
  have wide : ∀ i : Fin 4294967295, 1 ≤ i.val + 1 ∧ i.val + 1 < 2 ^ 32 := fun i => ⟨Nat.succ_pos _, by omega⟩
  exact ⟨ranges _, ranges _, wide _, wide _, wide _, wide _, wide _, ranges _⟩

/-- Settles O47: a block at its reset values has the invariants. -/
theorem invariantHoldsAtReset : Obligations.InvariantHoldsAtReset := by
  unfold Obligations.InvariantHoldsAtReset
  have wf : Storage.cleared.wf := ⟨rfl, rfl, rfl, rfl, rfl, rfl, rfl, rfl⟩
  exact ⟨inv_of_reset params_legal rfl rfl wf, fun p outside legal => inv_of_reset legal rfl rfl wf⟩

/-! ## The invariants over a step -/

/-- Settles O48: each event of an edge keeps the invariants. -/
theorem stepKeepsTheInvariant : Obligations.StepKeepsTheInvariant := by
  unfold Obligations.StepKeepsTheInvariant
  intro s t h ht
  exact step_inv h ht

/-- Settles O44: while configured, the CSR port is locked and every command leaves the CSRs. -/
theorem configurationIsFixedUntilReset : Obligations.ConfigurationIsFixedUntilReset := by
  unfold Obligations.ConfigurationIsFixedUntilReset
  intro s t h ht
  exact ⟨step_inst h ht, fun conf hr => step_csr h conf hr ht⟩

/-- Settles O43: the storage changes by an INSERT only, which lets no counter fall and no bucket go, and a VAL fall only
with its key. -/
theorem countersNeverDecrease : Obligations.CountersNeverDecrease := by
  unfold Obligations.CountersNeverDecrease
  intro s t h conf hr ht
  rcases step_store h conf hr ht with same | ⟨c, key, count, ins⟩
  · rw [same]
    exact ⟨fun _ => le_rfl, fun _ => le_rfl, fun _ => le_rfl, fun _ => le_rfl, fun _ => id,
      fun _ _ falls => absurd falls (lt_irrefl _)⟩
  · rw [ins.store]
    have update := insertLight_slotUpdate (s.asks key) count s.store
    obtain ⟨nib, c8, c16, heavy⟩ := insertLight_countersLe (s.asks key) count s.store
    exact ⟨nib, c8, c16, heavy, fun _ => update.occ_stays,
      fun j b => update.key_replaced ins.le (keyMaxLen_le_of_legal h.legal) ((h.tiers conf).slotOk j b)⟩

/-- Settles O45: a refused INSERT leaves the storage, and one that runs keeps first fit. -/
theorem insertKeepsFirstFit : Obligations.InsertKeepsFirstFit := by
  unfold Obligations.InsertKeepsFirstFit
  intro s t h klen p count hi ff answers ht
  rcases execInsert_next (klen := klen) (p := p) (count := count) ht with ⟨-, -, rfl⟩ | ⟨⟨-, -, -, le⟩, rfl⟩
  · exact ff
  · rw [respond_csr, latched_csr]
    exact insertLight_firstFit count.toNat (by rwa [keyOf_length]) hi.legal answers ff

/-- Settles O59: a step of a configured block leaves the storage or runs one INSERT on it, and a step that configures the
block clears the storage. -/
theorem stepKeepsFirstFit : Obligations.StepKeepsFirstFit := by
  unfold Obligations.StepKeepsFirstFit
  intro s t h hi ff answers ht conf'
  cases conf : s.csr.configured with
  | false => rw [step_configures hi conf ht conf']; exact cleared_firstFit _ _
  | true =>
    have hr : s.nextEdge.rst = false := Bool.eq_false_iff.mpr fun hr => by
      rw [step_reset hr] at ht
      injection ht with ht
      subst ht
      cases conf'
    rw [step_csr hi conf hr ht]
    refine firstFit_lastStatus _ ?_
    rcases step_store hi conf hr ht with same | ⟨c, key, count, ins⟩
    · rw [same]; exact ff conf
    · rw [ins.store]
      refine insertLight_firstFit count ins.le hi.legal ?_ (ff conf)
      rw [ins.sent]
      exact answers c ins.cmd

end Sys2Proof.Machine
end

section
/-! SUPPORT. The statements about the memory model (20_memory.md): the transfer of a command at an edge (R57), two QUERYs
of one key in a row (R58), and a CSR access beside a command in flight (R56, R228). -/

namespace Sys2Proof.Machine

/-! ## The transfer of a command (R57) -/

/-- An edge of an idle block that brings a command is the acceptance of it after the CSR access, whichever the acceptance
(R57, R210). -/
theorem edgeWith_transfer (accept : Command → State → Result) {e : Edge} {s : State} {c : Command} (hr : e.rst = false)
    (hc : e.cmd = some c) (hs : s.seq.fsm = .uncfg ∨ s.seq.fsm = .idle) :
    edgeWith accept e s = accept c (csrPort e.csr s) := by
  have hf : (csrPort e.csr s).seq.fsm = s.seq.fsm := by rw [csrPort_seq]
  rcases hs with idle | idle <;> rw [idle] at hf <;> simp only [edgeWith, hr, hc, hf, Bool.false_eq_true, if_false]

theorem acceptCommand_of_decode {c : Command} {i : Instr} (s : State) (hd : decode c.word c.payload = .command i) :
    acceptCommand c s = exec i s := by
  simp only [acceptCommand, hd]

/-- Settles O7: the edge accepts the transfer, and the acceptance of a word that decodes is its `exec`. -/
theorem stepRunsTheDecodedCommand : Obligations.StepRunsTheDecodedCommand := by
  unfold Obligations.StepRunsTheDecodedCommand
  intro s c i hr hc hs hd _
  calc step s
      = acceptCommand c (csrPort s.nextEdge.csr s.dropEdge) := edgeWith_transfer acceptCommand hr hc hs
    _ = exec i (csrPort s.nextEdge.csr s.dropEdge) := acceptCommand_of_decode _ hd

/-! ## A QUERY reads and does not write (R58, R173) -/

/-- What a QUERY that goes on leaves as it was, and what it answers, in the terms of the state it starts from: the status
of its admission, and the estimate of the storage where it is admitted (R173, R202, R203). -/
structure Queried (s : State) (klen : BitVec 8) (p : List Byte) (t : State) : Prop where
  inst : t.inst = s.inst
  csr : t.csr = s.csr
  store : t.store = s.store
  status : t.seq.rspStatus = (s.admitKeyed klen).code
  est : t.seq.rspEst =
    if s.admitKeyed klen = .ok then BitVec.ofNat 64 (queryLight (s.asks (keyOf klen p)) s.store) else 0

theorem execQuery_queried {klen : BitVec 8} {p : List Byte} {s t : State} (h : execQuery klen p s = .next t) :
    Queried s klen p t := by
  rcases execQuery_next h with ⟨-, failed, rfl⟩ | ⟨⟨conf, -, legal⟩, rfl⟩
  · exact ⟨rfl, rfl, rfl, rfl, (if_neg failed).symm⟩
  · have admitted : s.admitKeyed klen = .ok := admitKeyed_eq_ok.mpr ⟨conf, legal⟩
    refine ⟨latched_inst .., latched_csr .., latched_store .., ?_, ?_⟩
    · rw [admitted, respond_rspStatus]
    · rw [if_pos admitted, respond_rspEst]

/-- The taking of a response leaves what decides the admission of a key. -/
theorem deliver_admitKeyed (s : State) (klen : BitVec 8) : s.deliver.admitKeyed klen = s.admitKeyed klen := rfl

/-- The taking of a response leaves what a command asks of the storage. -/
theorem deliver_asks (s : State) (key : List Byte) : s.deliver.asks key = s.asks key := rfl

/-- A key asks the same of the storage under the same registers and the same hash values (R101, R102). -/
theorem asks_congr {s t : State} {key : List Byte} (inst : t.inst = s.inst) (csr : t.csr = s.csr)
    (hash : ∀ i < s.csr.seeds, t.hashOf key i = s.hashOf key i) : t.asks key = s.asks key := by
  have probes : t.probes key = s.probes key := by
    rw [State.probes, State.probes, csr]
    exact lookup_congr _ fun i hi => congrArg BitVec.toNat (hash i hi)
  simp only [State.asks, inst, csr, probes]

theorem admitKeyed_congr {s t : State} (klen : BitVec 8) (inst : t.inst = s.inst) (csr : t.csr = s.csr) :
    t.admitKeyed klen = s.admitKeyed klen := by
  simp only [State.admitKeyed, inst, csr]

/-- Settles O41: the first QUERY and its delivery leave all that the second one reads. -/
theorem repeatedQueryAnswersTheSame : Obligations.RepeatedQueryAnswersTheSame := by
  unfold Obligations.RepeatedQueryAnswersTheSame
  intro s t u klen p ht hash hu
  have first : Queried s klen p t := execQuery_queried ht
  have second : Queried t.deliver klen p u := execQuery_queried hu
  have admits : t.deliver.admitKeyed klen = s.admitKeyed klen :=
    (deliver_admitKeyed t klen).trans (admitKeyed_congr klen first.inst first.csr)
  have asks : t.deliver.asks (keyOf klen p) = s.asks (keyOf klen p) :=
    (deliver_asks t _).trans (asks_congr first.inst first.csr hash)
  refine ⟨?_, ?_, second.store⟩
  · rw [second.status, admits, first.status]
  · rw [second.est, admits, asks, deliver_store, first.store, first.est]

/-! ## A CSR access beside a command in flight (R56, R228) -/

/-- `s` with `d` as the read data that the CSR port drives. -/
def State.driving (s : State) (d : Option Word32) : State := { s with port := { s.port with csrRdata := d } }

/-- While CFG_LOCK is 1, a CSR access does no more than drive its read data (R34, R178, R179). -/
theorem csrPort_of_locked (a : Option CsrAccess) {s : State} (locked : s.csr.cfgLock = true) :
    csrPort a s = s.driving (csrPort a s).port.csrRdata := by
  match a with
  | none => rfl
  | some (.read _) => rfl
  | some (.write addr v) =>
    obtain ⟨-, -, -, fixed⟩ := csrWrite_flags s.csr addr v
    simp only [csrPort, fixed locked]
    rfl

section driving
variable (s : State) (d : Option Word32)

@[simp] theorem driving_store : (s.driving d).store = s.store := rfl
@[simp] theorem driving_seq : (s.driving d).seq = s.seq := rfl
@[simp] theorem driving_lookup : (s.driving d).lookup = s.lookup := rfl
@[simp] theorem driving_inserting : (s.driving d).inserting = s.inserting := rfl
@[simp] theorem driving_flightKey : (s.driving d).flightKey = s.flightKey := rfl
@[simp] theorem driving_cfgValid : (s.driving d).cfgValid = s.cfgValid := rfl

/-- The read data goes into both branches of a transition. -/
theorem driving_ite (c : Prop) [Decidable c] (t r : State) :
    (if c then t else r).driving d = if c then t.driving d else r.driving d :=
  apply_ite (State.driving · d) c t r

/-! Every row of R191 reads nothing of the read data and leaves it: no condition depends on it, and each branch commutes
with it. -/

theorem takeHash_driving (v : Option Word32) : (s.driving d).takeHash v = (s.takeHash v).driving d := by
  cases v with
  | none => rfl
  | some v =>
    simp only [State.takeHash, driving_ite]
    rfl

theorem askHash_driving (b : Bool) : (s.driving d).askHash b = (s.askHash b).driving d := by
  simp only [State.askHash, driving_ite]
  rfl

theorem fsmHash_driving (h : HashInput) : fsmHash h (s.driving d) = (fsmHash h s).driving d := by
  simp only [fsmHash, takeHash_driving, askHash_driving, driving_ite]
  rfl

theorem fsmClear_driving : fsmClear (s.driving d) = (fsmClear s).driving d := rfl

theorem fsmLight_driving : fsmLight (s.driving d) = (fsmLight s).driving d := by
  simp only [fsmLight, driving_ite]
  rfl

theorem fsmMid8_driving : fsmMid8 (s.driving d) = (fsmMid8 s).driving d := by
  simp only [fsmMid8, driving_ite]
  rfl

theorem fsmKvInsert_driving : fsmKvInsert (s.driving d) = (fsmKvInsert s).driving d := by
  simp only [fsmKvInsert, driving_lookup, driving_store, driving_flightKey]
  cases s.store.findSlot s.lookup s.flightKey with
  | none => rfl
  | some f =>
    simp only [driving_ite]
    rfl

theorem fsmKvQuery_driving : fsmKvQuery (s.driving d) = (fsmKvQuery s).driving d := by
  simp only [fsmKvQuery, driving_lookup, driving_store, driving_flightKey]
  cases s.store.matchScan s.lookup s.flightKey with
  | none => rfl
  | some f =>
    simp only [driving_ite]
    rfl

theorem fsmMid16Insert_driving : fsmMid16Insert (s.driving d) = (fsmMid16Insert s).driving d := by
  simp only [fsmMid16Insert, driving_ite]
  rfl

theorem fsmMid16Query_driving : fsmMid16Query (s.driving d) = (fsmMid16Query s).driving d := by
  simp only [fsmMid16Query, driving_ite]
  rfl

theorem fsmHeavy_driving : fsmHeavy (s.driving d) = (fsmHeavy s).driving d := by
  simp only [fsmHeavy, driving_seq, driving_ite]
  cases s.seq.hvNext <;> rfl

theorem fsmEvict_driving : fsmEvict (s.driving d) = (fsmEvict s).driving d := by
  simp only [fsmEvict, driving_lookup, driving_store]
  cases s.store.kvMin s.lookup with
  | none => rfl
  | some k =>
    simp only [driving_ite]
    rfl

end driving

/-- A transition from another read data goes to the same state, with that read data (R56). -/
theorem advance_driving {h : HashInput} {s t : State} (d : Option Word32) (ht : advance h s = .next t) :
    advance h (s.driving d) = .next (t.driving d) := by
  cases hf : s.seq.fsm with
  | uncfg | idle | resp | clear =>
    simp only [advance, hf] at ht
    injection ht with ht
    subst ht
    simp only [advance, driving_seq, hf, fsmClear_driving]
  | hash | light | mid8 | kv | mid16 | heavy | evict =>
    simp only [advance, hf] at ht
    split at ht
    · rename_i valid
      injection ht with ht
      subst ht
      simp only [advance, driving_seq, hf, driving_cfgValid, valid, if_true, driving_inserting, fsmHash_driving,
        fsmLight_driving, fsmMid8_driving, fsmKvInsert_driving, fsmKvQuery_driving, fsmMid16Insert_driving,
        fsmMid16Query_driving, fsmHeavy_driving, fsmEvict_driving, driving_ite]
    · cases ht

/-- Settles O54: the locked block lets the access do no more than drive its read data, which no transition reads. -/
theorem csrAccessDoesNotDisturbTheCommand : Obligations.CsrAccessDoesNotDisturbTheCommand := by
  unfold Obligations.CsrAccessDoesNotDisturbTheCommand
  intro s t h a locked ht
  refine ⟨t.driving (csrPort a s).port.csrRdata, ?_, rfl⟩
  rw [csrPort_of_locked a locked]
  exact advance_driving _ ht

end Sys2Proof.Machine
end

section
/-! SUPPORT. The statements about decoding and encoding (30_encoding.md): each outcome of `decode` as an equivalence
(R76, R77, R78), and from them that the encoder and the decoder are inverse to each other (R71 to R75). -/

namespace Sys2Proof

/-! ## The outcomes of decode, each said once (R77) -/

theorem EncodingRow.fits_iff (r : EncodingRow) (w : Word64) : r.fits w = true ↔ w &&& r.mask = r.pattern := beq_iff_eq

theorem decode_of_opcInsert {w : Word64} (p : List Byte) (opc : opcOf w = opcInsert) :
    decode w p =
      if rowInsert.fits w then .command (.insert (klenOf w) p (countOf w)) else .reservedField := by
  rw [decode, if_pos opc]

theorem decode_of_opcQuery {w : Word64} (p : List Byte) (opc : opcOf w = opcQuery) :
    decode w p = if rowQuery.fits w then .command (.query (klenOf w) p) else .reservedField := by
  rw [decode, if_neg (by rw [opc]; decide), if_pos opc]

theorem decode_of_opcConfigure {w : Word64} (p : List Byte) (opc : opcOf w = opcConfigure) :
    decode w p = if rowConfigure.fits w then .command .configure else .reservedField := by
  rw [decode, if_neg (by rw [opc]; decide), if_neg (by rw [opc]; decide), if_pos opc]

theorem decode_of_no_opc {w : Word64} (p : List Byte) (hi : opcOf w ≠ opcInsert) (hq : opcOf w ≠ opcQuery)
    (hc : opcOf w ≠ opcConfigure) : decode w p = .illegalOpcode := by
  rw [decode, if_neg hi, if_neg hq, if_neg hc]

/-- The operands of a command are what R76 reads off the word and the payload. -/
def Instr.OperandsAre (w : Word64) (p : List Byte) : Instr → Prop
  | .insert klen q count => klen = klenOf w ∧ q = p ∧ count = countOf w
  | .query klen q => klen = klenOf w ∧ q = p
  | .configure => True

/-- A word decodes to a command exactly when it has the fixed bits of the command's row, and then with the operands of
R76: a row's fixed bits hold its opcode, so the first test of R77 passes with the second. -/
theorem decode_eq_command_iff {w : Word64} {p : List Byte} {i : Instr} :
    decode w p = .command i ↔ i.row.fits w = true ∧ i.OperandsAre w p := by
  constructor
  · intro h
    unfold decode at h
    repeat' split at h
    all_goals cases h
    · exact ⟨‹_›, rfl, rfl, rfl⟩
    · exact ⟨‹_›, rfl, rfl⟩
    · exact ⟨‹_›, trivial⟩
  · rintro ⟨fits, operands⟩
    cases i with
    | insert klen q count =>
      obtain ⟨rfl, rfl, rfl⟩ := operands
      rw [decode_of_opcInsert q ((rowInsert_fits_iff w).mp fits).1]
      exact if_pos fits
    | query klen q =>
      obtain ⟨rfl, rfl⟩ := operands
      rw [decode_of_opcQuery q ((rowQuery_fits_iff w).mp fits).1]
      exact if_pos fits
    | configure =>
      obtain rfl := (rowConfigure_fits_iff w).mp fits
      rw [decode_of_opcConfigure p (by decide)]
      exact if_pos fits

theorem decode_eq_illegalOpcode_iff {w : Word64} {p : List Byte} :
    decode w p = .illegalOpcode ↔ opcOf w ≠ opcInsert ∧ opcOf w ≠ opcQuery ∧ opcOf w ≠ opcConfigure := by
  refine ⟨fun h => ⟨fun opc => ?_, fun opc => ?_, fun opc => ?_⟩, fun ⟨hi, hq, hc⟩ => decode_of_no_opc p hi hq hc⟩
  · rw [decode_of_opcInsert p opc] at h
    split at h <;> cases h
  · rw [decode_of_opcQuery p opc] at h
    split at h <;> cases h
  · rw [decode_of_opcConfigure p opc] at h
    split at h <;> cases h

/-! The reserved-field outcome under each legal opcode: the fixed bits do not hold (R77, R78). -/

theorem reservedField_iff_of_opcInsert {w : Word64} (p : List Byte) (opc : opcOf w = opcInsert) :
    decode w p = .reservedField ↔ ¬rowInsert.fits w = true := by
  rw [decode_of_opcInsert p opc]
  split <;> simp [*]

theorem reservedField_iff_of_opcQuery {w : Word64} (p : List Byte) (opc : opcOf w = opcQuery) :
    decode w p = .reservedField ↔ ¬rowQuery.fits w = true := by
  rw [decode_of_opcQuery p opc]
  split <;> simp [*]

theorem reservedField_iff_of_opcConfigure {w : Word64} (p : List Byte) (opc : opcOf w = opcConfigure) :
    decode w p = .reservedField ↔ ¬rowConfigure.fits w = true := by
  rw [decode_of_opcConfigure p opc]
  split <;> simp [*]

theorem decode_eq_reservedField_iff {w : Word64} {p : List Byte} :
    decode w p = .reservedField ↔
      (opcOf w = opcInsert ∧ ¬rowInsert.fits w = true) ∨ (opcOf w = opcQuery ∧ ¬rowQuery.fits w = true) ∨
        (opcOf w = opcConfigure ∧ ¬rowConfigure.fits w = true) := by
  constructor
  · intro h
    by_cases hi : opcOf w = opcInsert
    · exact .inl ⟨hi, (reservedField_iff_of_opcInsert p hi).mp h⟩
    by_cases hq : opcOf w = opcQuery
    · exact .inr (.inl ⟨hq, (reservedField_iff_of_opcQuery p hq).mp h⟩)
    by_cases hc : opcOf w = opcConfigure
    · exact .inr (.inr ⟨hc, (reservedField_iff_of_opcConfigure p hc).mp h⟩)
    · rw [decode_of_no_opc p hi hq hc] at h
      cases h
  · rintro (⟨opc, unfit⟩ | ⟨opc, unfit⟩ | ⟨opc, unfit⟩)
    · exact (reservedField_iff_of_opcInsert p opc).mpr unfit
    · exact (reservedField_iff_of_opcQuery p opc).mpr unfit
    · exact (reservedField_iff_of_opcConfigure p opc).mpr unfit

/-! ## The encoder against the decoder (R71 to R76) -/

/-- The encoding of a well-formed command has its row's fixed bits. -/
theorem row_fits_encodeWord (i : Instr) (wf : i.wellFormed = true) : i.row.fits (encodeWord i) = true := by
  cases i with
  | insert klen p count => exact Laws.EncodeMatchesTable.insert klen p count wf
  | query klen p => exact Laws.EncodeMatchesTable.query klen p wf
  | configure => exact Laws.EncodeMatchesTable.configure wf

/-- The encoding of a command holds its operands where R76 reads them. -/
theorem operandsAre_encode (i : Instr) : i.OperandsAre (encodeWord i) (encodePayload i) := by
  cases i with
  | insert klen p count => exact ⟨(klenOf_word count klen opcInsert).symm, rfl, (countOf_word count klen opcInsert).symm⟩
  | query klen p => exact ⟨(klenOf_word 0#32 klen opcQuery).symm, rfl⟩
  | configure => trivial

theorem decode_encode (i : Instr) (wf : i.wellFormed = true) : decode (encode i).1 (encode i).2 = .command i :=
  decode_eq_command_iff.mpr ⟨row_fits_encodeWord i wf, operandsAre_encode i⟩

/-- A word with both reserved fields 0 is put together from its opcode, KLEN and COUNT (R71). -/
theorem word_of_fields {w : Word64} {opc : BitVec 4} (hopc : opcOf w = opc) (rsv0 : w.extractLsb' 4 4 = 0#4)
    (rsv1 : w.extractLsb' 16 16 = 0#16) : countOf w ++ 0#16 ++ klenOf w ++ 0#4 ++ opc = w := by
  refine word_eq_iff.mpr ⟨?_, ?_, klenOf_word .., ?_, countOf_word ..⟩
  · rw [hopc]
    exact opcOf_word ..
  · rw [rsv0]
    exact rsv0_word ..
  · rw [rsv1]
    exact rsv1_word ..

theorem encodeWord_of_fits {w : Word64} {p : List Byte} {i : Instr} (fits : i.row.fits w = true)
    (operands : i.OperandsAre w p) : encodeWord i = w := by
  cases i with
  | insert klen q count =>
    obtain ⟨rfl, -, rfl⟩ := operands
    obtain ⟨opc, rsv0, rsv1⟩ := (rowInsert_fits_iff w).mp fits
    exact word_of_fields opc rsv0 rsv1
  | query klen q =>
    obtain ⟨rfl, -⟩ := operands
    obtain ⟨opc, rsv0, rsv1, count⟩ := (rowQuery_fits_iff w).mp fits
    have word := word_of_fields opc rsv0 rsv1
    rwa [count] at word
  | configure => exact ((rowConfigure_fits_iff w).mp fits).symm

theorem encodePayload_of_operandsAre {w : Word64} {p : List Byte} {i : Instr} (operands : i.OperandsAre w p)
    (keyed : i ≠ .configure) : encodePayload i = p := by
  cases i with
  | insert klen q count => exact operands.2.1
  | query klen q => exact operands.2
  | configure => exact absurd rfl keyed

/-- Settles O1: the encoding has the row's fixed bits and the operands in their places. -/
theorem decodeOfEncodeIsTheCommand : Obligations.DecodeOfEncodeIsTheCommand := by
  unfold Obligations.DecodeOfEncodeIsTheCommand
  exact decode_encode

/-- Settles O2: the fixed bits of the row and the operands of R76 are all the fields of the word. -/
theorem encodeOfDecodeIsTheWord : Obligations.EncodeOfDecodeIsTheWord := by
  unfold Obligations.EncodeOfDecodeIsTheWord
  intro w p i h
  obtain ⟨fits, operands⟩ := decode_eq_command_iff.mp h
  exact ⟨encodeWord_of_fits fits operands, encodePayload_of_operandsAre operands⟩

/-! ## The decode tests and the reserved fields (R77, R78) -/

/-- Settles O3: the outcomes of `decode`, with each row's fixed bits as its mask and match. -/
theorem decodeTestsOpcodeThenFixedBits : Obligations.DecodeTestsOpcodeThenFixedBits := by
  unfold Obligations.DecodeTestsOpcodeThenFixedBits
  intro w p
  refine ⟨decode_eq_illegalOpcode_iff, ?_, fun klen q count => ?_, fun klen q => ?_, ?_⟩
  · rw [decode_eq_reservedField_iff]
    simp only [EncodingRow.fits_iff]
    rfl
  · exact decode_eq_command_iff.trans (and_congr_left fun _ => rowInsert.fits_iff w)
  · exact decode_eq_command_iff.trans (and_congr_left fun _ => rowQuery.fits_iff w)
  · exact decode_eq_command_iff.trans ((and_iff_left trivial).trans (rowConfigure_fits_iff w))

/-- CONFIGURE's fixed bits, field by field (R75, R78). -/
theorem rowConfigure_fits_iff_fields (w : Word64) :
    rowConfigure.fits w = true ↔
      opcOf w = opcConfigure ∧ w.extractLsb' 4 4 = 0#4 ∧ klenOf w = 0#8 ∧ w.extractLsb' 16 16 = 0#16 ∧
        countOf w = 0#32 := by
  rw [rowConfigure_fits_iff, word_eq_iff]
  rfl

/-- Settles O4: under its opcode a word is reserved where one of the fields that its row fixes is not 0. -/
theorem reservedFieldsOfEachOpcode : Obligations.ReservedFieldsOfEachOpcode := by
  unfold Obligations.ReservedFieldsOfEachOpcode
  intro w p rsv0 klen rsv1 count
  refine ⟨fun (opc : opcOf w = opcInsert) => ?_, fun (opc : opcOf w = opcQuery) => ?_,
    fun (opc : opcOf w = opcConfigure) => ?_⟩
  · calc decode w p = .reservedField
        ↔ ¬(opcOf w = opcInsert ∧ rsv0 = 0 ∧ rsv1 = 0) :=
          (reservedField_iff_of_opcInsert p opc).trans (not_congr (rowInsert_fits_iff w))
      _ ↔ rsv0 ≠ 0 ∨ rsv1 ≠ 0 := by tauto
  · calc decode w p = .reservedField
        ↔ ¬(opcOf w = opcQuery ∧ rsv0 = 0 ∧ rsv1 = 0 ∧ count = 0) :=
          (reservedField_iff_of_opcQuery p opc).trans (not_congr (rowQuery_fits_iff w))
      _ ↔ rsv0 ≠ 0 ∨ rsv1 ≠ 0 ∨ count ≠ 0 := by tauto
  · calc decode w p = .reservedField
        ↔ ¬(opcOf w = opcConfigure ∧ rsv0 = 0 ∧ klen = 0 ∧ rsv1 = 0 ∧ count = 0) :=
          (reservedField_iff_of_opcConfigure p opc).trans (not_congr (rowConfigure_fits_iff_fields w))
      _ ↔ rsv0 ≠ 0 ∨ rsv1 ≠ 0 ∨ klen ≠ 0 ∨ count ≠ 0 := by tauto

/-- Settles O5: six of R84's words are the encodings of their commands, and two are rejected, one by each test. -/
theorem specWordsDecode : Obligations.SpecWordsDecode := by
  unfold Obligations.SpecWordsDecode
  refine ⟨decode_encode (.insert 1 [0x41] 10) rfl, decode_encode (.query 1 [0x41]) rfl,
    decode_encode (.insert 1 [0x41] 1) rfl, decode_encode (.insert 2 [0x0A, 0x0B] 300) rfl,
    decode_encode .configure rfl, decode_eq_illegalOpcode_iff.mpr (by decide), ?_, decode_encode (.insert 0 [] 1) rfl⟩
  exact (reservedField_iff_of_opcQuery [0x41] (by decide)).mpr (by decide)

end Sys2Proof
end

section
/-! SUPPORT. The statements about how encoded commands and keys reach the block (30_encoding.md): the payload beyond the
key (R71, R76), the pseudo-instructions (R83), the undecodable word (R78, R202) and the hash port (R81, R101). -/

namespace Sys2Proof.Machine

/-! ## The payload beyond the key (R71, R76) -/

theorem keyOf_congr {klen : BitVec 8} {p q : List Byte} (h : ∀ i < klen.toNat, p.getD i 0 = q.getD i 0) :
    keyOf klen p = keyOf klen q :=
  List.map_congr_left fun i hi => h i (List.mem_range.mp hi)

/-- `s` with `key` in the KEY register. -/
def State.withKey (s : State) (key : List Byte) : State := { s with seq := { s.seq with key := key } }

/-- Two payloads are latched to states that differ in KEY only. -/
theorem latchCommand_payload (s : State) (w : Word64) (p q : List Byte) :
    s.latchCommand w q = (s.latchCommand w p).withKey (onKeyLanes s.inst.keyMaxLen q) := rfl

/-- The hash latch asks for the key it is given, not for what KEY holds. -/
theorem latchHashes_withKey (key lanes : List Byte) (n : Nat) (s : State) :
    latchHashes key n (s.withKey lanes) = (latchHashes key n s).withKey lanes := by
  induction n with
  | zero => rfl
  | succ n ih =>
    rw [latchHashes, ih]
    rfl

/-- An INSERT of the same key from another payload runs to the same state but for KEY. -/
theorem runInsert_payload (s : State) {klen : BitVec 8} {p q : List Byte} (count : Word32)
    (same : keyOf klen p = keyOf klen q) :
    s.runInsert klen q count = (s.runInsert klen p count).withKey (onKeyLanes s.inst.keyMaxLen q) := by
  simp only [State.runInsert, latchCommand_payload s _ p q, latchHashes_withKey, same]
  rfl

/-- A QUERY of the same key from another payload runs to the same state but for KEY. -/
theorem runQuery_payload (s : State) {klen : BitVec 8} {p q : List Byte} (same : keyOf klen p = keyOf klen q) :
    s.runQuery klen q = (s.runQuery klen p).withKey (onKeyLanes s.inst.keyMaxLen q) := by
  simp only [State.runQuery, latchCommand_payload s _ p q, latchHashes_withKey, same]
  rfl

/-- What INSERT and QUERY have in common: the checks of R202, and `ran` as the state of an admitted command. -/
def State.keyed (s : State) (klen : BitVec 8) (ran : State) : Result :=
  match s.admitKeyed klen with
  | .ok => if s.cfgValid then .next ran else .fault .invalidConfiguration
  | e => .next (s.refuse e)

theorem execInsert_eq_keyed (s : State) (klen : BitVec 8) (p : List Byte) (count : Word32) :
    execInsert klen p count s = s.keyed klen (s.runInsert klen p count) := rfl

theorem execQuery_eq_keyed (s : State) (klen : BitVec 8) (p : List Byte) :
    execQuery klen p s = s.keyed klen (s.runQuery klen p) := rfl

/-- The checks of R202 do not look at the payload: with another KEY the command completes alike. -/
theorem keyed_withKey {s ran t : State} {klen : BitVec 8} (lanes : List Byte) (h : s.keyed klen ran = .next t) :
    ∃ r, s.keyed klen (ran.withKey lanes) = .next r ∧ r = t.withKey r.seq.key := by
  unfold State.keyed at h ⊢
  split at h
  · split at h
    · rename_i valid
      injection h with h
      subst h
      exact ⟨ran.withKey lanes, if_pos valid, rfl⟩
    · cases h
  · injection h with h
    exact ⟨t, congrArg _ h, rfl⟩

/-- Settles O39: the payload enters a command as its key, which is the same, and as the KEY register. -/
theorem payloadBeyondTheKeyIsIgnored : Obligations.PayloadBeyondTheKeyIsIgnored := by
  unfold Obligations.PayloadBeyondTheKeyIsIgnored
  intro s t klen p q count agree
  have same : keyOf klen p = keyOf klen q := keyOf_congr agree
  simp only [exec, execInsert_eq_keyed, execQuery_eq_keyed, runInsert_payload s count same, runQuery_payload s same]
  exact ⟨keyed_withKey _, keyed_withKey _⟩

/-! ## The pseudo-instructions (R83) -/

/-- Settles O6: the lines are those of R83 by the definitions of `inc` and `setup`. -/
theorem pseudoInstructionsExpand : Obligations.PseudoInstructionsExpand := by
  unfold Obligations.PseudoInstructionsExpand
  exact ⟨fun _ => ⟨rfl, fun _ => rfl⟩, fun _ _ _ _ _ _ _ => rfl, fun _ _ _ _ _ _ _ _ => rfl⟩

/-! ## The undecodable word (R34, R78, R202) -/

theorem acceptCommand_illegalOpcode {c : Command} (s : State) (hd : decode c.word c.payload = .illegalOpcode) :
    acceptCommand c s = .next (s.refuse .errOpcode) := by
  simp only [acceptCommand, hd]

theorem acceptCommand_reservedField {c : Command} (s : State) (hd : decode c.word c.payload = .reservedField) :
    acceptCommand c s = .next ((lockIfConfigure c.word s).refuse .errReserved) := by
  simp only [acceptCommand, hd]

/-- A refusal, said once: the response in RESP with the status and estimate 0 (R203). -/
theorem refuse_eq (s : State) (st : Status) :
    s.refuse st = { s with seq := { s.seq with fsm := .resp, rspStatus := st.code, rspEst := 0 } } := rfl

/-- OPC 0x3 sets CFG_LOCK, and any other opcode leaves it (R34). -/
theorem lockIfConfigure_eq (w : Word64) (s : State) :
    lockIfConfigure w s = { s with csr := { s.csr with cfgLock := s.csr.cfgLock || opcOf w == opcConfigure } } := by
  unfold lockIfConfigure
  split
  · rename_i opc
    simp only [opc, beq_self_eq_true, Bool.or_true]
    rfl
  · rename_i opc
    simp only [beq_false_of_ne opc, Bool.or_false]

/-- Settles O8: the edge accepts the word with its error, and the CSR access before it leaves the sequencer and
CFG_LOCK. -/
theorem undecodableWordAnswersItsError : Obligations.UndecodableWordAnswersItsError := by
  unfold Obligations.UndecodableWordAnswersItsError
  intro s c hr hc idle s'
  have accepts : step s = acceptCommand c s' := edgeWith_transfer acceptCommand hr hc idle
  have seq : s'.seq = s.seq := csrPort_seq _ _
  obtain ⟨-, lock, -, -⟩ : _ ∧ s'.csr.cfgLock = s.csr.cfgLock ∧ _ ∧ _ := csrPort_csr s.nextEdge.csr s.dropEdge
  refine ⟨fun illegal => ?_, fun reserved => ?_⟩
  · rw [accepts, acceptCommand_illegalOpcode s' illegal, refuse_eq, seq]
    rfl
  · rw [accepts, acceptCommand_reservedField s' reserved, lockIfConfigure_eq, refuse_eq, lock, seq]
    rfl

/-! ## The hash port (R81, R101) -/

theorem onKeyLanes_getD {n i : Nat} (p : List Byte) (h : i < n) : (onKeyLanes n p).getD i 0 = p.getD i 0 := by
  simp [onKeyLanes, List.getD_eq_getElem?_getD, h]

/-- A driven hash request, inverted: the key in flight on the KEY_MAX_LEN lanes, its length and the next seed. -/
theorem hashRequest_eq_some {s : State} {rst : Bool} {r : HashRequest} (h : s.hashRequest rst = some r) :
    r = { key := onKeyLanes s.inst.keyMaxLen s.flightKey, klen := klenOf s.seq.cmd,
          seed := BitVec.ofNat 8 s.seq.hashAsked } := by
  unfold State.hashRequest at h
  split at h
  · exact (Option.some.inj h).symm
  · cases h

/-- Settles O25: a lane of the request holds the byte of the key in flight, which is 0 from KLEN on. -/
theorem hashRequestCarriesTheKey : Obligations.HashRequestCarriesTheKey := by
  unfold Obligations.HashRequestCarriesTheKey
  intro s r h
  obtain rfl := hashRequest_eq_some h
  refine ⟨rfl, rfl, onKeyLanes_length _ _, fun i hi => ?_⟩
  calc (onKeyLanes s.inst.keyMaxLen s.flightKey).getD i 0
      = (keyOf (klenOf s.seq.cmd) s.seq.key).getD i 0 := onKeyLanes_getD _ hi
    _ = if i < (klenOf s.seq.cmd).toNat then s.seq.key.getD i 0 else 0 := keyOf_getD _ _ _

/-- The request handshake, as a whole state: it changes the count of requests only (R170). -/
theorem askHash_eq (ready : Bool) (s : State) :
    s.askHash ready =
      { s with seq := { s.seq with
          hashAsked := if ready = true ∧ s.seq.hashAsked < s.csr.seeds then s.seq.hashAsked + 1
            else s.seq.hashAsked } } := by
  rw [← askHash_seq]
  unfold State.askHash
  split <;> rfl

/-- An answer that does not come, or is not owed, is not taken. -/
theorem takeHash_of_not_owed {rsp : Option Word32} {s : State} (h : rsp = none ∨ s.seq.hashAsked ≤ s.seq.hashNext) :
    s.takeHash rsp = s := by
  rcases takeHash_cases rsp s with ⟨-, same⟩ | ⟨v, answers, owed, -⟩
  · exact same
  · rcases h with silent | settled
    · rw [silent] at answers
      cases answers
    · exact absurd owed (Nat.not_lt.mpr settled)

/-- An answer that is owed goes into the HV of its seed (R101). -/
theorem takeHash_of_owed {s : State} (v : Word32) (owed : s.seq.hashNext < s.seq.hashAsked) :
    s.takeHash (some v) =
      { s with seq := { s.seq with hv := s.seq.hv.write [s.seq.hashNext] v, hashNext := s.seq.hashNext + 1 } } := by
  simp only [State.takeHash, State.hashOwed, decide_eq_true owed, if_true]

theorem advance_of_hash {s : State} (h : HashInput) (hash : s.seq.fsm = .hash) (valid : s.cfgValid = true) :
    advance h s = .next (fsmHash h s) := by
  simp only [advance, hash, valid, if_true]

/-- Row HASH once the answer is taken: the request handshake, and LIGHT with the last answer latched (R191). -/
theorem fsmHash_eq {h : HashInput} {s t : State} (taken : s.takeHash h.hrsp = t) (hash : t.seq.fsm = .hash) :
    fsmHash h s =
      { t with seq := { t.seq with
          hashAsked := if h.hreqReady = true ∧ t.seq.hashAsked < t.csr.seeds then t.seq.hashAsked + 1
            else t.seq.hashAsked
          fsm := if t.csr.seeds ≤ t.seq.hashNext then .light else .hash } } := by
  simp only [fsmHash, taken, askHash_eq]
  split
  · rfl
  · rw [← hash]

theorem hashResponseReady_iff {s : State} (hash : s.seq.fsm = .hash) :
    s.hashResponseReady false = true ↔ s.seq.hashNext < s.seq.hashAsked := by
  simp [State.hashResponseReady, State.hashOwed, hash]

/-- Settles O56: the two handshakes change different registers, and the command goes on to LIGHT only where the latched
answer was the last one missing. -/
theorem hashHandshakesAtAnEdge : Obligations.HashHandshakesAtAnEdge := by
  unfold Obligations.HashHandshakesAtAnEdge
  intro s h hash valid missing asked
  refine ⟨hashResponseReady_iff hash, fun notOwed => ?_, fun v answers owed => ?_⟩
  · rw [advance_of_hash h hash valid, fsmHash_eq (takeHash_of_not_owed notOwed) hash, if_neg (Nat.not_le.mpr missing),
      ← hash]
  · have taken := takeHash_of_owed v owed
    rw [← answers] at taken
    have last : s.csr.seeds ≤ s.seq.hashNext + 1 ↔ s.seq.hashNext + 1 = s.csr.seeds :=
      ⟨fun le => Nat.le_antisymm missing le, fun eq => eq.ge⟩
    rw [advance_of_hash h hash valid, fsmHash_eq taken hash]
    simp only [last]
    rfl

end Sys2Proof.Machine
end

section
/-! SUPPORT. The statements about the datapath (40_datapath.md): the probe indices (R101, R102), the minima (R104), the
slot scans (R112), the threshold comparison (R33, R113) and the counts of the hash port (R101, R191, R194). -/

namespace Sys2Proof.Machine

/-! ## The probe indices (R101, R102) -/

/-- A command's probes read the provider's answer for each seed that it latches (R101). -/
theorem probes_hv {s : State} {i : Nat} (key : List Byte) (latched : i < s.csr.seeds) :
    (s.probes key).hv i = (s.hashOf key i).toNat :=
  if_pos latched

/-- Settles O20: the layers below max(L, M) have a latched seed, and seed 0 is one of them. -/
theorem probeIndexFormulas : Obligations.ProbeIndexFormulas := by
  unfold Obligations.ProbeIndexFormulas
  intro s key j hj u hv
  have hvj : u.hv j = hv j := probes_hv key hj
  have hv0 : u.hv 0 = hv 0 := probes_hv key (Nat.zero_lt_of_lt hj)
  rw [← hvj, ← hv0]
  exact ⟨rfl, rfl, rfl, rfl, rfl⟩

/-! ## The minima (R104) -/

/-- The minimum over the layers 0 to n-1 lies at or below the value of every layer, and is the value of one. -/
theorem minOf_range {n : Nat} (pos : 0 < n) (f : Nat → Nat) :
    (∀ j < n, minOf ((List.range n).map f) ≤ f j) ∧ ∃ j < n, f j = minOf ((List.range n).map f) := by
  have nonempty : (List.range n).map f ≠ [] := by simpa using pos.ne'
  refine ⟨fun j hj => minOf_le (List.mem_map_of_mem (List.mem_range.mpr hj)), ?_⟩
  obtain ⟨j, hj, attained⟩ := List.mem_map.mp (minOf_mem nonempty)
  exact ⟨j, List.mem_range.mp hj, attained⟩

theorem lightMin_eq (t : Storage) (u : Lookup) :
    t.lightMin u = minOf ((List.range u.l).map fun l => t.nib (l, u.nl l)) := by
  rw [Storage.lightMin, Lookup.lightProbes, List.map_map]
  rfl

theorem c8Min_eq (t : Storage) (u : Lookup) :
    t.c8Min u = minOf ((List.range u.m).map fun j => (t.c8.read [j, u.bi j, u.s8 j]).toNat) := by
  rw [Storage.c8Min, Cells.minAt, Cells.values, Lookup.c8Probes, List.map_map]
  rfl

theorem c16Min_eq (t : Storage) (u : Lookup) :
    t.c16Min u = minOf ((List.range u.m).map fun j => (t.c16.read [j, u.bi j, u.s16 j]).toNat) := by
  rw [Storage.c16Min, Cells.minAt, Cells.values, Lookup.c16Probes, List.map_map]
  rfl

/-- Settles O21: each tier's minimum is one over its layers. -/
theorem tierMinimumIsTheLeastProbe : Obligations.TierMinimumIsTheLeastProbe := by
  unfold Obligations.TierMinimumIsTheLeastProbe
  intro t u hl hm
  rw [lightMin_eq, c8Min_eq, c16Min_eq]
  exact ⟨minOf_range hl _, minOf_range hm _, minOf_range hm _⟩

/-! ## The slot scans (R112) -/

/-- What FreeScan passes over is claimed. -/
theorem beq_zero_eq_false_iff (b : BitVec 1) : (b == 0#1) = false ↔ b = 1#1 := by
  rcases bit_cases b with rfl | rfl <;> decide

theorem matchScan_eq_some_iff {t : Storage} {u : Lookup} {key : List Byte} {f : Nat} :
    t.matchScan u key = some f ↔ f < u.m ∧ t.keyEq u key f = true ∧ ∀ g < f, t.keyEq u key g = false :=
  find_range_some

theorem matchScan_eq_none_iff {t : Storage} {u : Lookup} {key : List Byte} :
    t.matchScan u key = none ↔ ∀ j < u.m, t.keyEq u key j = false :=
  find_range_none

theorem freeScan_eq_some_iff {t : Storage} {u : Lookup} {f : Nat} :
    t.freeScan u = some f ↔
      f < u.m ∧ t.occ.read (u.bucket f) = 0#1 ∧ ∀ g < f, t.occ.read (u.bucket g) = 1#1 := by
  rw [Storage.freeScan, find_range_some]
  simp only [beq_iff_eq, beq_zero_eq_false_iff]

theorem freeScan_eq_none_iff {t : Storage} {u : Lookup} :
    t.freeScan u = none ↔ ∀ j < u.m, t.occ.read (u.bucket j) = 1#1 := by
  rw [Storage.freeScan, find_range_none]
  simp only [beq_zero_eq_false_iff]

/-- FindSlot is MatchScan, and FreeScan where that answers NONE (R112). -/
theorem findSlot_eq_or (t : Storage) (u : Lookup) (key : List Byte) :
    t.findSlot u key = (t.matchScan u key).or (t.freeScan u) := by
  unfold Storage.findSlot
  cases t.matchScan u key <;> rfl

/-- Settles O22: each scan answers the least layer that it looks for. -/
theorem findSlotPrefersAMatchAnywhere : Obligations.FindSlotPrefersAMatchAnywhere := by
  unfold Obligations.FindSlotPrefersAMatchAnywhere
  intro t u key
  refine ⟨fun f => ?_, ?_⟩
  · rw [findSlot_eq_or, Option.or_eq_some_iff, matchScan_eq_some_iff, matchScan_eq_none_iff, freeScan_eq_some_iff]
    rfl
  · rw [findSlot_eq_or, Option.or_eq_none_iff, matchScan_eq_none_iff, freeScan_eq_none_iff, ← forall₂_and]
    rfl

/-! ## The threshold comparison (R33, R113) -/

/-- THR is sig · 2^e, in the normal and in the subnormal case (R33, R113). -/
theorem thrValue_eq (t : Word64) : thrValue t = (thrSig t : ℚ) * (2 : ℚ) ^ thrExp t := by
  unfold thrValue thrSig thrExp
  by_cases subnormal : thrExponent t = 0
  · rw [if_pos subnormal, if_pos subnormal, if_neg (by omega)]
  · rw [if_neg subnormal, if_neg subnormal, if_pos (Nat.one_le_iff_ne_zero.mpr subnormal)]
    push_cast
    rfl

/-- A scaling by 2^e with e ≥ 0, in integers. -/
theorem mul_zpow_le_iff_of_nonneg {e : ℤ} (h : 0 ≤ e) (x a : Nat) :
    (x : ℚ) * (2 : ℚ) ^ e ≤ (a : ℚ) ↔ x * 2 ^ e.toNat ≤ a := by
  obtain ⟨n, rfl⟩ := Int.eq_ofNat_of_zero_le h
  rw [zpow_natCast, Int.toNat_natCast]
  exact_mod_cast Iff.rfl

/-- A scaling by 2^e with e ≤ 0, in integers: the power goes to the other side. -/
theorem mul_zpow_le_iff_of_nonpos {e : ℤ} (h : e ≤ 0) (x a : Nat) :
    (x : ℚ) * (2 : ℚ) ^ e ≤ (a : ℚ) ↔ x ≤ a * 2 ^ (-e).toNat := by
  obtain ⟨n, rfl⟩ := Int.exists_eq_neg_ofNat h
  rw [zpow_neg, zpow_natCast, ← div_eq_mul_inv, div_le_iff₀ (by positivity), neg_neg, Int.toNat_natCast]
  exact_mod_cast Iff.rfl

/-- Settles O24: both branches of thrGE move the power of 2 to the side where its exponent is not negative. -/
theorem thresholdComparisonIsExact : Obligations.ThresholdComparisonIsExact := by
  unfold Obligations.ThresholdComparisonIsExact
  intro t a v
  have scaled : (v : ℚ) * thrValue t = ((v * thrSig t : Nat) : ℚ) * (2 : ℚ) ^ thrExp t := by
    rw [thrValue_eq, Nat.cast_mul, mul_assoc]
  rw [scaled, thrGE]
  by_cases sign : 0 ≤ thrExp t
  · rw [if_pos sign, decide_eq_true_iff, mul_zpow_le_iff_of_nonneg sign]
  · rw [if_neg sign, decide_eq_true_iff, mul_zpow_le_iff_of_nonpos (not_le.mp sign).le]

/-! ## The counts of the hash port (R101, R191, R194) -/

/-- A keyed command that the FSM accepts enters HASH with both counts 0; no other acceptance enters HASH (R191). -/
theorem fsmAccept_counts {s a : State} {c : Command} (h : fsmAccept c s = .next a) (hash : a.seq.fsm = .hash) :
    a.seq.hashAsked = 0 ∧ a.seq.hashNext = 0 := by
  unfold fsmAccept at h
  split at h
  case h_1 | h_2 =>
    injection h with h
    subst h
    cases hash
  case h_3 =>
    split at h
    all_goals
      injection h with h
      subst h
      cases hash
  case h_4 | h_5 =>
    split at h
    · injection h with h
      subst h
      exact ⟨rfl, rfl⟩
    · injection h with h
      subst h
      cases hash

/-- No more answers are latched than requests transferred, and no more of those than S (R101). -/
def State.HashCountsOk (s : State) : Prop := s.seq.hashNext ≤ s.seq.hashAsked ∧ s.seq.hashAsked ≤ s.csr.seeds

/-- `t` has the counts and the S of `s`. -/
structure State.SameHashCounts (s t : State) : Prop where
  asked : t.seq.hashAsked = s.seq.hashAsked
  latched : t.seq.hashNext = s.seq.hashNext
  seeds : t.csr.seeds = s.csr.seeds

theorem State.SameHashCounts.ok {s t : State} (same : s.SameHashCounts t) (ok : s.HashCountsOk) : t.HashCountsOk := by
  unfold State.HashCountsOk
  rw [same.asked, same.latched, same.seeds]
  exact ok

/-- An answer is latched only where it is owed (log entry 27). -/
theorem takeHash_countsOk {s : State} (rsp : Option Word32) (ok : s.HashCountsOk) :
    (s.takeHash rsp).HashCountsOk := by
  rcases takeHash_cases rsp s with ⟨-, same⟩ | ⟨v, -, owed, seq⟩
  · rwa [same]
  · rw [State.HashCountsOk, seq, takeHash_csr]
    exact ⟨owed, ok.2⟩

/-- A request is transferred only where one is still to be (R101). -/
theorem askHash_countsOk {s : State} (ready : Bool) (ok : s.HashCountsOk) : (s.askHash ready).HashCountsOk := by
  obtain ⟨answered, requested⟩ := ok
  rw [State.HashCountsOk, askHash_seq, askHash_csr]
  dsimp only
  split
  · rename_i transfer
    obtain ⟨-, missing⟩ := transfer
    exact ⟨Nat.le_succ_of_le answered, missing⟩
  · exact ⟨answered, requested⟩

/-- Row HASH keeps the counts in order, and goes to LIGHT only with all S answers latched (R191). -/
theorem fsmHash_countsOk {s : State} (h : HashInput) (hash : s.seq.fsm = .hash) (ok : s.HashCountsOk) :
    (fsmHash h s).HashCountsOk ∧
      ((fsmHash h s).seq.fsm = .light → (fsmHash h s).csr.seeds ≤ (fsmHash h s).seq.hashNext) := by
  have shaken : ((s.takeHash h.hrsp).askHash h.hreqReady).HashCountsOk := askHash_countsOk _ (takeHash_countsOk _ ok)
  have waits : ((s.takeHash h.hrsp).askHash h.hreqReady).seq.fsm = .hash := by
    rw [askHash_seq]
    rcases takeHash_cases h.hrsp s with ⟨-, same⟩ | ⟨v, -, -, seq⟩
    · rwa [same]
    · rwa [seq]
  unfold fsmHash
  dsimp only
  split
  · rename_i answered
    exact ⟨shaken, fun _ => answered⟩
  · refine ⟨shaken, fun light => ?_⟩
    rw [waits] at light
    cases light


/-! Every other row of R191 leaves the counts and the configured sizes. -/

theorem State.SameHashCounts.ite {s t r : State} {c : Prop} [Decidable c] (pos : s.SameHashCounts t)
    (neg : s.SameHashCounts r) : s.SameHashCounts (if c then t else r) := by
  split
  · exact pos
  · exact neg

theorem fsmClear_sameHashCounts (s : State) : s.SameHashCounts (fsmClear s) := ⟨rfl, rfl, rfl⟩

theorem fsmLight_sameHashCounts (s : State) : s.SameHashCounts (fsmLight s) :=
  .ite (.ite ⟨rfl, rfl, rfl⟩ ⟨rfl, rfl, rfl⟩) (.ite ⟨rfl, rfl, rfl⟩ ⟨rfl, rfl, rfl⟩)

theorem fsmMid8_sameHashCounts (s : State) : s.SameHashCounts (fsmMid8 s) :=
  .ite (.ite ⟨rfl, rfl, rfl⟩ ⟨rfl, rfl, rfl⟩) (.ite ⟨rfl, rfl, rfl⟩ ⟨rfl, rfl, rfl⟩)

theorem fsmKvInsert_sameHashCounts (s : State) : s.SameHashCounts (fsmKvInsert s) := by
  dsimp only [fsmKvInsert]
  cases s.store.findSlot s.lookup s.flightKey with
  | none => exact ⟨rfl, rfl, rfl⟩
  | some f => exact .ite ⟨rfl, rfl, rfl⟩ ⟨rfl, rfl, rfl⟩

theorem fsmKvQuery_sameHashCounts (s : State) : s.SameHashCounts (fsmKvQuery s) := by
  dsimp only [fsmKvQuery]
  cases s.store.matchScan s.lookup s.flightKey with
  | none => exact ⟨rfl, rfl, rfl⟩
  | some f => exact .ite ⟨rfl, rfl, rfl⟩ ⟨rfl, rfl, rfl⟩

theorem fsmMid16Insert_sameHashCounts (s : State) : s.SameHashCounts (fsmMid16Insert s) :=
  .ite ⟨rfl, rfl, rfl⟩ ⟨rfl, rfl, rfl⟩

theorem fsmMid16Query_sameHashCounts (s : State) : s.SameHashCounts (fsmMid16Query s) :=
  .ite ⟨rfl, rfl, rfl⟩ ⟨rfl, rfl, rfl⟩

theorem fsmHeavy_sameHashCounts (s : State) : s.SameHashCounts (fsmHeavy s) := by
  refine .ite ?_ ⟨rfl, rfl, rfl⟩
  cases s.seq.hvNext with
  | resp => exact ⟨rfl, rfl, rfl⟩
  | evict => exact ⟨rfl, rfl, rfl⟩

theorem fsmEvict_sameHashCounts (s : State) : s.SameHashCounts (fsmEvict s) := by
  dsimp only [fsmEvict]
  cases s.store.kvMin s.lookup with
  | none => exact ⟨rfl, rfl, rfl⟩
  | some k => exact .ite ⟨rfl, rfl, rfl⟩ ⟨rfl, rfl, rfl⟩

/-- A transition that needs a configuration, inverted (log entry 14). -/
theorem eq_of_configured {valid : Bool} {r t : State} {e : Fault}
    (h : (if valid = true then Host.Outcome.next r else .fault e : Result) = .next t) : t = r := by
  split at h
  · injection h with h
    exact h.symm
  · cases h

theorem advance_sameHashCounts {h : HashInput} {s t : State} (ht : advance h s = .next t)
    (notHash : s.seq.fsm ≠ .hash) : s.SameHashCounts t := by
  cases hf : s.seq.fsm with simp only [advance, hf] at ht
  | hash => exact absurd hf notHash
  | uncfg | idle | resp =>
    injection ht with ht
    subst ht
    exact ⟨rfl, rfl, rfl⟩
  | clear =>
    injection ht with ht
    subst ht
    exact fsmClear_sameHashCounts s
  | light => exact eq_of_configured ht ▸ fsmLight_sameHashCounts s
  | mid8 => exact eq_of_configured ht ▸ fsmMid8_sameHashCounts s
  | kv => exact eq_of_configured ht ▸ .ite (fsmKvInsert_sameHashCounts s) (fsmKvQuery_sameHashCounts s)
  | mid16 => exact eq_of_configured ht ▸ .ite (fsmMid16Insert_sameHashCounts s) (fsmMid16Query_sameHashCounts s)
  | heavy => exact eq_of_configured ht ▸ fsmHeavy_sameHashCounts s
  | evict => exact eq_of_configured ht ▸ fsmEvict_sameHashCounts s

theorem advance_hash_eq {h : HashInput} {s t : State} (ht : advance h s = .next t) (hash : s.seq.fsm = .hash) :
    t = fsmHash h s := by
  simp only [advance, hash] at ht
  exact eq_of_configured ht

/-- Settles O57: in HASH the handshakes keep the counts in order, and where it goes on, S ≤ answers ≤ requests ≤ S; every
other transition leaves them. -/
theorem hashAnswersNeverOutrunRequests : Obligations.HashAnswersNeverOutrunRequests := by
  unfold Obligations.HashAnswersNeverOutrunRequests
  refine ⟨fun s a c _ => fsmAccept_counts, fun s t h answered requested ht => ?_⟩
  by_cases hash : s.seq.fsm = .hash
  · obtain rfl := advance_hash_eq ht hash
    obtain ⟨⟨answered', requested'⟩, complete⟩ := fsmHash_countsOk h hash ⟨answered, requested⟩
    refine ⟨answered', requested', fun _ light => ?_⟩
    have all := complete light
    exact ⟨(answered'.trans requested').antisymm all, requested'.antisymm (all.trans answered')⟩
  · obtain ⟨answered', requested'⟩ := (advance_sameHashCounts ht hash).ok ⟨answered, requested⟩
    exact ⟨answered', requested', fun isHash => absurd isHash hash⟩

end Sys2Proof.Machine
end

section
/-! SUPPORT. The statements about the light tier (41_light_tier.md): the INSERTs that end in the light and in the 8-bit
tier (R120, R130), and the QUERY right after an INSERT of the same key (R122, R132, R143, R157). -/

namespace Sys2Proof.Machine

/-! ## An INSERT that is served (R172) -/

/-- INSERT of a served key completes with the storage and the estimate of its stages. -/
theorem exec_insert_of_serves {s : State} {klen : BitVec 8} {p : List Byte} {count : Word32} {store : Storage}
    {est : Nat} (serves : s.serves klen)
    (ends : insertLight (s.asks (keyOf klen p)) count.toNat s.store = (store, est)) :
    ∃ t, exec (.insert klen p count) s = .next t ∧ Completes (.insert klen p count) p (keyOf klen p) est s t ∧
      t.store = store := by
  have ran := execInsert_serves (p := p) (count := count) serves
  rw [ends] at ran
  exact ⟨_, ran, completes_respond s _ klen p store est, rfl⟩

/-- Settles O31: the stages of the INSERT are the light tier's writeback alone. -/
theorem insertEndingInTheLightTier : Obligations.InsertEndingInTheLightTier := by
  unfold Obligations.InsertEndingInTheLightTier
  intro s klen p count serves key u cand low
  have ends : insertLight (s.asks key) count.toNat s.store = (s.store.lightRaise u cand, cand) := insertLight_light low
  obtain ⟨t, ran, completes, store⟩ := exec_insert_of_serves serves ends
  refine ⟨t, ran, completes, ?_⟩
  rw [store]
  exact ⟨nib_lightRaise s.store u (by omega), lightRaise_c8 s.store u cand, lightRaise_beyond s.store u cand⟩

/-- Settles O32: the stages are the saturation of the light probes and the writeback of the 8-bit tier. -/
theorem insertEndingInThe8BitTier : Obligations.InsertEndingInThe8BitTier := by
  unfold Obligations.InsertEndingInThe8BitTier
  intro s klen p count serves key u cand8 overflow low
  have ends : insertLight (s.asks key) count.toNat s.store =
      ((s.store.lightFill u).c8Raise u cand8, 14 + cand8) := insertLight_mid8 overflow low
  obtain ⟨t, ran, completes, store⟩ := exec_insert_of_serves serves ends
  refine ⟨t, ran, completes, ?_⟩
  rw [store]
  refine ⟨nib_lightFill s.store u, fun k => ?_, lightFill_beyond s.store u⟩
  rw [← lightFill_c8 s.store u]
  exact Cells.toNat_raiseTo u.nodup_c8Probes (by omega) _ k

/-! ## The minima after a writeback (R106, R108) -/

theorem Lookup.lightProbes_ne_nil {u : Lookup} (h : 0 < u.l) : u.lightProbes ≠ [] := by
  simpa [Lookup.lightProbes] using h.ne'

theorem Lookup.c8Probes_ne_nil {u : Lookup} (h : 0 < u.m) : u.c8Probes ≠ [] := by
  simpa [Lookup.c8Probes] using h.ne'

theorem Lookup.c16Probes_ne_nil {u : Lookup} (h : 0 < u.m) : u.c16Probes ≠ [] := by
  simpa [Lookup.c16Probes] using h.ne'

/-- The light writeback makes its candidate the minimum. -/
theorem lightMin_lightRaise {t : Storage} {u : Lookup} {cand : Nat} (layers : 0 < u.l) (fits : cand < 16)
    (le : t.lightMin u ≤ cand) : (t.lightRaise u cand).lightMin u = cand :=
  calc (t.lightRaise u cand).lightMin u
      = minOf (u.lightProbes.map fun q => max (t.nib q) cand) :=
        congrArg minOf (List.map_congr_left fun q hq => by rw [nib_lightRaise t u fits, if_pos hq])
    _ = cand := minOf_raise _ (Lookup.lightProbes_ne_nil layers) t.nib le

/-- The saturate-all writeback makes 15 the minimum. -/
theorem lightMin_lightFill {u : Lookup} (t : Storage) (layers : 0 < u.l) : (t.lightFill u).lightMin u = 15 :=
  calc (t.lightFill u).lightMin u
      = minOf (u.lightProbes.map fun _ => 15) :=
        congrArg minOf (List.map_congr_left fun q hq => by rw [nib_lightFill, if_pos hq])
    _ = 15 := minOf_const _ (Lookup.lightProbes_ne_nil layers) 15

theorem lightMin_congr {t t' : Storage} (u : Lookup) (h : t'.light = t.light) : t'.lightMin u = t.lightMin u :=
  congrArg minOf (List.map_congr_left fun q _ => nib_congr h q)

namespace Cells
variable {w : Nat} {ks : List Index}

/-- Probes that are each the larger of what they were and a candidate have the candidate as their minimum. -/
theorem minAt_of_raised {m m' : Cells w} {cand : Nat} (nonempty : ks ≠ [])
    (raised : ∀ k ∈ ks, (m'.read k).toNat = max (m.read k).toNat cand) (le : m.minAt ks ≤ cand) : m'.minAt ks = cand :=
  calc m'.minAt ks
      = minOf (ks.map fun k => max (m.read k).toNat cand) := congrArg minOf (List.map_congr_left raised)
    _ = cand := minOf_raise ks nonempty (fun k => (m.read k).toNat) le

theorem minAt_of_const {m : Cells w} {n : Nat} (nonempty : ks ≠ []) (const : ∀ k ∈ ks, (m.read k).toNat = n) :
    m.minAt ks = n :=
  calc m.minAt ks
      = minOf (ks.map fun _ => n) := congrArg minOf (List.map_congr_left const)
    _ = n := minOf_const ks nonempty n

end Cells

/-- The 8-bit writeback makes its candidate the minimum. -/
theorem c8Min_c8Raise {t : Storage} {u : Lookup} {cand : Nat} (layers : 0 < u.m) (fits : cand < 256)
    (le : t.c8Min u ≤ cand) : (t.c8Raise u cand).c8Min u = cand :=
  Cells.minAt_of_raised (Lookup.c8Probes_ne_nil layers)
    (fun k hk => (Cells.toNat_raiseTo u.nodup_c8Probes fits t.c8 k).trans (if_pos hk)) le

/-- The 16-bit stage makes its candidate the minimum, or 65535 where it is larger (R150). -/
theorem c16Min_counted16 {t : Storage} {u : Lookup} {cand : Nat} (layers : 0 < u.m) (le : t.c16Min u ≤ cand) :
    (t.counted16 u cand).c16Min u = min cand 65535 := by
  have nonempty := Lookup.c16Probes_ne_nil layers
  by_cases low : cand < 65535
  · rw [Nat.min_eq_left low.le]
    exact Cells.minAt_of_raised nonempty (fun k hk => by rw [counted16_c16, if_pos hk, if_pos low]) le
  · rw [Nat.min_eq_right (Nat.not_lt.mp low)]
    exact Cells.minAt_of_const nonempty fun k hk => by rw [counted16_c16, if_pos hk, if_neg low]

/-- The 16-bit stage adds to the heavy counter where its candidate saturates (R151). -/
theorem heavyAt_counted16 {t : Storage} {u : Lookup} {cand : Nat} (sat : 65535 ≤ cand) :
    (t.counted16 u cand).heavyAt u = satAdd 32 (t.heavyAt u) (cand - 65534) :=
  (counted16_heavy t u cand u.heavyProbe).trans (if_pos ⟨rfl, sat⟩)

/-! ## What a QUERY answers (R121, R131, R142, R155) -/

section query
variable {r : Request} {t : Storage} {n : Nat}

/-- The light tier answers (R121). -/
theorem queryLight_of_light (light : t.lightMin r.look = n) (low : n < 15) : queryLight r t = n := by
  simp [queryLight, light, low]

/-- The 8-bit tier answers (R131). -/
theorem queryLight_of_mid8 (light : t.lightMin r.look = 15) (c8 : t.c8Min r.look = n) (low : n < 255) :
    queryLight r t = 14 + n := by
  simp [queryLight, queryMid8, light, c8, low]

/-- Both low tiers have saturated at the probes of a key (R121, R131). -/
structure Storage.LowFull (t : Storage) (u : Lookup) : Prop where
  light : t.lightMin u = 15
  c8 : t.c8Min u = 255

/-- An INSERT that goes beyond the 8-bit tier leaves both low tiers saturated (R120, R130). -/
theorem Storage.LowFull.of_lowFilled {u : Lookup} (t₀ : Storage) (hl : 0 < u.l) (hm : 0 < u.m)
    (light : t.light = (t₀.lowFilled u).light) (c8 : t.c8 = (t₀.lowFilled u).c8) : t.LowFull u where
  light := (lightMin_congr u light).trans (lightMin_lightFill t₀ hl)
  c8 := by
    rw [Storage.c8Min, c8]
    exact Cells.minAt_of_const (Lookup.c8Probes_ne_nil hm) fun k hk => by rw [lowFilled_c8, if_pos hk]

theorem Storage.LowFull.heavyAdd {u : Lookup} (h : t.LowFull u) (x : Nat) : (t.heavyAdd u x).LowFull u :=
  ⟨h.light, h.c8⟩

theorem Storage.LowFull.evict {u : Lookup} (h : t.LowFull u) (m : Nat) (key : List Byte) (k v m16r : Nat) :
    (t.evict u m key k v m16r).LowFull u :=
  ⟨h.light, h.c8⟩

/-- The key is in a slot: VAL answers, or the heavy counter where VAL is saturated (R142). -/
theorem queryLight_of_match {f : Nat} (full : t.LowFull r.look) (hf : t.matchScan r.look r.key = some f) :
    queryLight r t =
      if t.valAt r.look f < 65535 then 268 + t.valAt r.look f else 65802 + t.heavyAt r.look := by
  simp [queryLight, queryMid8, queryKv, queryHeavy, full.light, full.c8, hf]

/-- The key is in no slot: the 16-bit counters answer, or the heavy counter where they are saturated (R155). -/
theorem queryLight_of_noMatch (full : t.LowFull r.look) (hf : t.matchScan r.look r.key = none) :
    queryLight r t =
      if t.c16Min r.look < 65535 then 268 + t.c16Min r.look else 65802 + t.heavyAt r.look := by
  simp [queryLight, queryMid8, queryKv, queryMid16, queryHeavy, full.light, full.c8, hf]

end query

/-! ## Where MatchScan finds the key of an INSERT (R112, R141, R154) -/

section slot
variable {t t' : Storage} {u : Lookup} {key : List Byte} {n f : Nat}

theorem Storage.SameKeys.matchScan (h : t.SameKeys t') (u : Lookup) (key : List Byte) :
    t'.matchScan u key = t.matchScan u key := by
  simp only [Storage.matchScan, h.keyEq]

/-- A key written into a layer is found there, where no candidate bucket held it. -/
theorem matchScan_keyWrite (layer : f < u.m) (absent : t.matchScan u key = none) (len : key.length ≤ n) (hn : n ≤ 255) :
    (t.keyWrite u n key f).matchScan u key = some f := by
  refine matchScan_eq_some_iff.mpr ⟨layer, ?_, fun g below => ?_⟩
  · rw [keyEq_keyWrite_same t u u key key f rfl len hn, decide_eq_true_iff]
  · rw [keyEq_keyWrite_other t u u key key f g fun same => below.ne (Lookup.bucket_inj same)]
    exact matchScan_eq_none_iff.mp absent g (below.trans layer)

/-- The slot that FindSlot answered holds the key once it is claimed. -/
theorem matchScan_claim (hf : t.findSlot u key = some f) (len : key.length ≤ n) (hn : n ≤ 255) :
    (t.claim u n key f).matchScan u key = some f := by
  rw [findSlot_eq_or, Option.or_eq_some_iff] at hf
  rcases hf with found | ⟨absent, free⟩
  · have held := (matchScan_some found).2
    rwa [claim_held ((keyEq_iff t u key f).mp held).1]
  · obtain ⟨layer, unclaimed, -⟩ := freeScan_eq_some_iff.mp free
    rw [claim_free unclaimed]
    exact matchScan_keyWrite layer absent len hn

/-- A key that was in no slot is found in the bucket it was put into by an eviction (R154). -/
theorem matchScan_evict (k v m : Nat) (layer : k < u.m) (absent : t.matchScan u key = none) (len : key.length ≤ n)
    (hn : n ≤ 255) : (t.evict u n key k v m).matchScan u key = some k := by
  have keys : (t.keyWrite u n key k).SameKeys (t.evict u n key k v m) := ⟨evict_occ .., evict_kls .., evict_keyb ..⟩
  rw [keys.matchScan, matchScan_keyWrite layer absent len hn]

theorem valAt_heavyAdd (t : Storage) (u : Lookup) (x j : Nat) : (t.heavyAdd u x).valAt u j = t.valAt u j := rfl

theorem valAt_evict (k v : Nat) {m : Nat} (fits : m < 65536) : (t.evict u n key k v m).valAt u k = m := by
  rw [Storage.valAt, evict_val, Cells.read_write_same, BitVec.toNat_ofNat, Nat.mod_eq_of_lt fits]

end slot

/-! ## A QUERY right after an INSERT -/

/-! What the last stage of an INSERT leaves of what a QUERY reads: the saturated low tiers, the slot and the heavy
counter. -/

section after
variable {t : Storage} {u : Lookup} {key : List Byte} {n f : Nat}

theorem lowFull_of_slot (t : Storage) (key : List Byte) (n f v : Nat) (hl : 0 < u.l) (hm : 0 < u.m) :
    (((t.lowFilled u).claim u n key f).setVal u f v).LowFull u :=
  .of_lowFilled t hl hm (claim_light ..) (claim_c8 ..)

theorem matchScan_slot (v : Nat) (hf : t.findSlot u key = some f) (len : key.length ≤ n) (hn : n ≤ 255) :
    (((t.lowFilled u).claim u n key f).setVal u f v).matchScan u key = some f := by
  rw [(setVal_sameKeys ..).matchScan]
  exact matchScan_claim ((findSlot_lowFilled t u u key).trans hf) len hn

theorem heavyAt_slot (t : Storage) (key : List Byte) (n f v : Nat) :
    (((t.lowFilled u).claim u n key f).setVal u f v).heavyAt u = t.heavyAt u := by
  simp only [Storage.heavyAt, Storage.setVal, claim_heavy, lowFilled_heavy]

theorem lowFull_of_counted16 (t : Storage) (cand : Nat) (hl : 0 < u.l) (hm : 0 < u.m) :
    ((t.lowFilled u).counted16 u cand).LowFull u :=
  .of_lowFilled t hl hm (counted16_light ..) (counted16_c8 ..)

theorem matchScan_counted16_of_findSlot (cand : Nat) (hf : t.findSlot u key = none) :
    ((t.lowFilled u).counted16 u cand).matchScan u key = none := by
  rw [(counted16_sameKeys ..).matchScan, matchScan_lowFilled]
  exact matchScan_eq_none_iff.mpr (findSlot_none hf).1

/-- What a QUERY reads off an updated 16-bit minimum is what the INSERT answered from its candidate (R150, R155). -/
theorem estimate_of_min16 {cand h h' : Nat} (heavy : 65535 ≤ cand → h' = h) :
    (if min cand 65535 < 65535 then 268 + min cand 65535 else 65802 + h') =
      if cand < 65535 then 268 + cand else 65802 + h := by
  by_cases low : cand < 65535
  · rw [Nat.min_eq_left low.le]
    simp only [if_pos low]
  · rw [Nat.min_eq_right (Nat.not_lt.mp low), if_neg low, if_neg (lt_irrefl _), heavy (Nat.not_lt.mp low)]

end after

/-- The stages of a QUERY answer, on the storage that the stages of an INSERT of the same key leave, the estimate of that
INSERT: the tiers that saturated pass both on, and the one that took the count holds what was answered. -/
theorem queryLight_insertLight {r : Request} (n : Nat) (t : Storage) (hl : 0 < r.look.l) (hm : 0 < r.look.m)
    (len : r.key.length ≤ r.keyMaxLen) (hn : r.keyMaxLen ≤ 255) :
    queryLight r (insertLight r n t).1 = (insertLight r n t).2 := by
  rcases insertLight_cases r n t with ⟨cand, hc, low, e⟩ | ⟨cand, -, hc, low, e⟩ | ⟨f, nv, -, hf, -, room, e⟩ |
    ⟨f, x, -, hf, -, -, e⟩ | ⟨cand, -, hf, hc, est, e⟩
  · rw [e]
    exact queryLight_of_light (lightMin_lightRaise hl (by omega) (by omega)) low
  · have le : (t.lightFill r.look).c8Min r.look ≤ cand := by
      rw [Storage.c8Min, lightFill_c8, hc]
      exact Nat.le_add_right _ _
    rw [e]
    exact queryLight_of_mid8 (lightMin_lightFill t hl) (c8Min_c8Raise hm (by omega) le) low
  · rw [e, queryLight_of_match (lowFull_of_slot t r.key _ f nv hl hm) (matchScan_slot nv hf len hn),
      valAt_setVal _ _ _ _ (by omega), if_pos rfl, if_pos room]
  · have full := (lowFull_of_slot t r.key r.keyMaxLen f 65535 hl hm).heavyAdd x
    have found := ((heavyAdd_sameKeys _ r.look x).matchScan r.look r.key).trans (matchScan_slot 65535 hf len hn)
    rw [e, queryLight_of_match full found, valAt_heavyAdd, valAt_setVal _ _ _ _ (by omega), if_pos rfl,
      if_neg (lt_irrefl _), heavyAt_heavyAdd, heavyAt_slot]
  · have full := lowFull_of_counted16 t cand hl hm
    have absent := matchScan_counted16_of_findSlot cand hf
    have heavy : 65535 ≤ cand → ((t.lowFilled r.look).counted16 r.look cand).heavyAt r.look =
        satAdd 32 (t.heavyAt r.look) (cand - 65534) := fun sat => by
      rw [heavyAt_counted16 sat, Storage.heavyAt, lowFilled_heavy, ← Storage.heavyAt]
    rw [est]
    rcases e with e | ⟨k, hk, -, e⟩ <;> rw [e]
    · have min16 : ((t.lowFilled r.look).counted16 r.look cand).c16Min r.look = min cand 65535 :=
        c16Min_counted16 hm (by rw [Storage.c16Min, lowFilled_c16, hc]; exact Nat.le_add_right _ _)
      rw [queryLight_of_noMatch full absent, min16]
      exact estimate_of_min16 heavy
    · have layer := (kvMin_eq_some.mp hk).1
      rw [queryLight_of_match (full.evict ..) (matchScan_evict k _ _ layer absent len hn), valAt_evict _ _ (by omega)]
      exact estimate_of_min16 heavy

/-- A status is 0 only where it is OK (R200). -/
theorem Status.code_eq_zero_iff (st : Status) : st.code = 0 ↔ st = .ok := by
  cases st <;> decide

/-- An INSERT that answered OK: it was served, and what it leaves of the state that a QUERY of its key reads, with its
estimate (R172, R202). -/
structure Inserted (s : State) (klen : BitVec 8) (p : List Byte) (count : Word32) (t : State) : Prop where
  serves : s.serves klen
  inst : t.inst = s.inst
  csr : t.csr = s.csr
  store : t.store = (insertLight (s.asks (keyOf klen p)) count.toNat s.store).1
  est : t.seq.rspEst = BitVec.ofNat 64 (insertLight (s.asks (keyOf klen p)) count.toNat s.store).2

theorem execInsert_inserted {klen : BitVec 8} {p : List Byte} {count : Word32} {s t : State}
    (h : execInsert klen p count s = .next t) (answered : t.seq.rspStatus = 0) : Inserted s klen p count t := by
  rcases execInsert_next h with ⟨-, failed, rfl⟩ | ⟨serves, rfl⟩
  · exact absurd ((Status.code_eq_zero_iff _).mp answered) failed
  · exact ⟨serves, latched_inst .., latched_csr .., rfl, rfl⟩

/-- Settles O40: the QUERY is admitted as the INSERT was and asks the same of the storage, where the stages of the INSERT
have left its estimate. -/
theorem queryAfterInsertAnswersTheSame : Obligations.QueryAfterInsertAnswersTheSame := by
  unfold Obligations.QueryAfterInsertAnswersTheSame
  intro s t u klen p count inv ran answered hash asked
  have first : Inserted s klen p count t := execInsert_inserted ran answered
  have second : Queried t.deliver klen p u := execQuery_queried asked
  obtain ⟨conf, valid, legal⟩ := first.serves
  obtain ⟨hl, hm, -⟩ := cfgValid_pos valid
  have admits : t.deliver.admitKeyed klen = .ok := by
    rw [deliver_admitKeyed, admitKeyed_congr klen first.inst first.csr]
    exact admitKeyed_eq_ok.mpr ⟨conf, legal⟩
  have asks : t.deliver.asks (keyOf klen p) = s.asks (keyOf klen p) :=
    (deliver_asks t _).trans (asks_congr first.inst first.csr hash)
  have len : (keyOf klen p).length ≤ s.inst.keyMaxLen := by
    rw [keyOf_length]
    exact legal.2
  have same := queryLight_insertLight (r := s.asks (keyOf klen p)) count.toNat s.store hl hm len
    (keyMaxLen_le_of_legal inv.legal)
  constructor
  · rw [second.status, admits]
    rfl
  · rw [second.est, if_pos admits, asks, deliver_store, first.store, same, first.est]

end Sys2Proof.Machine
end

section
/-! SUPPORT. The statements about the key-value tier (43_kv_tier.md): the INSERTs that end in a slot, kept in its VAL or
overflowing into the heavy array (R140, R141, R161). -/

namespace Sys2Proof.Machine

/-! ## The writes of the slot stage, element by element (R111, R140, R161) -/

theorem toNat_setVal_val (t : Storage) (u : Lookup) (j : Nat) {v : Nat} (fits : v < 65536) (k : Index) :
    ((t.setVal u j v).val.read k).toNat = if k = u.bucket j then v else (t.val.read k).toNat := by
  rw [Storage.setVal, Cells.read_write]
  split
  · rw [BitVec.toNat_ofNat, Nat.mod_eq_of_lt fits]
  · rfl

theorem toNat_heavyAdd_heavy (t : Storage) (u : Lookup) (x : Nat) (k : Index) :
    ((t.heavyAdd u x).heavy.read k).toNat =
      if k = u.heavyProbe then satAdd 32 (t.heavyAt u) x else (t.heavy.read k).toNat := by
  rw [Storage.heavyAdd, Cells.read_write]
  split
  · rw [BitVec.toNat_ofNat, Nat.mod_eq_of_lt (Cells.satAdd_lt 32 _ _)]
  · rfl

/-- Both low tiers are saturated in any storage that has their arrays as saturation left them (R108). -/
theorem lowTiersSaturated_of_lowFilled {t t' : Storage} {u : Lookup} (light : t'.light = (t.lowFilled u).light)
    (c8 : t'.c8 = (t.lowFilled u).c8) : lowTiersSaturated u t t' :=
  ⟨fun q => (nib_congr light q).trans (lowFilled_nib t u q), fun k => by rw [c8, lowFilled_c8]⟩

/-! ## The slot that an INSERT ends in -/

/-- The storage of an INSERT that leaves `v` in VAL of slot `f`, before any heavy add (R130, R140). -/
def Storage.keptInSlot (t : Storage) (u : Lookup) (keyMaxLen : Nat) (key : List Byte) (f v : Nat) : Storage :=
  ((t.lowFilled u).claim u keyMaxLen key f).setVal u f v

/-- The slot has room: the remainder goes into VAL (R140). -/
theorem insertLight_slot_room {r : Request} {n f nv : Nat} {t : Storage} (overflow : lowTiersOverflow r.look t n)
    (found : t.findSlot r.look r.key = some f) (sum : t.valAt r.look f + remAfterLowTiers r.look t n = nv)
    (room : nv < 65535) :
    insertLight r n t = (t.keptInSlot r.look r.keyMaxLen r.key f nv, 268 + nv) := by
  subst sum
  rw [← valAt_lowFilled t r.look] at room ⊢
  rw [insertLight_kv overflow]
  exact insertKv_room ((findSlot_lowFilled ..).trans found) room

/-- The slot overflows: VAL saturates and the excess goes to the heavy counter (R140, R161). -/
theorem insertLight_slot_overflow {r : Request} {n f nv : Nat} {t : Storage} (overflow : lowTiersOverflow r.look t n)
    (found : t.findSlot r.look r.key = some f) (sum : t.valAt r.look f + remAfterLowTiers r.look t n = nv)
    (full : 65535 ≤ nv) :
    insertLight r n t =
      ((t.keptInSlot r.look r.keyMaxLen r.key f 65535).heavyAdd r.look (nv - 65534),
        65802 + satAdd 32 (t.heavyAt r.look) (nv - 65534)) := by
  subst sum
  have heavy : (t.lowFilled r.look).heavyAt r.look = t.heavyAt r.look := by simp only [Storage.heavyAt, lowFilled_heavy]
  rw [← valAt_lowFilled t r.look] at full ⊢
  rw [insertLight_kv overflow, ← heavy]
  exact insertKv_overflow ((findSlot_lowFilled ..).trans found) full

/-- What an INSERT that ends in slot `f` with `v` in VAL makes of every array but the heavy one (R140, R141). -/
structure EndsInSlot (u : Lookup) (keyMaxLen : Nat) (key : List Byte) (f v : Nat) (t t' : Storage) : Prop where
  low : lowTiersSaturated u t t'
  val : ∀ k, (t'.val.read k).toNat = if k = u.bucket f then v else (t.val.read k).toNat
  claimed : t.occ.read (u.bucket f) = 0 → keyWritten u keyMaxLen key f t t'
  held : t.occ.read (u.bucket f) = 1 → t'.occ = t.occ ∧ t'.kls = t.kls ∧ t'.keyb = t.keyb
  c16 : t'.c16 = t.c16

theorem endsInSlot_keptInSlot (t : Storage) (u : Lookup) (n : Nat) {key : List Byte} (f : Nat) {v : Nat}
    (len : key.length < 256) (fits : v < 65536) : EndsInSlot u n key f v t (t.keptInSlot u n key f v) where
  low := lowTiersSaturated_of_lowFilled (claim_light ..) (claim_c8 ..)
  val k := by rw [Storage.keptInSlot, toNat_setVal_val _ _ _ fits, claim_val, lowFilled_val]
  claimed unclaimed := by
    rw [Storage.keptInSlot, claim_free ((congrArg (Cells.read · _) (lowFilled_occ t u)).trans unclaimed)]
    exact keyWritten_keyWrite u n key f len (lowFilled_occ t u) (lowFilled_kls t u) (lowFilled_keyb t u) rfl rfl rfl
  held occupied := by
    rw [Storage.keptInSlot, claim_held ((congrArg (Cells.read · _) (lowFilled_occ t u)).trans occupied)]
    exact ⟨lowFilled_occ t u, lowFilled_kls t u, lowFilled_keyb t u⟩
  c16 := (claim_c16 ..).trans (lowFilled_c16 t u)

/-- The heavy add reaches the heavy array only (R161). -/
theorem EndsInSlot.heavyAdd {u : Lookup} {n : Nat} {key : List Byte} {f v : Nat} {t t' : Storage}
    (h : EndsInSlot u n key f v t t') (x : Nat) : EndsInSlot u n key f v t (t'.heavyAdd u x) :=
  ⟨h.low, h.val, h.claimed, h.held, h.c16⟩

theorem keptInSlot_heavy (t : Storage) (u : Lookup) (n : Nat) (key : List Byte) (f v : Nat) :
    (t.keptInSlot u n key f v).heavy = t.heavy :=
  (claim_heavy ..).trans (lowFilled_heavy t u)

theorem keyOf_length_lt (klen : BitVec 8) (p : List Byte) : (keyOf klen p).length < 256 := by
  rw [keyOf_length]
  exact klen.isLt

/-- Settles O33: the slot has room, so the stages end with the write of VAL. -/
theorem insertKeptInItsSlot : Obligations.InsertKeptInItsSlot := by
  unfold Obligations.InsertKeptInItsSlot
  intro s klen p count f serves key u nv overflow found room
  have ends : insertLight (s.asks key) count.toNat s.store =
      (s.store.keptInSlot u s.inst.keyMaxLen key f nv, 268 + nv) := insertLight_slot_room overflow found rfl room
  obtain ⟨t, ran, completes, store⟩ := exec_insert_of_serves serves ends
  have slot := endsInSlot_keptInSlot s.store u s.inst.keyMaxLen f (keyOf_length_lt klen p) (v := nv) (by omega)
  refine ⟨t, ran, completes, ?_⟩
  rw [store]
  exact ⟨slot.low, slot.val, slot.claimed, slot.held, slot.c16, keptInSlot_heavy ..⟩

/-- Settles O34: the slot has no room, so the stages end with the heavy add of what VAL does not hold. -/
theorem insertOverflowingItsSlot : Obligations.InsertOverflowingItsSlot := by
  unfold Obligations.InsertOverflowingItsSlot
  intro s klen p count f serves key u nv heavy overflow found full
  have ends : insertLight (s.asks key) count.toNat s.store =
      ((s.store.keptInSlot u s.inst.keyMaxLen key f 65535).heavyAdd u (nv - 65534), 65802 + heavy) :=
    insertLight_slot_overflow overflow found rfl full
  obtain ⟨t, ran, completes, store⟩ := exec_insert_of_serves serves ends
  have slot := (endsInSlot_keptInSlot s.store u s.inst.keyMaxLen f (keyOf_length_lt klen p) (v := 65535)
    (by decide)).heavyAdd (nv - 65534)
  refine ⟨t, ran, completes, ?_⟩
  rw [store]
  refine ⟨slot.low, slot.val, fun k => ?_, slot.claimed, slot.held, slot.c16⟩
  rw [toNat_heavyAdd_heavy, Storage.heavyAt, keptInSlot_heavy]
  rfl

end Sys2Proof.Machine
end

section
/-! SUPPORT. The statements about the 16-bit tier and eviction (44_middle16_evict.md): kv_min, the INSERTs that find no
slot, with and without an eviction (R150 to R154), and what becomes of the evicted key (R156). -/

namespace Sys2Proof.Machine

/-! ## kv_min (R153) -/

theorem valMin_le_valAt (t : Storage) {u : Lookup} {j : Nat} (layer : j < u.m) : t.valMin u ≤ t.valAt u j :=
  (minOf_range (Nat.zero_lt_of_lt layer) (t.valAt u)).1 j layer

/-- Settles O23: the scan for the least VAL finds a layer, and each layer that it passes over has another VAL. -/
theorem kvMinIsTheLowestLeastValue : Obligations.KvMinIsTheLowestLeastValue := by
  unfold Obligations.KvMinIsTheLowestLeastValue
  intro t u pos
  obtain ⟨k, found⟩ := kvMin_isSome t pos
  obtain ⟨layer, least, passed⟩ := kvMin_eq_some.mp found
  have le : ∀ j < u.m, t.valAt u k ≤ t.valAt u j := fun j hj => least.trans_le (valMin_le_valAt t hj)
  have ne : ∀ j < k, t.valAt u k ≠ t.valAt u j := fun j hj same => passed j hj (same.symm.trans least)
  exact ⟨k, layer, found, le, fun j hj => (le j (hj.trans layer)).lt_of_ne (ne j hj)⟩

/-! ## The counters of an INSERT that finds no slot (R150, R151) -/

/-- The storage of an INSERT that finds no slot, before the eviction decision (R150). -/
def Storage.countedWithoutSlot (t : Storage) (u : Lookup) (cand : Nat) : Storage := (t.lowFilled u).counted16 u cand

section countedWithoutSlot
variable (t : Storage) (u : Lookup) (cand : Nat)

theorem countedWithoutSlot_low : lowTiersSaturated u t (t.countedWithoutSlot u cand) :=
  lowTiersSaturated_of_lowFilled (counted16_light ..) (counted16_c8 ..)

theorem countedWithoutSlot_sameKeys : t.SameKeys (t.countedWithoutSlot u cand) :=
  (lowFilled_sameKeys t u).trans (counted16_sameKeys ..)

theorem countedWithoutSlot_val : (t.countedWithoutSlot u cand).val = t.val :=
  (counted16_val ..).trans (lowFilled_val t u)

theorem countedWithoutSlot_valAt (j : Nat) : (t.countedWithoutSlot u cand).valAt u j = t.valAt u j := by
  rw [Storage.valAt, countedWithoutSlot_val, Storage.valAt]

theorem countedWithoutSlot_kvMin : (t.countedWithoutSlot u cand).kvMin u = t.kvMin u :=
  kvMin_congr u (countedWithoutSlot_val t u cand)

theorem countedWithoutSlot_c16 (a : Index) :
    ((t.countedWithoutSlot u cand).c16.read a).toNat =
      if a ∈ u.c16Probes then (if cand < 65535 then max (t.c16.read a).toNat cand else 65535)
      else (t.c16.read a).toNat := by
  rw [Storage.countedWithoutSlot, counted16_c16, lowFilled_c16]

theorem countedWithoutSlot_heavy (a : Index) :
    ((t.countedWithoutSlot u cand).heavy.read a).toNat =
      if a = u.heavyProbe ∧ 65535 ≤ cand then satAdd 32 (t.heavyAt u) (cand - 65534)
      else (t.heavy.read a).toNat := by
  rw [Storage.countedWithoutSlot, counted16_heavy, Storage.heavyAt, lowFilled_heavy, Storage.heavyAt]

end countedWithoutSlot

/-! ## The eviction decision (R153, R157) -/

/-- The estimate of an INSERT that finds no slot, which the eviction does not change (R150, R157). -/
def Storage.estWithoutSlot (t : Storage) (u : Lookup) (cand : Nat) : Nat :=
  if cand < 65535 then 268 + cand else 65802 + satAdd 32 (t.heavyAt u) (cand - 65534)

section
variable {r : Request} {n cand k : Nat} {t : Storage}

/-- No slot is found: the 16-bit stage counts, and the eviction is decided on its updated minimum (R150 to R153). -/
theorem insertLight_no_slot (overflow : lowTiersOverflow r.look t n) (absent : t.findSlot r.look r.key = none)
    (sum : t.c16Min r.look + remAfterLowTiers r.look t n = cand) :
    insertLight r n t =
      (insertEvict r (min cand 65535) (t.countedWithoutSlot r.look cand), t.estWithoutSlot r.look cand) := by
  subst sum
  have c16 : (t.lowFilled r.look).c16Min r.look = t.c16Min r.look := by simp only [Storage.c16Min, lowFilled_c16]
  have heavy : (t.lowFilled r.look).heavyAt r.look = t.heavyAt r.look := by simp only [Storage.heavyAt, lowFilled_heavy]
  rw [insertLight_kv overflow, insertKv_none ((findSlot_lowFilled ..).trans absent), c16, heavy]
  rfl

/-- Below vmin · THR the key stays untracked (R153). -/
theorem insertLight_no_slot_keeps (overflow : lowTiersOverflow r.look t n) (absent : t.findSlot r.look r.key = none)
    (least : t.kvMin r.look = some k) (sum : t.c16Min r.look + remAfterLowTiers r.look t n = cand)
    (below : ((min cand 65535 : Nat) : ℚ) < (t.valAt r.look k : ℚ) * thrValue r.thr) :
    insertLight r n t = (t.countedWithoutSlot r.look cand, t.estWithoutSlot r.look cand) := by
  rw [insertLight_no_slot overflow absent sum,
    insertEvict_no ((countedWithoutSlot_kvMin ..).trans least) (Bool.eq_false_iff.mpr fun reached => ?_)]
  rw [thresholdComparisonIsExact, countedWithoutSlot_valAt] at reached
  exact absurd reached (not_le.mpr below)

/-- From vmin · THR on the key takes the bucket of kv_min (R153, R154). -/
theorem insertLight_no_slot_evicts (overflow : lowTiersOverflow r.look t n) (absent : t.findSlot r.look r.key = none)
    (least : t.kvMin r.look = some k) (sum : t.c16Min r.look + remAfterLowTiers r.look t n = cand)
    (reached : (t.valAt r.look k : ℚ) * thrValue r.thr ≤ ((min cand 65535 : Nat) : ℚ)) :
    insertLight r n t =
      ((t.countedWithoutSlot r.look cand).evict r.look r.keyMaxLen r.key k (t.valAt r.look k) (min cand 65535),
        t.estWithoutSlot r.look cand) := by
  rw [← countedWithoutSlot_valAt t r.look cand] at reached ⊢
  rw [insertLight_no_slot overflow absent sum, insertEvict_yes ((countedWithoutSlot_kvMin ..).trans least)
    ((thresholdComparisonIsExact ..).mpr reached)]

end

/-- Settles O35: the eviction decision answers no, so the storage is that of the 16-bit stage. -/
theorem insertEndingInThe16BitTier : Obligations.InsertEndingInThe16BitTier := by
  unfold Obligations.InsertEndingInThe16BitTier
  intro s klen p count k serves key u cand16 heavy overflow absent least below
  have ends : insertLight (s.asks key) count.toNat s.store =
      (s.store.countedWithoutSlot u cand16, s.store.estWithoutSlot u cand16) :=
    insertLight_no_slot_keeps overflow absent least rfl below
  obtain ⟨t, ran, completes, store⟩ := exec_insert_of_serves serves ends
  have keys := countedWithoutSlot_sameKeys s.store u cand16
  refine ⟨t, ran, completes, ?_⟩
  rw [store]
  exact ⟨countedWithoutSlot_low .., countedWithoutSlot_c16 _ _ _, countedWithoutSlot_heavy _ _ _, keys.occ, keys.kls,
    keys.keyb, countedWithoutSlot_val ..⟩

/-! ## The INSERT that evicts (R154) -/

/-- Of the key fields, the eviction does the key write (R154). -/
theorem evict_sameKeys (t : Storage) (u : Lookup) (n : Nat) (key : List Byte) (k vmin m16r : Nat) :
    (t.keyWrite u n key k).SameKeys (t.evict u n key k vmin m16r) :=
  ⟨evict_occ .., evict_kls .., evict_keyb ..⟩

/-- What an INSERT that evicts the key of bucket `k`, with the value `vmin`, and puts its own there with `m16r`, makes
of every array (R150, R154). -/
structure EndsEvicting (u : Lookup) (keyMaxLen : Nat) (key : List Byte) (cand k vmin m16r : Nat) (t t' : Storage) :
    Prop where
  low : lowTiersSaturated u t t'
  c16 : ∀ a, (t'.c16.read a).toNat =
    if a ∈ u.c16Probes then satAdd 16 (if cand < 65535 then max (t.c16.read a).toNat cand else 65535) vmin
    else (t.c16.read a).toNat
  heavy : ∀ a, (t'.heavy.read a).toNat =
    if a = u.heavyProbe ∧ 65535 ≤ cand then satAdd 32 (t.heavyAt u) (cand - 65534) else (t.heavy.read a).toNat
  written : keyWritten u keyMaxLen key k t t'
  val : ∀ a, (t'.val.read a).toNat = if a = u.bucket k then m16r else (t.val.read a).toNat

theorem endsEvicting_evict (t : Storage) (u : Lookup) (n : Nat) {key : List Byte} (cand k vmin : Nat) {m16r : Nat}
    (len : key.length < 256) (fits : m16r < 65536) :
    EndsEvicting u n key cand k vmin m16r t ((t.countedWithoutSlot u cand).evict u n key k vmin m16r) where
  low := lowTiersSaturated_of_lowFilled (counted16_light ..) (counted16_c8 ..)
  c16 a := by
    rw [evict_c16, countedWithoutSlot_c16]
    by_cases probed : a ∈ u.c16Probes <;> simp only [probed, if_true, if_false]
  heavy a := by rw [evict_heavy, countedWithoutSlot_heavy]
  written :=
    have keys := countedWithoutSlot_sameKeys t u cand
    keyWritten_keyWrite u n key k len keys.occ keys.kls keys.keyb (evict_occ ..) (evict_kls ..) (evict_keyb ..)
  val a := by
    rw [evict_val, countedWithoutSlot_val]
    exact toNat_setVal_val t u k fits a

/-- Settles O36: the eviction decision answers yes, so the key write, the new VAL and the fold follow the
16-bit stage. -/
theorem insertEvictingTheLeastKey : Obligations.InsertEvictingTheLeastKey := by
  unfold Obligations.InsertEvictingTheLeastKey
  intro s klen p count k serves key u cand16 heavy vmin overflow absent least reached
  have ends : insertLight (s.asks key) count.toNat s.store =
      ((s.store.countedWithoutSlot u cand16).evict u s.inst.keyMaxLen key k vmin (min cand16 65535),
        s.store.estWithoutSlot u cand16) :=
    insertLight_no_slot_evicts overflow absent least rfl reached
  obtain ⟨t, ran, completes, store⟩ := exec_insert_of_serves serves ends
  have evicts := endsEvicting_evict s.store u s.inst.keyMaxLen cand16 k vmin (keyOf_length_lt klen p)
    (m16r := min cand16 65535) (by omega)
  refine ⟨t, ran, completes, ?_⟩
  rw [store]
  exact ⟨evicts.low, evicts.c16, evicts.heavy, evicts.written, evicts.val⟩

/-! ## The evicted key (R156) -/

section
variable {t : Storage} {c : Csrs} {h : List Byte → Nat → Nat}

/-- First fit keeps a key in one candidate bucket at most (R45 item 5). -/
theorem firstFit_held_once (ff : t.firstFit c h) {key : List Byte} {f g : Nat} (hf : f < c.cfgM.toNat)
    (hg : g < c.cfgM.toNat) (heldF : t.keyEq (c.lookup (h key)) key f = true)
    (heldG : t.keyEq (c.lookup (h key)) key g = true) : f = g := by
  rcases lt_trichotomy f g with lt | same | gt
  · exact absurd heldF (Bool.eq_false_iff.mp (ff key g hg heldG f lt).2)
  · exact same
  · exact absurd heldG (Bool.eq_false_iff.mp (ff key f hf heldF g gt).2)

/-- Where a key that its layer `k` did not hold overwrites another one there, no candidate bucket holds the other one
afterwards: bucket `k` was the only one, and it holds the new key (R156). -/
theorem keyWrite_drops_held (ff : t.firstFit c h) {n k : Nat} {key evicted : List Byte} (len : key.length ≤ n)
    (hn : n ≤ 255) (layer : k < c.cfgM.toNat) (absent : t.keyEq (c.lookup (h key)) key k = false)
    (shared : (c.lookup (h evicted)).bucket k = (c.lookup (h key)).bucket k)
    (held : t.keyEq (c.lookup (h evicted)) evicted k = true) {j : Nat} (hj : j < c.cfgM.toNat) :
    (t.keyWrite (c.lookup (h key)) n key k).keyEq (c.lookup (h evicted)) evicted j = false := by
  by_cases at_k : j = k
  · subst at_k
    rw [keyEq_keyWrite_same t _ _ key evicted j shared len hn, decide_eq_false_iff_not]
    rintro rfl
    exact absurd held (Bool.eq_false_iff.mp absent)
  · have other : (c.lookup (h evicted)).bucket j ≠ (c.lookup (h key)).bucket k :=
      fun same => at_k (Lookup.bucket_inj same)
    rw [keyEq_keyWrite_other t _ _ key evicted k j other]
    exact Bool.eq_false_iff.mpr fun heldJ => at_k (firstFit_held_once ff hj layer heldJ held)

end

/-- Settles O46: the eviction is the key write into the one bucket that first fit lets the evicted key have. -/
theorem evictedKeyIsHeldNowhere : Obligations.EvictedKeyIsHeldNowhere := by
  unfold Obligations.EvictedKeyIsHeldNowhere
  intro s t h klen p count k evicted inv serves ff key u uE answers overflow absent least reached shared held ht j hj
  have look : u = s.csr.lookup (h key) := lookup_congr s.csr answers
  have ends := insertLight_no_slot_evicts (r := s.asks key) overflow absent least rfl reached
  obtain ⟨t', ran, -, store⟩ := exec_insert_of_serves serves ends
  obtain rfl : t' = t := Host.Outcome.next.inj (ran.symm.trans ht)
  have keys : (s.store.keyWrite u s.inst.keyMaxLen key k).SameKeys t'.store := by
    rw [store]
    exact ((countedWithoutSlot_sameKeys s.store u _).keyWrite u s.inst.keyMaxLen key k).trans (evict_sameKeys ..)
  have layer : k < s.csr.cfgM.toNat := (kvMin_eq_some.mp least).1
  have notHere : s.store.keyEq u key k = false := (findSlot_none absent).1 k layer
  rw [keys.keyEq]
  rw [look] at notHere shared ⊢
  exact keyWrite_drops_held ff ((keyOf_length klen p).trans_le serves.2.2.2) (keyMaxLen_le_of_legal inv.legal) layer
    notHere shared held hj

end Sys2Proof.Machine
end

section
/-! SUPPORT. The statements about the commands and the registers they meet (46_commands.md): the CSR map and its writes
(R178, R179), CfgValid (R177), the taking of a response (R180), the refusals of INSERT, QUERY and CONFIGURE and the
CONFIGURE that completes (R171, R176), and the held hash request (R170). -/

namespace Sys2Proof.Machine

/-! ## The CSR map (R22, R51, R178) -/

/-- The register at an address is the one that has it. -/
theorem csrAt_eq_some_iff {a : BitVec 8} {n : CsrName} : csrAt a = some n ↔ n.addr = a := by
  constructor
  · intro found
    have here := List.find?_some found
    exact beq_iff_eq.mp here
  · rintro rfl
    cases n <;> rfl

theorem csrAt_eq_none_iff {a : BitVec 8} : csrAt a = none ↔ ∀ n : CsrName, n.addr ≠ a := by
  rw [Option.eq_none_iff_forall_ne_some]
  exact forall_congr' fun n => not_congr csrAt_eq_some_iff

theorem csrRead_addr (s : State) (n : CsrName) : s.csrRead n.addr = s.csrValue n := by
  rw [State.csrRead, csrAt_eq_some_iff.mpr rfl]

theorem csrRead_of_no_register (s : State) {a : BitVec 8} (reserved : ∀ n : CsrName, n.addr ≠ a) : s.csrRead a = 0 := by
  rw [State.csrRead, csrAt_eq_none_iff.mpr reserved]

/-- Every register lies at a word address of the map (R22, R51). -/
theorem CsrName.addr_in_map (n : CsrName) : n.addr.toNat % 4 = 0 ∧ n.addr.toNat < 0x2C := by
  cases n <;> decide

/-- Settles O14: each address of the map has its register, and no register lies at any other. -/
theorem csrReadGivesTheMappedRegister : Obligations.CsrReadGivesTheMappedRegister := by
  unfold Obligations.CsrReadGivesTheMappedRegister
  intro s
  have mapped := csrRead_addr s
  refine ⟨mapped .id, mapped .status, mapped .cfgL, mapped .cfgM, mapped .cfgLightLen, mapped .cfgB, mapped .cfgH,
    mapped .cfgLen8, mapped .cfgLen16, mapped .cfgThrLo, mapped .cfgThrHi, fun a outside => ?_, fun a => rfl⟩
  refine csrRead_of_no_register s ?_
  rintro n rfl
  obtain ⟨aligned, inside⟩ := n.addr_in_map
  rcases outside with misaligned | beyond
  · exact misaligned aligned
  · exact absurd inside (Nat.not_lt.mpr beyond)

/-! ## CSR writes (R23, R24, R34, R179) -/

/-- The CFG_* registers: the ones that a CSR write may change. -/
abbrev CsrName.isCfg (n : CsrName) : Prop := n ≠ .id ∧ n ≠ .status

/-- The registers lie at successive words, the CFG_* registers from the third on (R22). -/
theorem CsrName.addr_all_getD : ∀ i < 11,
    (CsrName.all.getD i .id).addr.toNat = 4 * i ∧ (2 ≤ i → (CsrName.all.getD i .id).isCfg) := by
  decide

/-- The addresses of the CFG_* registers are the word addresses from 0x08 to 0x28 (R22). -/
theorem exists_cfg_at_iff {a : BitVec 8} :
    (∃ n : CsrName, n.isCfg ∧ n.addr = a) ↔ a.toNat % 4 = 0 ∧ 0x08 ≤ a.toNat ∧ a.toNat ≤ 0x28 := by
  constructor
  · rintro ⟨n, ⟨notId, notStatus⟩, rfl⟩
    cases n with
    | id => exact absurd rfl notId
    | status => exact absurd rfl notStatus
    | _ => decide
  · rintro ⟨aligned, low, high⟩
    obtain ⟨addr, cfg⟩ := CsrName.addr_all_getD (a.toNat / 4) (by omega)
    exact ⟨_, cfg (by omega), BitVec.eq_of_toNat_eq (addr.trans (by omega))⟩

/-- A write to no CFG_* register is ignored (R23, R24, R51). -/
theorem csrWrite_of_no_cfg (c : Csrs) {a : BitVec 8} (v : Word32) (ignored : ¬∃ n : CsrName, n.isCfg ∧ n.addr = a) :
    c.write a v = c := by
  unfold Csrs.write
  cases found : csrAt a with
  | none => rfl
  | some n =>
    cases n with
    | id | status => exact ite_self c
    | _ => exact absurd ⟨_, by decide, csrAt_eq_some_iff.mp found⟩ ignored

/-- An unlocked write to a CFG_* register is the write of that register (R179). -/
theorem csrPort_write_cfg {s : State} (unlocked : s.csr.cfgLock = false) (n : CsrName) (v : Word32) :
    csrPort (some (.write n.addr v)) s =
      { s with csr := s.csr.setReg n v, port := { s.port with csrRdata := none } } := by
  simp only [csrPort, Csrs.write, csrAt_eq_some_iff.mpr rfl, unlocked, Bool.false_eq_true, if_false]

/-- A CFG_* register that is written takes the value, and every other register keeps its own (R179). -/
theorem csrValue_write_cfg {s : State} (unlocked : s.csr.cfgLock = false) {n : CsrName} (cfg : n.isCfg) (v : Word32)
    (m : CsrName) :
    (csrPort (some (.write n.addr v)) s).csrValue m = if m = n then v else s.csrValue m := by
  rw [csrPort_write_cfg unlocked]
  cases n with
  | id => exact absurd rfl cfg.1
  | status => exact absurd rfl cfg.2
  | _ => cases m <;> rfl

/-- Settles O15: the CSR map says which register, if any, an address writes, and the lock whether it does. -/
theorem csrWriteIsTakenOnlyWhenUnlocked : Obligations.CsrWriteIsTakenOnlyWhenUnlocked := by
  unfold Obligations.CsrWriteIsTakenOnlyWhenUnlocked
  intro s a v t
  obtain ⟨configured, lock, status, fixed⟩ := csrPort_csr (some (.write a v)) s
  refine ⟨fun unlocked aligned low high => ?_, fun ignored => ?_, configured, lock, status, rfl, rfl, rfl, rfl, rfl⟩
  · obtain ⟨n, cfg, rfl⟩ := exists_cfg_at_iff.mpr ⟨aligned, low, high⟩
    have value : ∀ m, t.csrValue m = if m = n then v else s.csrValue m := csrValue_write_cfg unlocked cfg v
    refine ⟨by rw [csrRead_addr, value, if_pos rfl], fun b other => ?_⟩
    by_cases mapped : ∃ m : CsrName, m.addr = b
    · obtain ⟨m, rfl⟩ := mapped
      rw [csrRead_addr, csrRead_addr, value, if_neg fun same => other (congrArg _ same)]
    · have reserved : ∀ m : CsrName, m.addr ≠ b := fun m here => mapped ⟨m, here⟩
      rw [csrRead_of_no_register t reserved, csrRead_of_no_register s reserved]
  · rcases ignored with locked | outside
    · exact fixed locked
    · refine csrWrite_of_no_cfg s.csr v fun cfg => ?_
      obtain ⟨aligned, low, high⟩ := exists_cfg_at_iff.mp cfg
      omega

/-! ## CfgValid (R33, R177) -/

theorem inRange_iff (v : Word32) (max : Nat) : inRange v max = true ↔ 1 ≤ v.toNat ∧ v.toNat ≤ max := by
  simp only [inRange, Bool.and_eq_true, decide_eq_true_eq]

/-- The bits below the sign are 0 exactly where the exponent and the fraction are. -/
theorem extractLsb'_magnitude_eq_zero_iff (t : Word64) :
    t.extractLsb' 0 63 = 0 ↔ thrExponent t = 0 ∧ thrFraction t = 0 := by
  rw [thrExponent, thrFraction, ← BitVec.toNat_inj]
  simp only [BitVec.extractLsb'_toNat, Nat.shiftRight_eq_div_pow]
  have := t.isLt
  show t.toNat / 2 ^ 0 % 2 ^ 63 = 0 ↔ _
  omega

/-- A threshold is legal: its sign bit is 0, it is finite, and it is not 0 (R33). -/
theorem thrLegal_iff (t : Word64) :
    thrLegal t = true ↔ t.getLsbD 63 = false ∧ t.extractLsb' 52 11 ≠ 0x7FF ∧ t.extractLsb' 0 63 ≠ 0 := by
  have finite : thrExponent t ≠ 0x7FF ↔ t.extractLsb' 52 11 ≠ 0x7FF :=
    not_congr (BitVec.toNat_inj (x := t.extractLsb' 52 11) (y := 0x7FF))
  have positive : thrExponent t ≠ 0 ∨ thrFraction t ≠ 0 ↔ t.extractLsb' 0 63 ≠ 0 :=
    not_and_or.symm.trans (not_congr (extractLsb'_magnitude_eq_zero_iff t).symm)
  rw [← finite, ← positive]
  simp only [thrLegal, Bool.and_eq_true, Bool.or_eq_true, Bool.not_eq_true', bne_iff_ne, and_assoc]

/-- Settles O17: CfgValid is the conjunction of R177's conditions, each in its own words. -/
theorem cfgValidIsEveryFieldLegal : Obligations.CfgValidIsEveryFieldLegal := by
  unfold Obligations.CfgValidIsEveryFieldLegal
  intro s
  simp only [State.cfgValid, Csrs.cfgValid, Bool.and_eq_true, inRange_iff, thrLegal_iff, Csrs.thrBits, and_assoc]

/-! ## The taking of a response (R180, R210) -/

/-- An edge that takes the response is the delivery after the CSR access, whichever the acceptance. -/
theorem edgeWith_delivery (accept : Command → State → Result) {e : Edge} {s : State} (hr : e.rst = false)
    (taken : e.rspReady = true) (resp : s.seq.fsm = .resp) :
    edgeWith accept e s = .next (csrPort e.csr s).deliver := by
  have waits : (csrPort e.csr s).seq.fsm = .resp := by rw [csrPort_seq, resp]
  simp only [edgeWith, hr, taken, waits, Bool.false_eq_true, if_false, if_true]

theorem deliver_seq (s : State) :
    s.deliver.seq = { s.seq with fsm := if s.seq.cfgd = true then .idle else .uncfg } := rfl

theorem deliver_csr (s : State) :
    s.deliver.csr = { s.csr with lastStatus := s.seq.rspStatus, cfgLock := s.csr.configured } := rfl

theorem deliver_accepting (s : State) : s.deliver.seq.fsm.accepting = true := by
  rw [deliver_seq]
  dsimp only
  split <;> rfl

/-- A block that accepts commands is not busy, is ready, and drives no response (R194). -/
theorem outputs_of_accepting {s : State} (accepting : s.seq.fsm.accepting = true) :
    s.busy = false ∧ s.cmdReady false = true ∧ s.response false = none := by
  refine ⟨by rw [State.busy, accepting]; rfl, by rw [State.cmdReady, accepting]; rfl, if_neg ?_⟩
  rintro ⟨resp, -⟩
  rw [resp] at accepting
  cases accepting

/-- Settles O10: the edge delivers, and the CSR access before it leaves the sequencer and CONFIGURED. -/
theorem takingTheResponseUpdatesStatus : Obligations.TakingTheResponseUpdatesStatus := by
  unfold Obligations.TakingTheResponseUpdatesStatus
  intro s hr taken resp s' t
  have seq : s'.seq = s.seq := csrPort_seq _ _
  obtain ⟨configured, -⟩ : s'.csr.configured = s.csr.configured ∧ _ := csrPort_csr s.nextEdge.csr s.dropEdge
  obtain ⟨idle, ready, silent⟩ := outputs_of_accepting (deliver_accepting s')
  refine ⟨if_pos ⟨resp, rfl⟩, edgeWith_delivery acceptCommand hr taken resp, ?_, fun quiet => ?_, ?_, idle, ready,
    silent, csrPort_store _ _, csrPort_tmp _ _, csrPort_inst _ _, csrPort_free _ _, csrPort_port _ _⟩
  · rw [deliver_csr, seq, configured]
  · show (csrPort s.nextEdge.csr s.dropEdge).csr = s.csr
    rw [quiet]
    rfl
  · rw [deliver_seq, seq]

/-! ## Refusals (R171, R176, R202, R203) -/

/-- A keyed command that a check stops answers that check's status. -/
theorem keyed_of_refused {s : State} {klen : BitVec 8} {st : Status} (ran : State) (fails : s.admitKeyed klen = st)
    (failed : st ≠ .ok) : s.keyed klen ran = .next (s.refuse st) := by
  unfold State.keyed
  rw [fails]
  cases st with
  | ok => exact absurd rfl failed
  | _ => rfl

/-- The check of the key length (R202 step 5). -/
theorem admitKeyed_eq_errKeyLen {s : State} {klen : BitVec 8} (conf : s.csr.configured = true)
    (illegal : klen.toNat = 0 ∨ s.inst.keyMaxLen < klen.toNat) : s.admitKeyed klen = .errKeyLen := by
  have outside : klen = 0 ∨ s.inst.keyMaxLen < klen.toNat := illegal.imp_left fun zero => BitVec.eq_of_toNat_eq zero
  simp only [State.admitKeyed, conf, Bool.true_eq_false, if_false, if_pos outside]

/-- Settles O27: both keyed commands make the same checks, and the one of the key length stops them. -/
theorem illegalKeyLengthIsRefused : Obligations.IllegalKeyLengthIsRefused := by
  unfold Obligations.IllegalKeyLengthIsRefused
  intro s klen p count conf illegal i keyed
  have refused := fun ran => keyed_of_refused ran (admitKeyed_eq_errKeyLen conf illegal) (by decide)
  rcases List.mem_pair.mp keyed with rfl | rfl
  · exact refused (s.runInsert klen p count)
  · exact refused (s.runQuery klen p)

/-- A CONFIGURE that a check stops answers that check's status, with CFG_LOCK set (R34). -/
theorem execConfigure_of_refused {s : State} {st : Status} (fails : s.lock.admitConfigure = st) (failed : st ≠ .ok) :
    execConfigure s = .next (s.lock.refuse st) := by
  unfold execConfigure
  rw [fails]
  cases st with
  | ok => exact absurd rfl failed
  | _ => rfl

theorem admitConfigure_eq_errAlreadyConfigured {s : State} (conf : s.csr.configured = true) :
    s.admitConfigure = .errAlreadyConfigured := by
  rw [State.admitConfigure, if_pos conf]

theorem admitConfigure_eq_errConfig {s : State} (fresh : s.csr.configured = false) (invalid : s.cfgValid = false) :
    s.admitConfigure = .errConfig := by
  rw [State.admitConfigure, if_neg (by rw [fresh]; decide), if_pos invalid]

/-- Settles O28: the lock leaves what the checks of a CONFIGURE look at. -/
theorem configureIsRefused : Obligations.ConfigureIsRefused := by
  unfold Obligations.ConfigureIsRefused
  intro s
  constructor
  · intro conf
    exact execConfigure_of_refused (admitConfigure_eq_errAlreadyConfigured (s := s.lock) conf) (by decide)
  · intro fresh invalid
    exact execConfigure_of_refused (admitConfigure_eq_errConfig (s := s.lock) fresh invalid) (by decide)

/-! ## The CONFIGURE that completes (R176, R40) -/

theorem execConfigure_of_admitted {s : State} (fresh : s.csr.configured = false) (valid : s.cfgValid = true) :
    execConfigure s = .next (s.lock.configureStorage.respond .ok 0) := by
  have admitted : s.lock.admitConfigure = .ok := admitConfigure_eq_ok.mpr ⟨fresh, valid⟩
  rw [execConfigure, admitted]

/-- Settles O30: the admitted CONFIGURE leaves the cleared storage, which lists no element. -/
theorem configureClearsTheStorage : Obligations.ConfigureClearsTheStorage := by
  unfold Obligations.ConfigureClearsTheStorage
  intro s fresh valid
  exact ⟨_, execConfigure_of_admitted fresh valid, rfl, rfl, fun k => ⟨rfl, rfl, rfl, rfl, rfl, rfl, rfl, rfl⟩, rfl,
    rfl, rfl, rfl⟩

/-! ## The held hash request (R170, R194) -/

/-- An edge with a command in flight is its transition after the CSR access, whichever the acceptance (R210). -/
theorem edgeWith_inFlight (accept : Command → State → Result) {e : Edge} {s : State} (hr : e.rst = false)
    (inFlight : s.seq.fsm.successors ≠ []) : edgeWith accept e s = advance e.hash (csrPort e.csr s) := by
  have fsm : (csrPort e.csr s).seq.fsm = s.seq.fsm := by rw [csrPort_seq]
  cases hf : s.seq.fsm with rw [hf] at fsm inFlight
  | uncfg | idle | resp => exact absurd rfl inFlight
  | _ => simp only [edgeWith, hr, fsm, Bool.false_eq_true, if_false]

/-- A hash request is driven in HASH only, while one is still to be transferred. -/
theorem waits_of_hashRequest {s : State} {rst : Bool} {r : HashRequest} (h : s.hashRequest rst = some r) :
    s.seq.fsm = .hash ∧ s.seq.hashAsked < s.csr.seeds := by
  unfold State.hashRequest at h
  split at h
  · rename_i driven
    exact ⟨driven.1, of_decide_eq_true driven.2.1⟩
  · cases h

/-- The read data of the CSR port is not part of the hash request. -/
theorem hashRequest_driving (s : State) (d : Option Word32) (rst : Bool) :
    (s.driving d).hashRequest rst = s.hashRequest rst := rfl

/-- The response handshake leaves the request that is driven (R170). -/
theorem hashRequest_takeHash (s : State) (rsp : Option Word32) (rst : Bool) :
    (s.takeHash rsp).hashRequest rst = s.hashRequest rst := by
  cases rsp with
  | none => rfl
  | some v =>
    unfold State.takeHash
    dsimp only
    split <;> rfl

/-- Without hreq_ready, row HASH drives on the request that it drives: the answers still owed are fewer than S. -/
theorem hashRequest_fsmHash {s : State} {h : HashInput} {r : HashRequest} (drives : s.hashRequest false = some r)
    (answered : s.seq.hashNext ≤ s.seq.hashAsked) (unready : h.hreqReady = false) :
    (fsmHash h s).hashRequest false = some r := by
  have taken : (s.takeHash h.hrsp).hashRequest false = some r := (hashRequest_takeHash ..).trans drives
  obtain ⟨answered', -⟩ := takeHash_countsOk h.hrsp ⟨answered, (waits_of_hashRequest drives).2.le⟩
  have missing : ¬(s.takeHash h.hrsp).csr.seeds ≤ (s.takeHash h.hrsp).seq.hashNext :=
    Nat.not_le.mpr (answered'.trans_lt (waits_of_hashRequest taken).2)
  have unasked : (s.takeHash h.hrsp).askHash h.hreqReady = s.takeHash h.hrsp := by rw [unready]; rfl
  rwa [fsmHash, unasked, if_neg missing]

/-- Settles O58: the locked block lets the CSR access do no more than drive its read data, and the transition of HASH
holds the request. -/
theorem hashRequestIsHeldUntilTaken : Obligations.HashRequestIsHeldUntilTaken := by
  unfold Obligations.HashRequestIsHeldUntilTaken
  intro s t r drives answered locked hr unready ht
  obtain ⟨hash, -⟩ := waits_of_hashRequest drives
  have transition : advance s.nextEdge.hash (csrPort s.nextEdge.csr s.dropEdge) = .next t :=
    (edgeWith_inFlight fsmAccept hr (by rw [dropEdge_seq, hash]; decide)).symm.trans ht
  rw [csrPort_of_locked s.nextEdge.csr (s := s.dropEdge) locked] at transition
  rw [advance_hash_eq transition hash]
  exact hashRequest_fsmHash ((hashRequest_driving ..).trans drives) answered unready

end Sys2Proof.Machine
end

section
/-! SUPPORT. The statements about QUERY (46_commands.md): the estimate it answers, as a function of what is stored
(R173, R174), and that it does not fall over an INSERT without an eviction (R182). -/

namespace Sys2Proof.Machine

/-! ## What QUERY answers (R173, R174) -/

/-- Settles O37: the admitted QUERY answers what its stages read, tier by tier. -/
theorem queryAnswersTheFirstUnsaturatedTier : Obligations.QueryAnswersTheFirstUnsaturatedTier := by
  unfold Obligations.QueryAnswersTheFirstUnsaturatedTier
  intro s klen p serves key u m m8 m16 heavy
  exact ⟨_, queryLight (s.asks key) s.store, execQuery_serves serves, completes_respond_same s _ klen p _,
    latched_store .., fun low => queryLight_of_light rfl low, fun light low => queryLight_of_mid8 light rfl low,
    fun light c8 f held => queryLight_of_match ⟨light, c8⟩ held,
    fun light c8 absent => queryLight_of_noMatch ⟨light, c8⟩ absent⟩

/-! ## The estimate as a function of what is stored (R174) -/

/-- The tier-offset encoding of a light minimum, an 8-bit minimum, a 16-bit count and a heavy counter: the first of them
that is not saturated answers. -/
def tierEstimate (light c8 count16 heavy : Nat) : Nat :=
  if light < 15 then light else if c8 < 255 then 14 + c8 else if count16 < 65535 then 268 + count16 else 65802 + heavy

/-- What stands for a key's count beyond the 8-bit tier: VAL of the slot that holds it, or else its 16-bit minimum
(R142, R155). -/
def Storage.countBeyond8 (t : Storage) (u : Lookup) (key : List Byte) : Nat :=
  match t.matchScan u key with
  | some f => t.valAt u f
  | none => t.c16Min u

theorem countBeyond8_of_match {t : Storage} {u : Lookup} {key : List Byte} {f : Nat}
    (held : t.matchScan u key = some f) : t.countBeyond8 u key = t.valAt u f := by
  rw [Storage.countBeyond8, held]

theorem countBeyond8_of_noMatch {t : Storage} {u : Lookup} {key : List Byte} (absent : t.matchScan u key = none) :
    t.countBeyond8 u key = t.c16Min u := by
  rw [Storage.countBeyond8, absent]

/-- The stages of a QUERY, said in one formula (R121, R131, R142, R155, R160). -/
theorem queryLight_eq (r : Request) (t : Storage) :
    queryLight r t =
      tierEstimate (t.lightMin r.look) (t.c8Min r.look) (t.countBeyond8 r.look r.key) (t.heavyAt r.look) := by
  unfold queryLight queryMid8 queryKv Storage.countBeyond8
  cases t.matchScan r.look r.key with
  | none => simp only [tierEstimate, queryMid16, queryHeavy, Nat.zero_add]
  | some f => simp only [tierEstimate, queryHeavy, Nat.zero_add]

section
variable {l b : Nat} (v h : Nat)

theorem tierEstimate_of_light (low : l < 15) : tierEstimate l b v h = l := if_pos low

theorem tierEstimate_of_mid8 (low : b < 255) : tierEstimate 15 b v h = 14 + b := by
  rw [tierEstimate, if_neg (lt_irrefl _), if_pos low]

theorem tierEstimate_of_lowFull : tierEstimate 15 255 v h = if v < 65535 then 268 + v else 65802 + h := by
  rw [tierEstimate, if_neg (lt_irrefl _), if_neg (lt_irrefl _)]

theorem tierEstimate_of_count16 {v : Nat} (room : v < 65535) : tierEstimate 15 255 v h = 268 + v := by
  rw [tierEstimate_of_lowFull, if_pos room]

theorem tierEstimate_of_heavy : tierEstimate 15 255 65535 h = 65802 + h := by
  rw [tierEstimate_of_lowFull, if_neg (lt_irrefl _)]

end

/-- Each tier's estimates lie at or below the offset of the next, so the estimate rises with every count. -/
theorem tierEstimate_mono {l l' b b' v v' h h' : Nat} (light : l ≤ l') (c8 : b ≤ b') (count16 : v ≤ v')
    (heavy : h ≤ h') : tierEstimate l b v h ≤ tierEstimate l' b' v' h' := by
  unfold tierEstimate
  split_ifs <;> omega

theorem minOf_le_of_forall {l : List Nat} {n : Nat} (h : ∀ a ∈ l, a ≤ n) : minOf l ≤ n := by
  by_cases nonempty : l = []
  · rw [nonempty]
    exact Nat.zero_le n
  · exact h _ (minOf_mem nonempty)

theorem lightMin_le (t : Storage) (u : Lookup) : t.lightMin u ≤ 15 :=
  minOf_le_of_forall fun a ha => by
    obtain ⟨p, -, rfl⟩ := List.mem_map.mp ha
    exact Nat.le_of_lt_succ (nib_lt t p)

theorem c8Min_le (t : Storage) (u : Lookup) : t.c8Min u ≤ 255 :=
  minOf_le_of_forall fun a ha => by
    obtain ⟨k, -, rfl⟩ := List.mem_map.mp ha
    exact Nat.le_of_lt_succ (t.c8.read k).isLt

/-- Where no counter falls, neither does what a QUERY reads of the counters (R45 item 4). -/
theorem Storage.CountersLe.lightMin {t t' : Storage} (h : t.CountersLe t') (u : Lookup) :
    t.lightMin u ≤ t'.lightMin u :=
  minOf_mono _ fun p _ => h.nib p

theorem Storage.CountersLe.c8Min {t t' : Storage} (h : t.CountersLe t') (u : Lookup) : t.c8Min u ≤ t'.c8Min u :=
  minOf_mono _ fun k _ => h.c8 k

theorem Storage.CountersLe.c16Min {t t' : Storage} (h : t.CountersLe t') (u : Lookup) : t.c16Min u ≤ t'.c16Min u :=
  minOf_mono _ fun k _ => h.c16 k

/-! ## An INSERT answers at least what a QUERY of its key would have (R182) -/

/-- A key that has an unclaimed candidate bucket has the 16-bit minimum 0 (R45 item 6). -/
theorem c16Min_of_free {t : Storage} {u : Lookup} {f : Nat} (c16 : t.c16Claimed) (layer : f < u.m)
    (free : t.occ.read (u.bucket f) = 0#1) : t.c16Min u = 0 := by
  have zero : t.c16.read [f, u.bi f, u.s16 f] = 0#16 := by
    by_contra nonzero
    have claimed : t.occ.read (u.bucket f) = 1#1 := c16 _ _ _ nonzero
    rw [free] at claimed
    cases claimed
  have probed : [f, u.bi f, u.s16 f] ∈ u.c16Probes := Lookup.mem_c16Probes.mpr ⟨f, layer, rfl⟩
  have le : t.c16Min u ≤ (t.c16.read [f, u.bi f, u.s16 f]).toNat := minOf_le (List.mem_map_of_mem probed)
  rw [zero] at le
  exact Nat.le_zero.mp le

/-- The slot that FindSlot answers starts from no less than the key's count: it holds the key, or it is free and the
16-bit minimum is 0 (R112, R140). -/
theorem countBeyond8_le_of_findSlot {t : Storage} {u : Lookup} {key : List Byte} {f : Nat} (c16 : t.c16Claimed)
    (found : t.findSlot u key = some f) : t.countBeyond8 u key ≤ t.valAt u f := by
  rw [findSlot_eq_or, Option.or_eq_some_iff] at found
  rcases found with held | ⟨absent, free⟩
  · exact (countBeyond8_of_match held).le
  · obtain ⟨layer, unclaimed, -⟩ := freeScan_eq_some_iff.mp free
    rw [countBeyond8_of_noMatch absent, c16Min_of_free c16 layer unclaimed]
    exact Nat.zero_le _

theorem countBeyond8_of_findSlot_none {t : Storage} {u : Lookup} {key : List Byte} (absent : t.findSlot u key = none) :
    t.countBeyond8 u key = t.c16Min u :=
  countBeyond8_of_noMatch (matchScan_eq_none_iff.mpr (findSlot_none absent).1)

/-- The INSERT of a key answers no less than the QUERY of it before: each stage adds to what the QUERY reads there. -/
theorem queryLight_le_insertLight (r : Request) (n : Nat) {t : Storage} (c16 : t.c16Claimed) :
    queryLight r t ≤ (insertLight r n t).2 := by
  have light := lightMin_le t r.look
  have c8 := c8Min_le t r.look
  have heavy (x : Nat) : t.heavyAt r.look ≤ satAdd 32 (t.heavyAt r.look) x := le_satAdd _ x
  rw [queryLight_eq]
  rcases insertLight_cases r n t with ⟨cand, hc, low, e⟩ | ⟨cand, -, hc, low, e⟩ | ⟨f, nv, -, found, hnv, room, e⟩ |
    ⟨f, x, -, found, -, -, e⟩ | ⟨cand, -, absent, hc, est, -⟩
  · rw [e]
    exact (tierEstimate_mono (by omega) le_rfl le_rfl le_rfl).trans_eq (tierEstimate_of_light _ _ low)
  · rw [e]
    exact (tierEstimate_mono light (by omega) le_rfl le_rfl).trans_eq (tierEstimate_of_mid8 _ _ low)
  · have count : t.countBeyond8 r.look r.key ≤ nv := (countBeyond8_le_of_findSlot c16 found).trans (by omega)
    rw [e]
    exact (tierEstimate_mono light c8 count le_rfl).trans_eq (tierEstimate_of_count16 _ room)
  · have count : t.countBeyond8 r.look r.key ≤ 65535 :=
      (countBeyond8_le_of_findSlot c16 found).trans (Nat.le_of_lt_succ (valAt_lt t r.look f))
    rw [e]
    exact (tierEstimate_mono light c8 count (heavy x)).trans_eq (tierEstimate_of_heavy _)
  · have count : t.countBeyond8 r.look r.key ≤ cand := by
      rw [countBeyond8_of_findSlot_none absent]
      omega
    rw [est]
    exact (tierEstimate_mono light c8 count (heavy _)).trans_eq (tierEstimate_of_lowFull _ _)

/-! ## An INSERT of another key (R182) -/

/-- After a key write, another key is where it was, but not in the bucket written (R110, R111). -/
theorem keyEq_keyWrite_of_ne {t : Storage} {u u' : Lookup} {n f j : Nat} {key key' : List Byte} (other : key ≠ key')
    (len : key'.length ≤ n) (hn : n ≤ 255) :
    (t.keyWrite u' n key' f).keyEq u key j = true ↔ u.bucket j ≠ u'.bucket f ∧ t.keyEq u key j = true := by
  by_cases same : u.bucket j = u'.bucket f
  · obtain rfl := Lookup.bucket_inj same
    rw [keyEq_keyWrite_same t u' u key' key j same len hn, decide_eq_true_iff]
    exact iff_of_false other fun apart => apart.1 same
  · rw [keyEq_keyWrite_other t u' u key' key f j same, and_iff_right same]

namespace Storage.SlotUpdate
variable {u u' : Lookup} {n : Nat} {key key' : List Byte} {t t' : Storage} (h : SlotUpdate u' n key' t t')
  (other : key ≠ key') (len : key'.length ≤ n) (hn : n ≤ 255)
include h other len hn

/-- An INSERT puts no key but its own into a bucket. -/
theorem keyEq_of_ne {j : Nat} (held : t'.keyEq u key j = true) : t.keyEq u key j = true := by
  cases h with
  | same keys _ => rwa [keys.keyEq] at held
  | add _ _ _ _ _ keys _ => rwa [keys.keyEq] at held
  | place _ _ _ _ _ keys _ =>
    rw [keys.keyEq] at held
    exact ((keyEq_keyWrite_of_ne other len hn).mp held).2

/-- An INSERT lets the VAL of no other key fall that keeps its bucket (R140, R154). -/
theorem valAt_le_of_ne {j : Nat} (held : t'.keyEq u key j = true) : t.valAt u j ≤ t'.valAt u j := by
  cases h with
  | same _ val => rw [Storage.valAt, Storage.valAt, val]
  | @add f v _ _ rises _ fits _ val =>
    rw [Storage.valAt, Storage.valAt, val, Cells.read_write]
    split
    · rename_i bucket
      rw [bucket, BitVec.toNat_ofNat, Nat.mod_eq_of_lt fits]
      exact rises
    · exact le_rfl
  | place _ _ _ _ _ keys val =>
    rw [keys.keyEq] at held
    rw [Storage.valAt, Storage.valAt, val, Cells.read_write_other _ _ ((keyEq_keyWrite_of_ne other len hn).mp held).1]

/-- An INSERT lets the count of no other key fall, beyond the 8-bit tier, that keeps its bucket if it had one. -/
theorem countBeyond8_le_of_ne (c16 : t.c16Min u ≤ t'.c16Min u)
    (stays : ∀ f, t.matchScan u key = some f → t'.matchScan u key = some f) :
    t.countBeyond8 u key ≤ t'.countBeyond8 u key := by
  cases before : t.matchScan u key with
  | some f =>
    have after := stays f before
    rw [countBeyond8_of_match before, countBeyond8_of_match after]
    exact h.valAt_le_of_ne other len hn (matchScan_some after).2
  | none =>
    have after : t'.matchScan u key = none := matchScan_eq_none_iff.mpr fun j hj => Bool.eq_false_iff.mpr fun held =>
      Bool.eq_false_iff.mp (matchScan_eq_none_iff.mp before j hj) (h.keyEq_of_ne other len hn held)
    rwa [countBeyond8_of_noMatch before, countBeyond8_of_noMatch after]

end Storage.SlotUpdate

/-- Settles O42: the INSERT of the asked key leaves its QUERY at the INSERT's estimate, and the INSERT of another key
lets no tier's count of the asked one fall. -/
theorem queryNeverFallsWithoutEviction : Obligations.QueryNeverFallsWithoutEviction := by
  unfold Obligations.QueryNeverFallsWithoutEviction
  intro c hv hv' thr n key key' count t r r' t' hl hm hn len c16 provider stays
  by_cases other : key = key'
  · obtain rfl := other
    obtain rfl := provider rfl
    exact (queryLight_le_insertLight r count c16).trans_eq (queryLight_insertLight (r := r) count t hl hm len hn).symm
  · have counters : t.CountersLe t' := insertLight_countersLe r' count t
    have slots : Storage.SlotUpdate r'.look n key' t t' := insertLight_slotUpdate r' count t
    rw [queryLight_eq, queryLight_eq]
    exact tierEstimate_mono (counters.lightMin r.look) (counters.c8Min r.look)
      (slots.countBeyond8_le_of_ne other len hn (counters.c16Min r.look) stays) (counters.heavy _)

end Sys2Proof.Machine
end

section
/-! SUPPORT. The statements about the FSM one transition at a time (47_fsm.md): the outputs (R194), the edge of a
command in flight (R191, R210), the successors of each state and the storage under a QUERY (R191, R193), and the
escalation of an INSERT (R197). -/

namespace Sys2Proof.Machine

/-! ## The outputs (R194, R220) -/

/-- Outside reset cmd_ready is 1 in the idle states. -/
theorem cmdReady_iff (s : State) : s.cmdReady false = true ↔ s.seq.fsm = .uncfg ∨ s.seq.fsm = .idle := by
  simp [State.cmdReady, Fsm.accepting]

/-- Outside reset a response is driven in RESP. -/
theorem response_isSome_iff (s : State) : (s.response false).isSome = true ↔ s.seq.fsm = .resp := by
  unfold State.response
  split
  · rename_i driven
    exact iff_of_true rfl driven.1
  · rename_i silent
    exact iff_of_false nofun fun resp => silent ⟨resp, rfl⟩

/-- In reset every ready and every valid is 0 (R220). -/
theorem outputs_of_reset (s : State) :
    s.cmdReady true = false ∧ s.csrReady true = false ∧ s.response true = none ∧ s.hashRequest true = none ∧
      s.hashResponseReady true = false := by
  refine ⟨Bool.and_false _, rfl, if_neg ?_, if_neg ?_, Bool.and_false _⟩
  · rintro ⟨-, running⟩
    cases running
  · rintro ⟨-, -, running⟩
    cases running

/-- Settles O19: each output is tested on the FSM state, and each is masked by `rst`. -/
theorem outputsFollowTheFsmState : Obligations.OutputsFollowTheFsmState := by
  unfold Obligations.OutputsFollowTheFsmState
  intro s
  refine ⟨cmdReady_iff s, response_isSome_iff s, busy_iff s, fun driven => ?_, outputs_of_reset s⟩
  obtain ⟨r, hr⟩ := Option.ne_none_iff_exists'.mp driven
  exact waits_of_hashRequest hr

/-! ## The edge of a command in flight (R191, R210) -/

/-- In HASH with an answer still to come, a provider that neither takes a request nor answers leaves everything. -/
theorem advance_hash_of_silent {s : State} (hash : s.seq.fsm = .hash) (valid : s.cfgValid = true)
    (missing : s.seq.hashNext < s.csr.seeds) : advance { hreqReady := false, hrsp := none } s = .next s := by
  obtain ⟨-, unanswered, -⟩ :=
    hashHandshakesAtAnEdge s { hreqReady := false, hrsp := none } hash valid missing
  refine (unanswered (.inl rfl)).trans ?_
  simp only [Bool.false_eq_true, false_and, if_false]

/-- Settles O51: `cycle` and `step` differ in the acceptance only, which no state in flight reaches. -/
theorem edgeAdvancesTheCommandInFlight : Obligations.EdgeAdvancesTheCommandInFlight := by
  unfold Obligations.EdgeAdvancesTheCommandInFlight
  intro s hr inFlight s'
  have seq : s'.seq = s.seq := csrPort_seq _ _
  have advances (accept : Command → State → Result) :
      edgeWith accept s.nextEdge s.dropEdge = advance s.nextEdge.hash s' :=
    edgeWith_inFlight accept hr inFlight
  refine ⟨advances fsmAccept, (advances acceptCommand).trans (advances fsmAccept).symm, fun noAccess => ?_,
    fun hash valid missing silent => ?_⟩
  · show csrPort s.nextEdge.csr s.dropEdge = _
    rw [noAccess]
    rfl
  · rw [← seq] at hash missing
    refine (advances fsmAccept).trans ?_
    rw [silent]
    exact advance_hash_of_silent hash valid missing

/-! ## Where each row of R191 goes -/

theorem fsmHash_fsm (h : HashInput) {s : State} (hash : s.seq.fsm = .hash) :
    (fsmHash h s).seq.fsm ∈ Fsm.hash.successors := by
  have waits : (s.takeHash h.hrsp).seq.fsm = .hash := by
    rcases takeHash_cases h.hrsp s with ⟨-, same⟩ | ⟨v, -, -, seq⟩
    · rwa [same]
    · rwa [seq]
  rw [fsmHash_eq rfl waits]
  dsimp only
  split <;> decide

theorem fsmLight_fsm (s : State) : (fsmLight s).seq.fsm ∈ Fsm.light.successors := by
  unfold fsmLight
  dsimp only
  split <;> split <;> simp [Fsm.successors]

theorem fsmMid8_fsm (s : State) : (fsmMid8 s).seq.fsm ∈ Fsm.mid8.successors := by
  unfold fsmMid8
  dsimp only
  split <;> split <;> simp [Fsm.successors]

theorem fsmKvInsert_fsm (s : State) : (fsmKvInsert s).seq.fsm ∈ Fsm.kv.successors := by
  unfold fsmKvInsert
  dsimp only
  split
  · simp [Fsm.successors]
  · split <;> simp [Fsm.successors]

theorem fsmKvQuery_fsm (s : State) : (fsmKvQuery s).seq.fsm ∈ Fsm.kv.successors := by
  unfold fsmKvQuery
  dsimp only
  split
  · simp [Fsm.successors]
  · split <;> simp [Fsm.successors]

theorem fsmMid16Insert_fsm (s : State) : (fsmMid16Insert s).seq.fsm ∈ [Fsm.evict, .heavy] := by
  unfold fsmMid16Insert
  dsimp only
  split <;> simp

theorem fsmMid16Query_fsm (s : State) : (fsmMid16Query s).seq.fsm ∈ [Fsm.heavy, .resp] := by
  unfold fsmMid16Query
  dsimp only
  split <;> simp

theorem fsmHeavy_fsm (s : State) : (fsmHeavy s).seq.fsm ∈ Fsm.heavy.successors := by
  unfold fsmHeavy
  dsimp only
  split
  · split <;> simp [Fsm.successors]
  · simp [Fsm.successors]

theorem fsmEvict_fsm (s : State) : (fsmEvict s).seq.fsm = .resp := by
  unfold fsmEvict
  dsimp only
  split
  · split <;> rfl
  · rfl

/-- A transition out of a state in flight goes to a successor of R191. -/
theorem advance_fsm_mem {h : HashInput} {s t : State} (ht : advance h s = .next t)
    (inFlight : s.seq.fsm.successors ≠ []) : t.seq.fsm ∈ s.seq.fsm.successors := by
  cases hf : s.seq.fsm with
    (rw [hf] at inFlight
     simp only [advance, hf] at ht)
  | uncfg | idle | resp => exact absurd rfl inFlight
  | clear =>
    injection ht with ht
    subst ht
    exact List.mem_singleton_self _
  | hash => exact eq_of_configured ht ▸ fsmHash_fsm h hf
  | light => exact eq_of_configured ht ▸ fsmLight_fsm s
  | mid8 => exact eq_of_configured ht ▸ fsmMid8_fsm s
  | kv =>
    rw [eq_of_configured ht]
    split
    · exact fsmKvInsert_fsm s
    · exact fsmKvQuery_fsm s
  | mid16 =>
    rw [eq_of_configured ht]
    split
    · exact (by decide : [Fsm.evict, .heavy] ⊆ Fsm.mid16.successors) (fsmMid16Insert_fsm s)
    · exact (by decide : [Fsm.heavy, .resp] ⊆ Fsm.mid16.successors) (fsmMid16Query_fsm s)
  | heavy => exact eq_of_configured ht ▸ fsmHeavy_fsm s
  | evict => exact eq_of_configured ht ▸ List.mem_singleton.mpr (fsmEvict_fsm s)

/-! ## A QUERY in flight (R193) -/

section query
variable {s : State} (query : s.inserting = false)
include query

theorem fsmLight_store_of_query : (fsmLight s).store = s.store := by
  simp only [fsmLight, query, Bool.false_eq_true, if_false]
  split <;> rfl

theorem fsmMid8_store_of_query : (fsmMid8 s).store = s.store := by
  simp only [fsmMid8, query, Bool.false_eq_true, if_false]
  split <;> rfl

theorem fsmHeavy_of_query :
    fsmHeavy s = s.respond .ok (Config.base3 + s.store.heavyAt s.lookup) := by
  simp only [fsmHeavy, query, Bool.false_eq_true, if_false]

end query

theorem fsmKvQuery_store (s : State) : (fsmKvQuery s).store = s.store := by
  unfold fsmKvQuery
  dsimp only
  split
  · rfl
  · split <;> rfl

theorem fsmMid16Query_store (s : State) : (fsmMid16Query s).store = s.store := by
  unfold fsmMid16Query
  dsimp only
  split <;> rfl

/-- A QUERY's transition does not go to EVICT and, but for CLEAR, does not write the storage. -/
theorem advance_of_query {h : HashInput} {s t : State} (ht : advance h s = .next t)
    (inFlight : s.seq.fsm.successors ≠ []) (query : s.inserting = false) (notEvict : s.seq.fsm ≠ .evict) :
    t.seq.fsm ≠ .evict ∧ (s.seq.fsm ≠ .clear → t.store = s.store) := by
  have goes := advance_fsm_mem ht inFlight
  cases hf : s.seq.fsm with
    (rw [hf] at inFlight goes
     simp only [advance, hf, query, Bool.false_eq_true, if_false] at ht)
  | uncfg | idle | resp => exact absurd rfl inFlight
  | evict => exact absurd hf notEvict
  | clear => exact ⟨ne_of_mem_of_not_mem goes (by decide), fun notClear => absurd rfl notClear⟩
  | hash => exact ⟨ne_of_mem_of_not_mem goes (by decide), fun _ => eq_of_configured ht ▸ fsmHash_store h s⟩
  | light =>
    exact ⟨ne_of_mem_of_not_mem goes (by decide), fun _ => eq_of_configured ht ▸ fsmLight_store_of_query query⟩
  | mid8 =>
    exact ⟨ne_of_mem_of_not_mem goes (by decide), fun _ => eq_of_configured ht ▸ fsmMid8_store_of_query query⟩
  | kv => exact ⟨ne_of_mem_of_not_mem goes (by decide), fun _ => eq_of_configured ht ▸ fsmKvQuery_store s⟩
  | mid16 =>
    rw [eq_of_configured ht]
    exact ⟨ne_of_mem_of_not_mem (fsmMid16Query_fsm s) (by decide), fun _ => fsmMid16Query_store s⟩
  | heavy =>
    rw [eq_of_configured ht, fsmHeavy_of_query query]
    exact ⟨nofun, fun _ => rfl⟩

/-- Settles O52, row by row of R191. -/
theorem fsmFollowsItsTransitions : Obligations.FsmFollowsItsTransitions := by
  unfold Obligations.FsmFollowsItsTransitions
  exact fun s t h ht inFlight => ⟨advance_fsm_mem ht inFlight, advance_of_query ht inFlight⟩

/-! ## The escalation of an INSERT (R197) -/

/-- An INSERT goes on from LIGHT with the light probes saturated and what they do not take (R108, R109). -/
theorem fsmLight_to_mid8 {s : State} (insert : s.inserting = true) (goes : (fsmLight s).seq.fsm = .mid8) :
    (fsmLight s).store = s.store.lightFill s.lookup ∧
      (fsmLight s).tmp.rem = s.store.lightMin s.lookup + (countOf s.seq.cmd).toNat - 14 := by
  unfold fsmLight at goes ⊢
  dsimp only at goes ⊢
  rw [if_pos insert] at goes ⊢
  split at goes
  · cases goes
  · rename_i full
    rw [if_neg full]
    exact ⟨rfl, rfl⟩

/-- An INSERT goes on from MID8 with the 8-bit probes saturated and what they do not take (R108, R109). -/
theorem fsmMid8_to_kv {s : State} (insert : s.inserting = true) (goes : (fsmMid8 s).seq.fsm = .kv) :
    (fsmMid8 s).store = s.store.c8Fill s.lookup ∧
      (fsmMid8 s).tmp.rem = s.store.c8Min s.lookup + s.tmp.rem - 254 := by
  unfold fsmMid8 at goes ⊢
  dsimp only at goes ⊢
  rw [if_pos insert] at goes ⊢
  split at goes
  · cases goes
  · rename_i full
    rw [if_neg full]
    exact ⟨rfl, rfl⟩

/-- An INSERT goes on from KV to MID16 where FindSlot answers NONE, with the same remainder (R140). -/
theorem fsmKvInsert_to_mid16 {s : State} (goes : (fsmKvInsert s).seq.fsm = .mid16) :
    s.store.findSlot s.lookup s.flightKey = none ∧ (fsmKvInsert s).tmp.rem = s.tmp.rem := by
  unfold fsmKvInsert at goes ⊢
  dsimp only at goes ⊢
  cases found : s.store.findSlot s.lookup s.flightKey with
  | none => exact ⟨rfl, rfl⟩
  | some f =>
    rw [found] at goes
    dsimp only at goes
    split at goes <;> cases goes

/-- Settles O53: each escalation is the branch of its row that saturates the probes or finds no slot. -/
theorem fsmEscalatesOnlyWhenSaturated : Obligations.FsmEscalatesOnlyWhenSaturated := by
  unfold Obligations.FsmEscalatesOnlyWhenSaturated
  intro s t h ht insert
  refine ⟨fun light goes q hq => ?_, fun mid8 goes k hk => ?_, fun kv goes j hj => ?_⟩
  · simp only [advance, light] at ht
    obtain rfl := eq_of_configured ht
    rw [(fsmLight_to_mid8 insert goes).1, nib_lightFill, if_pos hq]
  · simp only [advance, mid8] at ht
    obtain rfl := eq_of_configured ht
    rw [(fsmMid8_to_kv insert goes).1]
    exact (Cells.toNat_fillWith s.lookup.nodup_c8Probes (by decide) s.store.c8 k).trans (if_pos hk)
  · simp only [advance, kv, insert, if_true] at ht
    obtain rfl := eq_of_configured ht
    obtain ⟨unmatched, claimed⟩ := findSlot_none (fsmKvInsert_to_mid16 goes).1
    exact ⟨unmatched j hj, claimed j hj⟩

end Sys2Proof.Machine
end

section
/-! SUPPORT. The state in which a command in flight on the FSM will end (R196), which no row of R191 changes, and the
bound on the remainder that an INSERT carries from stage to stage (R43). -/

namespace Sys2Proof.Machine

/-! ## Where a command in flight will end (R172, R173, R176) -/

/-- The storage and the estimate that the stages from the FSM state on give (R120 to R161). No stage is left outside
LIGHT to EVICT. -/
def State.outcome (s : State) : Storage × Nat :=
  let r := s.request s.flightKey
  match s.seq.fsm with
  | .light =>
    if s.inserting then insertLight r (countOf s.seq.cmd).toNat s.store else (s.store, queryLight r s.store)
  | .mid8 => if s.inserting then insertMid8 r s.tmp.rem s.store else (s.store, queryMid8 r s.store)
  | .kv => if s.inserting then insertKv r s.tmp.rem s.store else (s.store, queryKv r s.store)
  | .mid16 => if s.inserting then insertMid16 r s.tmp.rem s.store else (s.store, queryMid16 r s.store)
  | .heavy =>
    if s.inserting then
      let t := s.store.heavyAdd r.look s.seq.x.toNat
      match s.seq.hvNext with
      | .resp => (t, Config.base3 + t.heavyAt r.look)
      | .evict => (insertEvict r s.tmp.m16r t, Config.base3 + t.heavyAt r.look)
    else (s.store, queryHeavy r s.store)
  | .evict => (insertEvict r s.tmp.m16r s.store, s.tmp.res)
  | .uncfg | .clear | .idle | .hash | .resp => (s.store, 0)

/-- The command in flight ended with this storage and this estimate, up to the dead registers. -/
def State.endWith (s : State) (out : Storage × Nat) : State :=
  (State.respond { s with store := out.1 } .ok out.2).withoutDead

/-- The state in HASH with the answers that are still to come latched, at LIGHT (R101, R191). -/
def State.answered (answer : Nat → Word32) (s : State) : State :=
  { s with
    seq := { s.seq with
      fsm := .light
      hv := (List.range' s.seq.hashNext (s.csr.seeds - s.seq.hashNext)).foldl
        (fun hv i => hv.write [i] (answer i)) s.seq.hv } }

/-- The state in which the command in flight will end with this provider, up to the dead registers. -/
def State.ended (answer : Nat → Word32) (s : State) : State :=
  match s.seq.fsm with
  | .uncfg | .idle | .resp => s.withoutDead
  | .clear => (fsmClear s).withoutDead
  | .hash => (s.answered answer).endWith (s.answered answer).outcome
  | .light | .mid8 | .kv | .mid16 | .heavy | .evict => s.endWith s.outcome

/-- The stages of a keyed command (R190). -/
abbrev Fsm.IsStage (f : Fsm) : Prop := f ∈ [Fsm.light, .mid8, .kv, .mid16, .heavy, .evict]

theorem ended_of_stage (answer : Nat → Word32) {s : State} (stage : s.seq.fsm.IsStage) :
    s.ended answer = s.endWith s.outcome := by
  cases hf : s.seq.fsm with
  | uncfg | clear | idle | hash | resp => exact absurd (hf ▸ stage) (by decide)
  | light | mid8 | kv | mid16 | heavy | evict => simp only [State.ended, hf]

theorem ended_of_hash (answer : Nat → Word32) {s : State} (hash : s.seq.fsm = .hash) :
    s.ended answer = (s.answered answer).endWith (s.answered answer).outcome := by
  simp only [State.ended, hash]

theorem ended_of_resp (answer : Nat → Word32) {s : State} (resp : s.seq.fsm = .resp) :
    s.ended answer = s.withoutDead := by
  simp only [State.ended, resp]

theorem ended_cmd (answer : Nat → Word32) (s : State) : (s.ended answer).seq.cmd = s.seq.cmd := by
  unfold State.ended
  split <;> rfl

/-- A command leaves what decides whether the configuration is legal. -/
theorem ended_cfgValid (answer : Nat → Word32) (s : State) : (s.ended answer).cfgValid = s.cfgValid := by
  unfold State.ended
  split <;> rfl

/-! ## What a stage gives, branch by branch (R120 to R155) -/

/-- What HEAVY adds fits in its register (R41). -/
theorem toNat_x {n : Nat} (cap : Nat) (fits : n < 2 ^ 35) :
    (BitVec.ofNat 35 (forwarded n cap)).toNat = forwarded n cap :=
  (BitVec.toNat_ofNat ..).trans (Nat.mod_eq_of_lt ((Nat.sub_le n cap).trans_lt fits))

theorem c16Min_le (t : Storage) (u : Lookup) : t.c16Min u ≤ 65535 :=
  minOf_le_of_forall fun a ha => by
    obtain ⟨k, -, rfl⟩ := List.mem_map.mp ha
    exact Nat.le_of_lt_succ (t.c16.read k).isLt

@[simp] theorem request_look (s : State) (key : List Byte) : (s.request key).look = s.lookup := rfl
@[simp] theorem request_keyMaxLen (s : State) (key : List Byte) : (s.request key).keyMaxLen = s.inst.keyMaxLen := rfl
@[simp] theorem request_key (s : State) (key : List Byte) : (s.request key).key = key := rfl

theorem valAt_claim (t : Storage) (u : Lookup) (keyMaxLen : Nat) (key : List Byte) (f j : Nat) :
    (t.claim u keyMaxLen key f).valAt u j = t.valAt u j := by
  simp only [Storage.valAt, claim_val]

section stages
variable {r : Request} {n : Nat} {t : Storage}

theorem insertLight_of_full (full : ¬t.lightMin r.look + n < Config.lightSat) :
    insertLight r n t = insertMid8 r (forwarded (t.lightMin r.look + n) Config.lightCap) (t.lightFill r.look) :=
  if_neg full

theorem queryLight_of_full (full : ¬t.lightMin r.look < Config.lightSat) : queryLight r t = queryMid8 r t :=
  if_neg full

theorem insertMid8_of_low (low : t.c8Min r.look + n < Config.c8Sat) :
    insertMid8 r n t = (t.c8Raise r.look (t.c8Min r.look + n), Config.base1 + (t.c8Min r.look + n)) :=
  if_pos low

theorem insertMid8_of_full (full : ¬t.c8Min r.look + n < Config.c8Sat) :
    insertMid8 r n t = insertKv r (forwarded (t.c8Min r.look + n) Config.c8Cap) (t.c8Fill r.look) :=
  if_neg full

theorem queryMid8_of_low (low : t.c8Min r.look < Config.c8Sat) : queryMid8 r t = Config.base1 + t.c8Min r.look :=
  if_pos low

theorem queryMid8_of_full (full : ¬t.c8Min r.look < Config.c8Sat) : queryMid8 r t = queryKv r t := if_neg full

theorem insertKv_of_noSlot (absent : t.findSlot r.look r.key = none) : insertKv r n t = insertMid16 r n t := by
  simp only [insertKv, absent]

theorem insertKv_of_full {f x : Nat} (found : t.findSlot r.look r.key = some f)
    (full : ¬t.valAt r.look f + n < Config.c16Sat) (excess : x = forwarded (t.valAt r.look f + n) Config.c16Cap) :
    insertKv r n t =
      ((((t.claim r.look r.keyMaxLen r.key f).setVal r.look f Config.c16Sat).heavyAdd r.look x),
        Config.base3 +
          (((t.claim r.look r.keyMaxLen r.key f).setVal r.look f Config.c16Sat).heavyAdd r.look x).heavyAt r.look) := by
  rw [excess]
  simp only [insertKv, found, valAt_claim]
  exact if_neg full

theorem queryKv_of_noMatch (absent : t.matchScan r.look r.key = none) : queryKv r t = queryMid16 r t := by
  simp only [queryKv, absent]

theorem queryKv_of_room {f : Nat} (found : t.matchScan r.look r.key = some f)
    (room : t.valAt r.look f < Config.c16Sat) : queryKv r t = Config.base2 + t.valAt r.look f := by
  simp only [queryKv, found]
  exact if_pos room

theorem queryKv_of_full {f : Nat} (found : t.matchScan r.look r.key = some f)
    (full : ¬t.valAt r.look f < Config.c16Sat) : queryKv r t = queryHeavy r t := by
  simp only [queryKv, found]
  exact if_neg full

theorem insertMid16_of_low (low : t.c16Min r.look + n < Config.c16Sat) :
    insertMid16 r n t =
      (insertEvict r (t.c16Min r.look + n) (t.c16Raise r.look (t.c16Min r.look + n)),
        Config.base2 + (t.c16Min r.look + n)) :=
  if_pos low

theorem insertMid16_of_full {x : Nat} (full : ¬t.c16Min r.look + n < Config.c16Sat)
    (excess : x = forwarded (t.c16Min r.look + n) Config.c16Cap) :
    insertMid16 r n t =
      (insertEvict r Config.c16Sat ((t.c16Fill r.look).heavyAdd r.look x),
        Config.base3 + ((t.c16Fill r.look).heavyAdd r.look x).heavyAt r.look) := by
  rw [excess]
  exact if_neg full

theorem queryMid16_of_low (low : t.c16Min r.look < Config.c16Sat) : queryMid16 r t = Config.base2 + t.c16Min r.look :=
  if_pos low

theorem queryMid16_of_full (full : ¬t.c16Min r.look < Config.c16Sat) : queryMid16 r t = queryHeavy r t := if_neg full

end stages

/-! ## What is left in each state -/

section outcome
variable {s : State}

theorem outcome_light_of_insert (light : s.seq.fsm = .light) (insert : s.inserting = true) :
    s.outcome = insertLight (s.request s.flightKey) (countOf s.seq.cmd).toNat s.store := by
  simp only [State.outcome, light, insert, if_true]

theorem outcome_light_of_query (light : s.seq.fsm = .light) (query : s.inserting = false) :
    s.outcome = (s.store, queryLight (s.request s.flightKey) s.store) := by
  simp only [State.outcome, light, query, Bool.false_eq_true, if_false]

theorem outcome_mid8_of_insert (mid8 : s.seq.fsm = .mid8) (insert : s.inserting = true) :
    s.outcome = insertMid8 (s.request s.flightKey) s.tmp.rem s.store := by
  simp only [State.outcome, mid8, insert, if_true]

theorem outcome_mid8_of_query (mid8 : s.seq.fsm = .mid8) (query : s.inserting = false) :
    s.outcome = (s.store, queryMid8 (s.request s.flightKey) s.store) := by
  simp only [State.outcome, mid8, query, Bool.false_eq_true, if_false]

theorem outcome_kv_of_insert (kv : s.seq.fsm = .kv) (insert : s.inserting = true) :
    s.outcome = insertKv (s.request s.flightKey) s.tmp.rem s.store := by
  simp only [State.outcome, kv, insert, if_true]

theorem outcome_kv_of_query (kv : s.seq.fsm = .kv) (query : s.inserting = false) :
    s.outcome = (s.store, queryKv (s.request s.flightKey) s.store) := by
  simp only [State.outcome, kv, query, Bool.false_eq_true, if_false]

theorem outcome_mid16_of_insert (mid16 : s.seq.fsm = .mid16) (insert : s.inserting = true) :
    s.outcome = insertMid16 (s.request s.flightKey) s.tmp.rem s.store := by
  simp only [State.outcome, mid16, insert, if_true]

theorem outcome_mid16_of_query (mid16 : s.seq.fsm = .mid16) (query : s.inserting = false) :
    s.outcome = (s.store, queryMid16 (s.request s.flightKey) s.store) := by
  simp only [State.outcome, mid16, query, Bool.false_eq_true, if_false]

/-- HEAVY ends an INSERT that a slot sent there (R140, R161). -/
theorem outcome_heavy_of_insert_resp (heavy : s.seq.fsm = .heavy) (insert : s.inserting = true)
    (next : s.seq.hvNext = .resp) :
    s.outcome = (s.store.heavyAdd s.lookup s.seq.x.toNat,
      65802 + (s.store.heavyAdd s.lookup s.seq.x.toNat).heavyAt s.lookup) := by
  simp only [State.outcome, heavy, insert, next, if_true]
  rfl

/-- HEAVY leaves the eviction decision to an INSERT that the 16-bit tier sent there (R150, R161). -/
theorem outcome_heavy_of_insert_evict (heavy : s.seq.fsm = .heavy) (insert : s.inserting = true)
    (next : s.seq.hvNext = .evict) :
    s.outcome = (insertEvict (s.request s.flightKey) s.tmp.m16r (s.store.heavyAdd s.lookup s.seq.x.toNat),
      65802 + (s.store.heavyAdd s.lookup s.seq.x.toNat).heavyAt s.lookup) := by
  simp only [State.outcome, heavy, insert, next, if_true]
  rfl

theorem outcome_heavy_of_query (heavy : s.seq.fsm = .heavy) (query : s.inserting = false) :
    s.outcome = (s.store, queryHeavy (s.request s.flightKey) s.store) := by
  simp only [State.outcome, heavy, query, Bool.false_eq_true, if_false]

theorem outcome_evict (evict : s.seq.fsm = .evict) :
    s.outcome = (insertEvict (s.request s.flightKey) s.tmp.m16r s.store, s.tmp.res) := by
  simp only [State.outcome, evict]

end outcome

/-! ## No row of LIGHT to EVICT changes it -/

section rows
variable (answer : Nat → Word32) {s : State}

/-- A row that goes on to a later stage with the same outcome left. -/
theorem ended_goto {t : State} {f : Fsm} {out : Storage × Nat} (stage : f.IsStage)
    (frame : ∀ o, (t.goto f).endWith o = s.endWith o) (same : (t.goto f).outcome = out) :
    (t.goto f).ended answer = s.endWith out := by
  rw [← frame, ← same]
  exact ended_of_stage answer stage

theorem ended_fsmLight (light : s.seq.fsm = .light) : (fsmLight s).ended answer = s.endWith s.outcome := by
  simp only [fsmLight, Config.base0, Nat.zero_add]
  cases command : s.inserting with
  | true =>
    rw [outcome_light_of_insert light command, if_pos rfl]
    split
    · rename_i low
      rw [insertLight_light (r := s.request s.flightKey) low]
      rfl
    · rename_i full
      rw [insertLight_of_full (r := s.request s.flightKey) full, request_look]
      generalize forwarded _ _ = n
      exact ended_goto answer (by decide) (fun _ => rfl) (outcome_mid8_of_insert rfl command)
  | false =>
    rw [outcome_light_of_query light command, if_neg Bool.false_ne_true]
    split
    · rename_i low
      rw [queryLight_of_light (r := s.request s.flightKey) rfl low]
      rfl
    · rename_i full
      rw [queryLight_of_full (r := s.request s.flightKey) full]
      exact ended_goto answer (by decide) (fun _ => rfl) (outcome_mid8_of_query rfl command)

theorem ended_fsmMid8 (mid8 : s.seq.fsm = .mid8) : (fsmMid8 s).ended answer = s.endWith s.outcome := by
  unfold fsmMid8
  dsimp only
  cases command : s.inserting with
  | true =>
    rw [outcome_mid8_of_insert mid8 command, if_pos rfl]
    split
    · rename_i low
      rw [insertMid8_of_low (r := s.request s.flightKey) low]
      rfl
    · rename_i full
      rw [insertMid8_of_full (r := s.request s.flightKey) full, request_look]
      generalize forwarded _ _ = n
      exact ended_goto answer (by decide) (fun _ => rfl) (outcome_kv_of_insert rfl command)
  | false =>
    rw [outcome_mid8_of_query mid8 command, if_neg Bool.false_ne_true]
    split
    · rename_i low
      rw [queryMid8_of_low (r := s.request s.flightKey) low]
      rfl
    · rename_i full
      rw [queryMid8_of_full (r := s.request s.flightKey) full]
      exact ended_goto answer (by decide) (fun _ => rfl) (outcome_kv_of_query rfl command)

/-- A slot that overflows leaves HEAVY to add the excess, which the bound on the remainder keeps within `x` (R41). -/
theorem ended_fsmKvInsert (kv : s.seq.fsm = .kv) (insert : s.inserting = true) (fits : s.tmp.rem < 2 ^ 34) :
    (fsmKvInsert s).ended answer = s.endWith s.outcome := by
  rw [outcome_kv_of_insert kv insert]
  unfold fsmKvInsert
  dsimp only
  cases found : s.store.findSlot s.lookup s.flightKey with
  | none =>
    rw [insertKv_of_noSlot (r := s.request s.flightKey) found]
    exact ended_goto answer (by decide) (fun _ => rfl) (outcome_mid16_of_insert rfl insert)
  | some f =>
    have val := valAt_lt s.store s.lookup f
    simp only [valAt_claim]
    split
    · rename_i room
      rw [insertKv_room (r := s.request s.flightKey) found room]
      rfl
    · rename_i full
      have excess := toNat_x (n := s.store.valAt s.lookup f + s.tmp.rem) Config.c16Cap (by omega)
      rw [insertKv_of_full (r := s.request s.flightKey) found full excess, request_look, request_key,
        request_keyMaxLen]
      generalize BitVec.ofNat 35 _ = x
      exact ended_goto answer (by decide) (fun _ => rfl) (outcome_heavy_of_insert_resp rfl insert rfl)

theorem ended_fsmKvQuery (kv : s.seq.fsm = .kv) (query : s.inserting = false) :
    (fsmKvQuery s).ended answer = s.endWith s.outcome := by
  rw [outcome_kv_of_query kv query]
  unfold fsmKvQuery
  dsimp only
  cases found : s.store.matchScan s.lookup s.flightKey with
  | none =>
    rw [queryKv_of_noMatch (r := s.request s.flightKey) found]
    exact ended_goto answer (by decide) (fun _ => rfl) (outcome_mid16_of_query rfl query)
  | some f =>
    dsimp only
    split
    · rename_i room
      rw [queryKv_of_room (r := s.request s.flightKey) found room]
      rfl
    · rename_i full
      rw [queryKv_of_full (r := s.request s.flightKey) found full]
      exact ended_goto answer (by decide) (fun _ => rfl) (outcome_heavy_of_query rfl query)

/-- Counters that overflow leave HEAVY to add the excess, which the bound on the remainder keeps within `x` (R41). -/
theorem ended_fsmMid16Insert (mid16 : s.seq.fsm = .mid16) (insert : s.inserting = true) (fits : s.tmp.rem < 2 ^ 34) :
    (fsmMid16Insert s).ended answer = s.endWith s.outcome := by
  have min : s.store.c16Min s.lookup ≤ 65535 := c16Min_le _ _
  rw [outcome_mid16_of_insert mid16 insert]
  unfold fsmMid16Insert
  dsimp only
  split
  · rename_i low
    rw [insertMid16_of_low (r := s.request s.flightKey) low]
    exact ended_goto answer (by decide) (fun _ => rfl) (outcome_evict rfl)
  · rename_i full
    have excess := toNat_x (n := s.store.c16Min s.lookup + s.tmp.rem) Config.c16Cap (by omega)
    rw [insertMid16_of_full (r := s.request s.flightKey) full excess, request_look]
    generalize BitVec.ofNat 35 _ = x
    exact ended_goto answer (by decide) (fun _ => rfl) (outcome_heavy_of_insert_evict rfl insert rfl)

theorem ended_fsmMid16Query (mid16 : s.seq.fsm = .mid16) (query : s.inserting = false) :
    (fsmMid16Query s).ended answer = s.endWith s.outcome := by
  rw [outcome_mid16_of_query mid16 query]
  unfold fsmMid16Query
  dsimp only
  split
  · rename_i low
    rw [queryMid16_of_low (r := s.request s.flightKey) low]
    rfl
  · rename_i full
    rw [queryMid16_of_full (r := s.request s.flightKey) full]
    exact ended_goto answer (by decide) (fun _ => rfl) (outcome_heavy_of_query rfl query)

theorem ended_fsmHeavy (heavy : s.seq.fsm = .heavy) : (fsmHeavy s).ended answer = s.endWith s.outcome := by
  cases command : s.inserting with
  | true =>
    simp only [fsmHeavy, command, if_true]
    cases next : s.seq.hvNext with
    | resp =>
      rw [outcome_heavy_of_insert_resp heavy command next]
      rfl
    | evict =>
      rw [outcome_heavy_of_insert_evict heavy command next]
      exact ended_goto answer (by decide) (fun _ => rfl) (outcome_evict rfl)
  | false =>
    rw [fsmHeavy_of_query command, outcome_heavy_of_query heavy command]
    rfl

/-- The least VAL that EVICT latches is the VAL of the layer it replaces (R153). -/
theorem ended_fsmEvict (evict : s.seq.fsm = .evict) : (fsmEvict s).ended answer = s.endWith s.outcome := by
  rw [outcome_evict evict]
  unfold fsmEvict
  dsimp only
  cases least : s.store.kvMin s.lookup with
  | none =>
    have keeps : insertEvict (s.request s.flightKey) s.tmp.m16r s.store = s.store := by
      simp only [insertEvict, State.request, least]
    rw [keeps]
    rfl
  | some k =>
    obtain ⟨-, val, -⟩ := kvMin_eq_some.mp least
    rw [← val]
    dsimp only
    split
    · rename_i ge
      rw [insertEvict_yes (r := s.request s.flightKey) least ge]
      rfl
    · rename_i lt
      rw [insertEvict_no (r := s.request s.flightKey) least (Bool.eq_false_iff.mpr lt)]
      rfl

end rows

/-! ## HASH (R101, R191) -/

/-- A transition of HASH with this provider: a request is transferred where the provider is ready, and where an answer
is owed and the provider gives it, it is latched; with the last answer the command goes to LIGHT. -/
theorem advance_provider_cases {answer : Nat → Word32} {ready answers : Bool} {s t : State} (hash : s.seq.fsm = .hash)
    (valid : s.cfgValid = true) (missing : s.seq.hashNext < s.csr.seeds)
    (ht : advance (s.provider answer ready answers) s = .next t) :
    let asked := if ready = true ∧ s.seq.hashAsked < s.csr.seeds then s.seq.hashAsked + 1 else s.seq.hashAsked
    ((answers = false ∨ s.seq.hashAsked ≤ s.seq.hashNext) ∧
      t = { s with seq := { s.seq with hashAsked := asked } }) ∨
    (s.seq.hashNext < s.seq.hashAsked ∧
      t = { s with
        seq := { s.seq with
          hashAsked := asked
          hashNext := s.seq.hashNext + 1
          hv := s.seq.hv.write [s.seq.hashNext] (answer s.seq.hashNext)
          fsm := if s.seq.hashNext + 1 = s.csr.seeds then .light else .hash } }) := by
  intro asked
  obtain ⟨-, waits, takes⟩ := hashHandshakesAtAnEdge s (s.provider answer ready answers) hash valid missing
  by_cases owed : s.seq.hashNext < s.seq.hashAsked
  · cases answers with
    | true =>
      have given : (s.provider answer ready true).hrsp = some (answer s.seq.hashNext) := by
        simp only [State.provider, State.hashOwed, decide_eq_true owed, Bool.and_true, if_true]
      rw [takes _ given owed] at ht
      injection ht with ht
      exact .inr ⟨owed, ht.symm⟩
    | false =>
      rw [waits (.inl rfl)] at ht
      injection ht with ht
      exact .inl ⟨.inl rfl, ht.symm⟩
  · rw [waits (.inr (Nat.not_lt.mp owed))] at ht
    injection ht with ht
    exact .inl ⟨.inr (Nat.not_lt.mp owed), ht.symm⟩

/-- Of the answers still to come, the next one is latched first. -/
theorem foldl_answers_of_missing (answer : Nat → Word32) (hv : Cells 32) {i n : Nat} (missing : i < n) :
    (List.range' i (n - i)).foldl (fun hv i => hv.write [i] (answer i)) hv =
      (List.range' (i + 1) (n - (i + 1))).foldl (fun hv i => hv.write [i] (answer i)) (hv.write [i] (answer i)) := by
  rw [show n - i = n - (i + 1) + 1 by omega, List.range'_succ, List.foldl_cons]

/-- At LIGHT with all answers latched, none is still to come. -/
theorem ended_of_answered (answer : Nat → Word32) {s : State} (light : s.seq.fsm = .light)
    (all : s.seq.hashNext = s.csr.seeds) :
    s.ended answer = (s.answered answer).endWith (s.answered answer).outcome := by
  have same : s.answered answer = s := by
    rw [State.answered, all, Nat.sub_self, ← light]
    rfl
  rw [same]
  exact ended_of_stage answer (light ▸ by decide)

theorem ended_advance_hash {answer : Nat → Word32} {ready answers : Bool} {s t : State} (hash : s.seq.fsm = .hash)
    (valid : s.cfgValid = true) (missing : s.seq.hashNext < s.csr.seeds)
    (ht : advance (s.provider answer ready answers) s = .next t) : t.ended answer = s.ended answer := by
  rw [ended_of_hash answer hash]
  rcases advance_provider_cases hash valid missing ht with ⟨-, rfl⟩ | ⟨-, ht⟩
  · exact ended_of_hash answer hash
  · have ends : t.ended answer = (t.answered answer).endWith (t.answered answer).outcome := by
      by_cases last : s.seq.hashNext + 1 = s.csr.seeds
      · rw [if_pos last] at ht
        subst ht
        exact ended_of_answered answer rfl last
      · rw [if_neg last] at ht
        subst ht
        exact ended_of_hash answer rfl
    have latched : t.answered answer = { s.answered answer with
        seq := { (s.answered answer).seq with hashAsked := t.seq.hashAsked, hashNext := t.seq.hashNext } } := by
      subst ht
      simp only [State.answered, foldl_answers_of_missing answer s.seq.hv missing]
    rw [ends, latched]
    rfl

/-! ## The remainder of an INSERT stays within the datapath (R9, R43) -/

/-- The remainder of an INSERT is at most its COUNT and one more for each saturated tier that it has passed (R109;
93_implementation_defined.md I7), so that 2^32 bounds it in MID8 and 2^32 + 1 after that. -/
structure State.RemFits (s : State) : Prop where
  mid8 : s.inserting = true → s.seq.fsm = .mid8 → s.tmp.rem ≤ 2 ^ 32
  kv : s.inserting = true → s.seq.fsm = .kv ∨ s.seq.fsm = .mid16 → s.tmp.rem ≤ 2 ^ 32 + 1

theorem State.RemFits.of_fsm {s : State} (other : s.seq.fsm ∉ [Fsm.mid8, .kv, .mid16]) : s.RemFits where
  mid8 _ is := absurd (by simp [is]) other
  kv _ is := absurd (by rcases is with is | is <;> simp [is]) other

theorem Fsm.successors_without_rem : ∀ f ∈ [Fsm.clear, .hash, .mid16, .heavy, .evict], ∀ g ∈ f.successors,
    g ∉ [Fsm.mid8, .kv, .mid16] := by decide

theorem remFits_advance {h : HashInput} {s t : State} (ht : advance h s = .next t) (fits : s.RemFits)
    (cmd : t.seq.cmd = s.seq.cmd) : t.RemFits := by
  have command : t.inserting = s.inserting := congrArg (opcOf · == opcInsert) cmd
  have goes := advance_fsm_mem ht
  cases hf : s.seq.fsm with
    (rw [hf] at goes
     simp only [advance, hf] at ht)
  | uncfg | idle | resp =>
    injection ht with ht
    exact ht ▸ fits
  | clear | hash | mid16 | heavy | evict =>
    exact .of_fsm (Fsm.successors_without_rem _ (by decide) _ (goes (by decide)))
  | light =>
    obtain rfl := eq_of_configured ht
    refine ⟨fun insert mid8 => ?_, fun _ later => ?_⟩
    · have min := lightMin_le s.store s.lookup
      have count := (countOf s.seq.cmd).isLt
      rw [(fsmLight_to_mid8 (command ▸ insert) mid8).2]
      omega
    · exact absurd later ((by decide : ∀ f ∈ Fsm.light.successors, ¬(f = .kv ∨ f = .mid16)) _ (goes (by decide)))
  | mid8 =>
    obtain rfl := eq_of_configured ht
    refine ⟨fun _ again => ?_, fun insert later => ?_⟩
    · exact absurd again ((by decide : ∀ f ∈ Fsm.mid8.successors, f ≠ .mid8) _ (goes (by decide)))
    · have kv := later.resolve_right ((by decide : ∀ f ∈ Fsm.mid8.successors, f ≠ .mid16) _ (goes (by decide)))
      have min := c8Min_le s.store s.lookup
      have rem := fits.mid8 (command ▸ insert) hf
      rw [(fsmMid8_to_kv (command ▸ insert) kv).2]
      omega
  | kv =>
    obtain rfl := eq_of_configured ht
    refine ⟨fun _ earlier => ?_, fun insert later => ?_⟩
    · exact absurd earlier ((by decide : ∀ f ∈ Fsm.kv.successors, f ≠ .mid8) _ (goes (by decide)))
    · have mid16 := later.resolve_left ((by decide : ∀ f ∈ Fsm.kv.successors, f ≠ .kv) _ (goes (by decide)))
      have rem := fits.kv (command ▸ insert) (.inl hf)
      rw [if_pos (command ▸ insert)] at mid16 ⊢
      rwa [(fsmKvInsert_to_mid16 mid16).2]

end Sys2Proof.Machine
end

section
/-! SUPPORT. The run of a command on the FSM with a provider of given answers (R196): every transition stays on the way
to where the command will end, and a prompt provider bounds their number (log entries 17 and 27). -/

namespace Sys2Proof.Machine

/-! ## The run of a command (R196) -/

/-- The rows of LIGHT to EVICT leave where the command will end. -/
theorem ended_advance_stage (answer : Nat → Word32) {h : HashInput} {s t : State} (ht : advance h s = .next t)
    (fits : s.RemFits) (stage : s.seq.fsm.IsStage) : t.ended answer = s.ended answer := by
  rw [ended_of_stage answer stage]
  cases hf : s.seq.fsm with simp only [advance, hf] at ht
  | uncfg | clear | idle | hash | resp => exact absurd (hf ▸ stage) (by decide)
  | light => exact eq_of_configured ht ▸ ended_fsmLight answer hf
  | mid8 => exact eq_of_configured ht ▸ ended_fsmMid8 answer hf
  | kv =>
    rw [eq_of_configured ht]
    split
    · rename_i insert
      have rem := fits.kv insert (.inl hf)
      exact ended_fsmKvInsert answer hf insert (by omega)
    · rename_i query
      exact ended_fsmKvQuery answer hf (Bool.eq_false_iff.mpr query)
  | mid16 =>
    rw [eq_of_configured ht]
    split
    · rename_i insert
      have rem := fits.kv insert (.inr hf)
      exact ended_fsmMid16Insert answer hf insert (by omega)
    · rename_i query
      exact ended_fsmMid16Query answer hf (Bool.eq_false_iff.mpr query)
  | heavy => exact eq_of_configured ht ▸ ended_fsmHeavy answer hf
  | evict => exact eq_of_configured ht ▸ ended_fsmEvict answer hf

/-- No transition with this provider changes where the command will end. -/
theorem ended_advance {answer : Nat → Word32} {ready answers : Bool} {s t : State}
    (ht : advance (s.provider answer ready answers) s = .next t) (fits : s.RemFits)
    (hash : s.seq.fsm = .hash → s.cfgValid = true ∧ s.seq.hashNext < s.csr.seeds) :
    t.ended answer = s.ended answer := by
  cases hf : s.seq.fsm with
  | uncfg | idle | resp =>
    simp only [advance, hf] at ht
    injection ht with ht
    rw [ht]
  | clear =>
    simp only [advance, hf] at ht
    injection ht with ht
    simp only [State.ended, hf, ← ht]
    rfl
  | hash =>
    obtain ⟨valid, missing⟩ := hash hf
    exact ended_advance_hash hf valid missing ht
  | light | mid8 | kv | mid16 | heavy | evict => exact ended_advance_stage answer ht fits (hf ▸ by decide)

/-- A busy block on its way to `goal`: the configuration it probes by is legal, HASH waits for an answer, the remainder
fits, and the command in flight will end in `goal`. -/
structure Towards (answer : Nat → Word32) (goal s : State) : Prop where
  busy : s.busy = true
  valid : s.seq.fsm ≠ .resp → s.cfgValid = true
  answered : s.seq.fsm = .hash → s.seq.hashNext ≤ s.seq.hashAsked
  missing : s.seq.fsm = .hash → s.seq.hashNext < s.csr.seeds
  fits : s.RemFits
  ends : s.ended answer = goal

theorem advance_of_resp (h : HashInput) {s : State} (resp : s.seq.fsm = .resp) : advance h s = .next s := by
  simp only [advance, resp]

/-- A busy block with a legal configuration does not stop (log entry 14). -/
theorem advance_of_valid (h : HashInput) {s : State} (valid : s.cfgValid = true) : ∃ t, advance h s = .next t := by
  cases hf : s.seq.fsm <;> exact ⟨_, by simp only [advance, hf, valid, if_true]; rfl⟩

theorem successors_ne_nil_of_busy {s : State} (busy : s.busy = true) (notResp : s.seq.fsm ≠ .resp) :
    s.seq.fsm.successors ≠ [] := by
  obtain ⟨notUncfg, notIdle⟩ := (busy_iff s).mp busy
  cases hf : s.seq.fsm with
  | uncfg => exact absurd hf notUncfg
  | idle => exact absurd hf notIdle
  | resp => exact absurd hf notResp
  | _ => exact nofun

theorem Fsm.successors_busy : ∀ f, ∀ g ∈ Fsm.successors f, g ≠ .uncfg ∧ g ≠ .idle := by
  intro f
  cases f <;> decide

/-- Only HASH goes to HASH. -/
theorem Fsm.eq_hash_of_successor : ∀ f, .hash ∈ Fsm.successors f → f = .hash := by
  intro f
  cases f <;> decide

/-- What HASH keeps while it waits: no answer outruns its request, and one is still to come. -/
theorem advance_hash_waits {answer : Nat → Word32} {ready answers : Bool} {s t : State} (hash : s.seq.fsm = .hash)
    (valid : s.cfgValid = true) (answered : s.seq.hashNext ≤ s.seq.hashAsked) (missing : s.seq.hashNext < s.csr.seeds)
    (ht : advance (s.provider answer ready answers) s = .next t) (waits : t.seq.fsm = .hash) :
    t.seq.hashNext ≤ t.seq.hashAsked ∧ t.seq.hashNext < t.csr.seeds := by
  rcases advance_provider_cases hash valid missing ht with ⟨-, rfl⟩ | ⟨owed, rfl⟩
  · refine ⟨answered.trans ?_, missing⟩
    dsimp only
    split <;> omega
  · dsimp only at waits ⊢
    split at waits
    · cases waits
    · refine ⟨?_, by omega⟩
      split <;> omega

/-- Every transition with this provider stays on the way. -/
theorem Towards.advance {answer : Nat → Word32} {goal s t : State} {ready answers : Bool}
    (way : Towards answer goal s) (ht : Machine.advance (s.provider answer ready answers) s = .next t) :
    Towards answer goal t := by
  by_cases resp : s.seq.fsm = .resp
  · rw [advance_of_resp _ resp] at ht
    injection ht with ht
    exact ht ▸ way
  have goes := advance_fsm_mem ht (successors_ne_nil_of_busy way.busy resp)
  have ends : t.ended answer = s.ended answer :=
    ended_advance ht way.fits fun hash => ⟨way.valid resp, way.missing hash⟩
  have cmd : t.seq.cmd = s.seq.cmd := by rw [← ended_cmd answer t, ends, ended_cmd]
  have valid : t.cfgValid = s.cfgValid := by rw [← ended_cfgValid answer t, ends, ended_cfgValid]
  have waits (hash : t.seq.fsm = .hash) : t.seq.hashNext ≤ t.seq.hashAsked ∧ t.seq.hashNext < t.csr.seeds :=
    have wasHash : s.seq.fsm = .hash := Fsm.eq_hash_of_successor _ (hash ▸ goes)
    advance_hash_waits wasHash (way.valid resp) (way.answered wasHash) (way.missing wasHash) ht hash
  exact ⟨(busy_iff t).mpr (Fsm.successors_busy _ _ goes), fun _ => valid.trans (way.valid resp),
    fun hash => (waits hash).1, fun hash => (waits hash).2, remFits_advance ht way.fits cmd, ends.trans way.ends⟩

/-- Whatever the schedule, a run stays on the way. -/
theorem Towards.advanceAll {answer : Nat → Word32} {goal r : State} (es : List (Bool × Bool)) {s : State}
    (way : Towards answer goal s) (hr : Machine.advanceAll answer es s = .next r) : Towards answer goal r := by
  induction es generalizing s with
  | nil =>
    injection hr with hr
    exact hr ▸ way
  | cons e es ih =>
    obtain ⟨ready, answers⟩ := e
    unfold Machine.advanceAll at hr
    split at hr
    · rename_i t ht
      exact ih (way.advance ht) hr
    · cases hr
    · cases hr

/-- In RESP the goal is reached. -/
theorem Towards.goal_eq {answer : Nat → Word32} {goal s : State} (way : Towards answer goal s)
    (resp : s.seq.fsm = .resp) : s.withoutDead = goal :=
  (ended_of_resp answer resp).symm.trans way.ends

/-! ## How many transitions a prompt provider leaves to a command (R191; log entries 17 and 27) -/

/-- The transitions from a state to RESP, at most, those within HASH not counted. -/
def Fsm.stagesLeft : Fsm → Nat
  | .hash | .light => 6
  | .mid8 => 5
  | .kv => 4
  | .mid16 => 3
  | .heavy => 2
  | .evict | .clear => 1
  | .uncfg | .idle | .resp => 0

/-- The transitions to RESP, at most, with a provider that is always ready and answers at the next edge: in HASH one for
each answer still to come, and one more where no request is out. -/
def State.transitionsLeft (s : State) : Nat :=
  s.seq.fsm.stagesLeft +
    if s.seq.fsm = .hash then s.csr.seeds - s.seq.hashNext + (if s.seq.hashNext < s.seq.hashAsked then 0 else 1) else 0

theorem Fsm.stagesLeft_lt : ∀ f ≠ Fsm.hash, ∀ g ∈ f.successors, g ≠ .hash ∧ g.stagesLeft < f.stagesLeft := by
  intro f
  cases f <;> decide

theorem transitionsLeft_of_not_hash {s : State} (notHash : s.seq.fsm ≠ .hash) :
    s.transitionsLeft = s.seq.fsm.stagesLeft := by
  rw [State.transitionsLeft, if_neg notHash, Nat.add_zero]

theorem transitionsLeft_of_hash {s : State} (hash : s.seq.fsm = .hash) :
    s.transitionsLeft = 6 + (s.csr.seeds - s.seq.hashNext + (if s.seq.hashNext < s.seq.hashAsked then 0 else 1)) := by
  rw [State.transitionsLeft, if_pos hash, hash, Fsm.stagesLeft]

/-- A prompt provider takes a request at every edge and answers it at the next. -/
theorem transitionsLeft_lt_of_hash {answer : Nat → Word32} {s t : State} (hash : s.seq.fsm = .hash)
    (valid : s.cfgValid = true) (answered : s.seq.hashNext ≤ s.seq.hashAsked) (missing : s.seq.hashNext < s.csr.seeds)
    (ht : advance (s.provider answer true true) s = .next t) : t.transitionsLeft < s.transitionsLeft := by
  rw [transitionsLeft_of_hash hash]
  rcases advance_provider_cases hash valid missing ht with ⟨unowed, rfl⟩ | ⟨owed, ht⟩
  · have settled : s.seq.hashAsked ≤ s.seq.hashNext := unowed.resolve_left nofun
    rw [transitionsLeft_of_hash (by exact hash)]
    simp only [true_and]
    rw [if_pos (settled.trans_lt missing), if_pos (Nat.lt_succ_of_le answered), if_neg (Nat.not_lt.mpr settled)]
    omega
  · by_cases last : s.seq.hashNext + 1 = s.csr.seeds
    · rw [if_pos last] at ht
      have light : t.seq.fsm = .light := by rw [ht]
      rw [transitionsLeft_of_not_hash (by rw [light]; decide), light, Fsm.stagesLeft]
      omega
    · rw [if_neg last] at ht
      subst ht
      rw [transitionsLeft_of_hash rfl]
      simp only [true_and]
      have next : s.seq.hashNext + 1 <
          if s.seq.hashAsked < s.csr.seeds then s.seq.hashAsked + 1 else s.seq.hashAsked := by
        split <;> omega
      rw [if_pos owed, if_pos next]
      omega

theorem Towards.transitionsLeft_lt {answer : Nat → Word32} {goal s t : State} (way : Towards answer goal s)
    (notResp : s.seq.fsm ≠ .resp) (ht : Machine.advance (s.provider answer true true) s = .next t) :
    t.transitionsLeft < s.transitionsLeft := by
  by_cases hash : s.seq.fsm = .hash
  · exact transitionsLeft_lt_of_hash hash (way.valid notResp) (way.answered hash) (way.missing hash) ht
  · obtain ⟨notHash, lt⟩ :=
      Fsm.stagesLeft_lt _ hash _ (advance_fsm_mem ht (successors_ne_nil_of_busy way.busy notResp))
    rwa [transitionsLeft_of_not_hash notHash, transitionsLeft_of_not_hash hash]

/-- With a prompt provider every command reaches RESP. -/
theorem Towards.reaches_resp {answer : Nat → Word32} {goal : State} (bound : Nat) {s : State}
    (way : Towards answer goal s) (left : s.transitionsLeft ≤ bound) :
    ∃ n r, n ≤ bound ∧ Machine.advanceAll answer (List.replicate n (true, true)) s = .next r ∧ r.seq.fsm = .resp := by
  induction bound generalizing s with
  | zero =>
    by_cases resp : s.seq.fsm = .resp
    · exact ⟨0, s, le_rfl, rfl, resp⟩
    · obtain ⟨t, ht⟩ := advance_of_valid (s.provider answer true true) (way.valid resp)
      have lt := way.transitionsLeft_lt resp ht
      omega
  | succ bound ih =>
    by_cases resp : s.seq.fsm = .resp
    · exact ⟨0, s, Nat.zero_le _, rfl, resp⟩
    · obtain ⟨t, ht⟩ := advance_of_valid (s.provider answer true true) (way.valid resp)
      have lt := way.transitionsLeft_lt resp ht
      obtain ⟨n, r, le, run, resp'⟩ := ih (way.advance ht) (by omega)
      refine ⟨n + 1, r, by omega, ?_, resp'⟩
      rw [List.replicate_succ, Machine.advanceAll, ht]
      exact run

end Sys2Proof.Machine
end

section
/-! SUPPORT. The statement that the FSM refines the atomic command (R196): the FSM accepts what the atomic block
accepts, and with the atomic command's hash values it is on the way to the atomic command's state. -/

namespace Sys2Proof.Machine

/-! ## The acceptance of a command (R191, R202) -/

/-- An admitted keyed command at the acceptance of the FSM: latched, in HASH, with nothing requested (R191). -/
def State.acceptKeyed (s : State) (c : Command) : State :=
  { s.latchCommand c.word c.payload with
    seq := { (s.latchCommand c.word c.payload).seq with fsm := .hash, hashAsked := 0, hashNext := 0 } }

section accept
variable {c : Command} {s : State}

theorem fsmAccept_of_illegalOpcode (decodes : decode c.word c.payload = .illegalOpcode) :
    fsmAccept c s = .next (s.refuse .errOpcode) := by
  simp only [fsmAccept, decodes]

theorem fsmAccept_of_reservedField (decodes : decode c.word c.payload = .reservedField) :
    fsmAccept c s = .next ((lockIfConfigure c.word s).refuse .errReserved) := by
  simp only [fsmAccept, decodes]

/-- A CONFIGURE that a check stops is answered with its status. -/
theorem fsmAccept_configure_refused (decodes : decode c.word c.payload = .command .configure)
    (failed : s.lock.admitConfigure ≠ .ok) : fsmAccept c s = .next (s.lock.refuse s.lock.admitConfigure) := by
  simp only [fsmAccept, decodes]

theorem fsmAccept_configure (decodes : decode c.word c.payload = .command .configure)
    (fresh : s.csr.configured = false) (valid : s.cfgValid = true) : fsmAccept c s = .next (s.lock.goto .clear) := by
  have ok : s.lock.admitConfigure = .ok := admitConfigure_eq_ok.mpr ⟨fresh, valid⟩
  simp only [fsmAccept, decodes, ok]

/-- The command is an INSERT or a QUERY with this KLEN. -/
def HasKlen (klen : BitVec 8) : Instr → Prop
  | .insert k _ _ => k = klen
  | .query k _ => k = klen
  | .configure => False

/-- An INSERT or a QUERY that a check stops is answered with its status. -/
theorem fsmAccept_keyed_refused {i : Instr} {klen : BitVec 8} (decodes : decode c.word c.payload = .command i)
    (keyed : HasKlen klen i) (failed : s.admitKeyed klen ≠ .ok) :
    fsmAccept c s = .next (s.refuse (s.admitKeyed klen)) := by
  cases i with
  | configure => exact keyed.elim
  | insert | query =>
    obtain rfl := keyed
    simp only [fsmAccept, decodes]

/-- An INSERT or a QUERY that passes the checks is latched and goes to HASH. -/
theorem fsmAccept_keyed {i : Instr} {klen : BitVec 8} (decodes : decode c.word c.payload = .command i)
    (keyed : HasKlen klen i) (serves : s.serves klen) : fsmAccept c s = .next (s.acceptKeyed c) := by
  obtain ⟨conf, -, legal⟩ := serves
  have ok : s.admitKeyed klen = .ok := admitKeyed_eq_ok.mpr ⟨conf, legal⟩
  cases i with
  | configure => exact keyed.elim
  | insert | query =>
    obtain rfl := keyed
    simp only [fsmAccept, decodes, ok]
    rfl

end accept

/-! ## The hash values of the FSM and of the atomic command (R101) -/

/-- The answer to a seed is the draw left when the seeds before it have taken theirs, or HASH. -/
theorem hashAnswer_drop (s : State) (key : List Byte) (n : Nat) :
    hashAnswer (s.port.draws.drop n) key n = s.hashOf key n := by
  unfold hashAnswer State.hashOf
  cases drawn : s.port.draws[n]? with
  | none => rw [List.drop_eq_nil_of_le (List.getElem?_eq_none_iff.mp drawn)]
  | some d =>
    obtain ⟨lt, rfl⟩ := List.getElem?_eq_some_iff.mp drawn
    rw [List.drop_eq_getElem_cons lt]

/-- The hash latch of an atomic command, as a whole state: the answers in seed order, and the draws they take. -/
theorem latchHashes_eq (key : List Byte) (n : Nat) (s : State) :
    latchHashes key n s =
      { s with
        seq := { s.seq with hv := (List.range' 0 n).foldl (fun hv i => hv.write [i] (s.hashOf key i)) s.seq.hv }
        port := { s.port with draws := s.port.draws.drop n } } := by
  induction n with
  | zero => rfl
  | succ n ih =>
    rw [latchHashes, ih, latchHash]
    simp only [hashAnswer_drop, List.tail_drop, List.range'_1_concat, List.foldl_append, List.foldl_cons,
      List.foldl_nil, Nat.zero_add]

section keyed
variable {i : Instr} {klen : BitVec 8} {c : Command} {s : State}

/-- A QUERY ends with the storage that it started with. -/
theorem respond_latched (p : List Byte) (est : Nat) :
    State.respond { s.latched i klen p with store := s.store } .ok est = (s.latched i klen p).respond .ok est := by
  rw [← latched_store s i klen p]

theorem inserting_answered {answer : Nat → Word32} :
    ((s.acceptKeyed c).answered answer).inserting = (opcOf c.word == opcInsert) := rfl

/-- With the answers that the atomic command takes, both latch the same. -/
theorem endWith_answered (word : encodeWord i = c.word) (out : Storage × Nat) :
    ((s.acceptKeyed c).answered (s.hashOf (keyOf klen c.payload))).endWith out =
      { (State.respond { s.latched i klen c.payload with store := out.1 } .ok out.2).withoutDead with
        port := s.port } := by
  rw [State.latched, latchHashes_eq, word]
  rfl

/-- With the answers that the atomic command takes, the FSM asks the same of the storage. -/
theorem request_answered (len : klenOf c.word = klen) (fits : klen.toNat ≤ s.inst.keyMaxLen) :
    ((s.acceptKeyed c).answered (s.hashOf (keyOf klen c.payload))).request
        ((s.acceptKeyed c).answered (s.hashOf (keyOf klen c.payload))).flightKey =
      s.asks (keyOf klen c.payload) := by
  have key : ((s.acceptKeyed c).answered (s.hashOf (keyOf klen c.payload))).flightKey = keyOf klen c.payload := by
    refine Eq.trans ?_ (keyOf_onKeyLanes c.payload fits)
    rw [← len]
    rfl
  have look :
      ((s.acceptKeyed c).answered (s.hashOf (keyOf klen c.payload))).lookup = s.probes (keyOf klen c.payload) := by
    rw [← lookup_latchHashes s s _ rfl rfl, latchHashes_eq]
    rfl
  rw [State.request, key, look]
  rfl

end keyed

/-! ## The refinement (R196) -/

/-- What the acceptance of the FSM gives: a block on its way to the state of the atomic command, up to the dead
registers and the draws, with at most S + 7 transitions left. -/
structure Starts (answer : Nat → Word32) (s t a : State) : Prop where
  towards : Towards answer { t.withoutDead with port := s.port } a
  bounded : a.transitionsLeft ≤ s.csr.seeds + 7

/-- A command that is answered at its acceptance is at the goal. -/
theorem starts_of_resp (answer : Nat → Word32) {s t : State} (resp : t.seq.fsm = .resp) (port : t.port = s.port) :
    Starts answer s t t where
  towards :=
    { busy := (busy_iff t).mpr (by rw [resp]; decide)
      valid := fun notResp => absurd resp notResp
      answered := fun hash => absurd (resp.symm.trans hash) nofun
      missing := fun hash => absurd (resp.symm.trans hash) nofun
      fits := .of_fsm (by rw [resp]; decide)
      ends := by rw [ended_of_resp answer resp, ← port]; rfl }
  bounded := by
    rw [transitionsLeft_of_not_hash (by rw [resp]; decide), resp]
    exact Nat.zero_le _

/-- An admitted CONFIGURE is in CLEAR, which ends it. -/
theorem starts_configure (answer : Nat → Word32) {s : State} (valid : s.cfgValid = true) :
    Starts answer s (s.lock.configureStorage.respond .ok 0) (s.lock.goto .clear) where
  towards :=
    { busy := rfl
      valid := fun _ => valid
      answered := nofun
      missing := nofun
      fits := .of_fsm (show Fsm.clear ∉ _ by decide)
      ends := rfl }
  bounded := by
    rw [transitionsLeft_of_not_hash (show Fsm.clear ≠ .hash by decide)]
    exact Nat.le_add_left 1 _

/-- An admitted keyed command is in HASH, with S answers to come. -/
theorem starts_keyed {i : Instr} {klen : BitVec 8} {c : Command} {s t : State} {out : Storage × Nat}
    (valid : s.cfgValid = true) (word : encodeWord i = c.word)
    (outcome : ((s.acceptKeyed c).answered (s.hashOf (keyOf klen c.payload))).outcome = out)
    (ran : State.respond { s.latched i klen c.payload with store := out.1 } .ok out.2 = t) :
    Starts (s.hashOf (keyOf klen c.payload)) s t (s.acceptKeyed c) where
  towards :=
    { busy := rfl
      valid := fun _ => valid
      answered := fun _ => le_rfl
      missing := fun _ => lt_of_lt_of_le (cfgValid_pos valid).1 (le_max_left _ _)
      fits := .of_fsm (show Fsm.hash ∉ _ by decide)
      ends := by rw [ended_of_hash _ rfl, outcome, endWith_answered word, ran] }
  bounded := by
    rw [transitionsLeft_of_hash rfl]
    show 6 + (s.csr.seeds - 0 + 1) ≤ s.csr.seeds + 7
    omega

/-- Every command that the atomic block accepts starts on the FSM. -/
theorem fsmAccept_starts {c : Command} {s t : State} (accepted : acceptCommand c s = .next t) :
    ∃ a, fsmAccept c s = .next a ∧ Starts (s.hashOf (keyOf (klenOf c.word) c.payload)) s t a := by
  rcases acceptCommand_cases accepted with ⟨decodes, rfl⟩ | ⟨decodes, rfl⟩ | ⟨i, decodes, ran⟩
  · exact ⟨_, fsmAccept_of_illegalOpcode decodes, starts_of_resp _ rfl rfl⟩
  · refine ⟨_, fsmAccept_of_reservedField decodes, starts_of_resp _ rfl ?_⟩
    rw [lockIfConfigure_eq]
    rfl
  · obtain ⟨fits, operands⟩ := decode_eq_command_iff.mp decodes
    have word := encodeWord_of_fits fits operands
    cases i with
    | configure =>
      rcases execConfigure_next ran with ⟨-, failed, rfl⟩ | ⟨⟨fresh, valid⟩, rfl⟩
      · exact ⟨_, fsmAccept_configure_refused decodes failed, starts_of_resp _ rfl rfl⟩
      · exact ⟨_, fsmAccept_configure decodes fresh valid, starts_configure _ valid⟩
    | insert klen p count =>
      obtain ⟨rfl, rfl, rfl⟩ := operands
      rcases execInsert_next ran with ⟨-, failed, rfl⟩ | ⟨serves, rfl⟩
      · exact ⟨_, fsmAccept_keyed_refused decodes rfl failed, starts_of_resp _ rfl rfl⟩
      · obtain ⟨opc, -⟩ := (rowInsert_fits_iff c.word).mp fits
        have accepts := fsmAccept_keyed (s := s) decodes rfl serves
        obtain ⟨-, valid, -, len⟩ := serves
        refine ⟨_, accepts, starts_keyed valid word ?_ rfl⟩
        rw [outcome_light_of_insert rfl (inserting_answered.trans (by rw [opc]; rfl)), request_answered rfl len]
        rfl
    | query klen p =>
      obtain ⟨rfl, rfl⟩ := operands
      rcases execQuery_next ran with ⟨-, failed, rfl⟩ | ⟨serves, rfl⟩
      · exact ⟨_, fsmAccept_keyed_refused decodes rfl failed, starts_of_resp _ rfl rfl⟩
      · obtain ⟨opc, -⟩ := (rowQuery_fits_iff c.word).mp fits
        have accepts := fsmAccept_keyed (s := s) decodes rfl serves
        obtain ⟨-, valid, -, len⟩ := serves
        refine ⟨_, accepts, starts_keyed (out := (s.store, _)) valid word ?_ (respond_latched ..)⟩
        rw [outcome_light_of_query rfl (inserting_answered.trans (by rw [opc]; rfl)), request_answered rfl len]
        rfl

/-- Settles O55: the accepted block is on its way to the atomic command's state, no transition leaves that way, and with
a prompt provider each one shortens it. -/
theorem fsmRefinesTheAtomicCommand : Obligations.FsmRefinesTheAtomicCommand := by
  unfold Obligations.FsmRefinesTheAtomicCommand
  intro s t c _ _ accepted answer
  obtain ⟨a, accepts, towards, bounded⟩ := fsmAccept_starts accepted
  exact ⟨a, accepts, towards.reaches_resp _ bounded, fun es r run resp => (towards.advanceAll es run).goal_eq resp⟩

end Sys2Proof.Machine
end

section
/-! SUPPORT. The statements about exceptions and the order of an edge (60_exceptions.md): the codes (R190, R200), the edge
without a transfer (R215), the CSR access before acceptance and delivery (R210), the refusals and what is left of them
(R201, R203, R205), and that no state with the invariants stops (R202, R204). -/

namespace Sys2Proof.Machine

/-! ## The codes (R190, R200) -/

/-- Settles O18: each code is read off its table. -/
theorem statusAndFsmCodes : Obligations.StatusAndFsmCodes := by
  unfold Obligations.StatusAndFsmCodes
  exact ⟨rfl, rfl⟩

/-! ## The CSR access of an edge, as a whole state (R178, R179) -/

theorem csrPort_none_dropEdge (s : State) :
    csrPort none s.dropEdge = { s with port := { s.port with inputs := s.port.inputs.tail, csrRdata := none } } := rfl

theorem csrPort_read_dropEdge (s : State) (a : BitVec 8) :
    csrPort (some (.read a)) s.dropEdge =
      { s with port := { s.port with inputs := s.port.inputs.tail, csrRdata := some (s.csrRead a) } } := rfl

theorem csrPort_write_dropEdge (s : State) (a : BitVec 8) (v : Word32) :
    csrPort (some (.write a v)) s.dropEdge =
      { s with csr := s.csr.write a v, port := { s.port with inputs := s.port.inputs.tail, csrRdata := none } } := rfl

/-! ## The edge without a transfer (R57, R215) -/

/-- An edge that transfers neither a command nor a response is its CSR access alone, whichever the acceptance. -/
theorem edgeWith_hold (accept : Command → State → Result) {e : Edge} {s : State} (hr : e.rst = false)
    (holds : ((s.seq.fsm = .uncfg ∨ s.seq.fsm = .idle) ∧ e.cmd = none) ∨ (s.seq.fsm = .resp ∧ e.rspReady = false)) :
    edgeWith accept e s = .next (csrPort e.csr s) := by
  rcases holds with ⟨uncfg | idle, silent⟩ | ⟨resp, untaken⟩
  · simp only [edgeWith, hr, csrPort_seq, uncfg, silent, Bool.false_eq_true, if_false]
  · simp only [edgeWith, hr, csrPort_seq, idle, silent, Bool.false_eq_true, if_false]
  · simp only [edgeWith, hr, csrPort_seq, resp, untaken, Bool.false_eq_true, if_false]

/-- Settles O9: the edge is its CSR access, which is one of three. -/
theorem edgeWithoutTransferHoldsEverything : Obligations.EdgeWithoutTransferHoldsEverything := by
  unfold Obligations.EdgeWithoutTransferHoldsEverything
  intro s hr holds
  have held : step s = .next (csrPort s.nextEdge.csr s.dropEdge) := edgeWith_hold acceptCommand hr holds
  refine ⟨held, fun quiet => ?_, fun a reads => ?_, fun a v writes => ?_⟩
  · rw [held, quiet, csrPort_none_dropEdge]
  · rw [held, reads, csrPort_read_dropEdge]
  · rw [held, writes, csrPort_write_dropEdge]

/-! ## The CSR access before acceptance and delivery (R210) -/

/-- The word 0x3 is CONFIGURE, whatever the payload (R75). -/
theorem decode_configureWord (p : List Byte) : decode 0x0000000000000003 p = .command .configure :=
  decode_eq_command_iff.mpr ⟨(rowConfigure_fits_iff _).mpr rfl, trivial⟩

/-- The taking of a response changes no register but STATUS (R180). -/
theorem csrRead_deliver (s : State) {b : BitVec 8} (other : b ≠ 0x04) : s.deliver.csrRead b = s.csrRead b := by
  unfold State.csrRead
  cases found : csrAt b with
  | none => rfl
  | some n =>
    cases n with
    | status => exact absurd (csrAt_eq_some_iff.mp found).symm other
    | _ => rfl

/-- What STATUS reads while a response waits: BUSY is 1 and LAST_STATUS the one before (R24, R194). -/
theorem csrRead_status_of_resp {s : State} (resp : s.seq.fsm = .resp) :
    (s.csrRead 0x04).getLsbD 1 = true ∧ (s.csrRead 0x04).extractLsb' 8 4 = s.csr.lastStatus := by
  obtain ⟨-, busy, -, -, last, -⟩ := statusFields s
  rw [show s.csrRead 0x04 = s.statusWord from csrRead_addr s .status]
  exact ⟨busy.mpr (by rw [resp]; decide), last⟩

/-- An unlocked write at a delivery: the register reads the value, and every other one but STATUS as before. -/
theorem csrRead_write_deliver {s : State} {a : BitVec 8} (v : Word32) (unlocked : s.csr.cfgLock = false)
    (aligned : a.toNat % 4 = 0) (low : 0x08 ≤ a.toNat) (high : a.toNat ≤ 0x28) :
    (csrPort (some (.write a v)) s).deliver.csrRead a = v ∧
      ∀ b, b ≠ a → b ≠ 0x04 → (csrPort (some (.write a v)) s).deliver.csrRead b = s.csrRead b := by
  obtain ⟨taken, -⟩ := csrWriteIsTakenOnlyWhenUnlocked s a v
  obtain ⟨value, others⟩ := taken unlocked aligned low high
  have written : a ≠ 0x04 := by
    rintro rfl
    exact absurd low (by decide)
  exact ⟨(csrRead_deliver _ written).trans value,
    fun b other notStatus => (csrRead_deliver _ notStatus).trans (others b other)⟩

/-- Settles O13: the edge accepts or delivers what the CSR access has left, and the access sees the state before it. -/
theorem csrAccessComesBeforeCommandAndDelivery : Obligations.CsrAccessComesBeforeCommandAndDelivery := by
  unfold Obligations.CsrAccessComesBeforeCommandAndDelivery
  refine ⟨fun s a v c edge idle => ?_, fun s a c edge idle => ?_, fun s a v edge resp => ?_, fun s a edge resp => ?_⟩
  · intro s'
    have accepts : step s = acceptCommand c s' := by
      rw [step, clockEdge, edge]
      exact edgeWith_transfer acceptCommand rfl rfl idle
    refine ⟨accepts, fun word => accepts.trans (acceptCommand_of_decode s' ?_)⟩
    rw [word]
    exact decode_configureWord _
  · rw [step, clockEdge, edge]
    exact edgeWith_transfer acceptCommand rfl rfl idle
  · have delivers : step s = .next (csrPort (some (.write a v)) s.dropEdge).deliver := by
      rw [step, clockEdge, edge]
      exact edgeWith_delivery acceptCommand rfl rfl resp
    obtain ⟨configured, -, -, fixed⟩ := csrWrite_flags s.csr a v
    have csr : (csrPort (some (.write a v)) s.dropEdge).deliver.csr =
        { s.csr.write a v with lastStatus := s.seq.rspStatus, cfgLock := s.csr.configured } := by
      rw [csrPort_write_dropEdge, deliver_csr, configured]
    exact ⟨_, delivers, csr, fun locked => by rw [csr, fixed locked], csrRead_write_deliver (s := s.dropEdge) v⟩
  · have delivers : step s = .next (csrPort (some (.read a)) s.dropEdge).deliver := by
      rw [step, clockEdge, edge]
      exact edgeWith_delivery acceptCommand rfl rfl resp
    refine ⟨_, delivers, rfl, rfl, ?_⟩
    rintro rfl
    exact csrRead_status_of_resp resp

/-! ## Refusals (R201, R203, R205) -/

/-- The check of CONFIGURED (R202 step 3). -/
theorem admitKeyed_eq_errNotConfigured {s : State} (klen : BitVec 8) (fresh : s.csr.configured = false) :
    s.admitKeyed klen = .errNotConfigured := by
  rw [State.admitKeyed, if_pos fresh]

/-- Settles O26: both keyed commands make the same checks, and the one of CONFIGURED stops them with any storage. -/
theorem keyedCommandBeforeConfigureIsRefused : Obligations.KeyedCommandBeforeConfigureIsRefused := by
  unfold Obligations.KeyedCommandBeforeConfigureIsRefused
  intro s klen p count other fresh i keyed
  have refused := fun ran => keyed_of_refused (s := { s with store := other }) ran
    (admitKeyed_eq_errNotConfigured klen fresh) (by decide)
  rcases List.mem_pair.mp keyed with rfl | rfl
  · exact refused (State.runInsert { s with store := other } klen p count)
  · exact refused (State.runQuery { s with store := other } klen p)

/-- A command that answers an error has refused, and a CONFIGURE has set CFG_LOCK before (R34, R203). -/
theorem exec_refused {i : Instr} {s t : State} (ran : exec i s = .next t) (failed : t.seq.rspStatus ≠ 0) :
    ∃ st, t = s.refuse st ∨ t = s.lock.refuse st := by
  cases i with
  | insert klen p count =>
    rcases execInsert_next ran with ⟨-, -, refused⟩ | ⟨-, rfl⟩
    · exact ⟨_, .inl refused⟩
    · exact absurd rfl failed
  | query klen p =>
    rcases execQuery_next ran with ⟨-, -, refused⟩ | ⟨-, rfl⟩
    · exact ⟨_, .inl refused⟩
    · exact absurd rfl failed
  | configure =>
    rcases execConfigure_next ran with ⟨-, -, refused⟩ | ⟨-, rfl⟩
    · exact ⟨_, .inr refused⟩
    · exact absurd rfl failed

/-- The delivery gives CFG_LOCK its value from CONFIGURED, whatever it was (R180). -/
theorem deliver_lock_refuse (s : State) (st : Status) : (s.lock.refuse st).deliver = (s.refuse st).deliver := rfl

/-- An idle block with the invariants is in the idle state that `cfgd` names (R41, R191). -/
theorem Inv.fsm_of_cfgd {s : State} (h : Inv s) (accepting : s.seq.fsm = .uncfg ∨ s.seq.fsm = .idle) :
    (if s.seq.cfgd = true then Fsm.idle else .uncfg) = s.seq.fsm := by
  rcases accepting with uncfg | idle
  · rw [h.cfgd, h.uncfg uncfg, uncfg]
    rfl
  · rw [h.cfgd, h.idle idle, idle]
    rfl

/-- A refusal that is taken returns the block to the state before the command, but for LAST_STATUS and the response
register (R205). -/
theorem deliver_refuse {s : State} (h : Inv s) (accepting : s.seq.fsm = .uncfg ∨ s.seq.fsm = .idle) (st : Status) :
    (s.refuse st).deliver =
      { s with
        csr := { s.csr with lastStatus := st.code }
        seq := { s.seq with rspStatus := st.code, rspEst := 0 } } := by
  have notResp : s.seq.fsm ≠ .resp := by
    intro resp
    rw [resp] at accepting
    exact absurd accepting (by decide)
  calc (s.refuse st).deliver
      = { s with
          csr := { s.csr with lastStatus := st.code, cfgLock := s.csr.configured }
          seq := { s.seq with
            fsm := if s.seq.cfgd = true then .idle else .uncfg, rspStatus := st.code, rspEst := 0 } } := rfl
    _ = { s with
          csr := { s.csr with lastStatus := st.code }
          seq := { s.seq with rspStatus := st.code, rspEst := 0 } } := by
        rw [h.fsm_of_cfgd accepting, ← h.lockIdle notResp]

/-- Settles O29: an error is a refusal, which the delivery undoes but for its status. -/
theorem refusedCommandChangesOnlyLastStatus : Obligations.RefusedCommandChangesOnlyLastStatus := by
  unfold Obligations.RefusedCommandChangesOnlyLastStatus
  intro s t i h accepting ran failed
  obtain ⟨st, rfl | rfl⟩ := exec_refused ran failed
  · exact ⟨rfl, deliver_refuse h accepting st⟩
  · exact ⟨rfl, (deliver_lock_refuse s st).trans (deliver_refuse h accepting st)⟩

/-! ## The admitted command (R202 step 7) -/

/-- Settles O38: both commands complete with what their stages answer, and no stage answers more. -/
theorem admittedKeyedCommandAnswersOk : Obligations.AdmittedKeyedCommandAnswersOk := by
  unfold Obligations.AdmittedKeyedCommandAnswersOk
  intro s klen p count serves
  exact ⟨⟨_, _, execInsert_serves serves, completes_respond .., insertLight_est_le ..⟩,
    _, _, execQuery_serves serves, completes_respond_same .., queryLight_le ..⟩

/-! ## No state with the invariants stops (R202, R204) -/

section answers
variable {s : State}

/-- An INSERT or a QUERY faults only where the block is configured by an illegal configuration (R177). -/
theorem keyed_answers {klen : BitVec 8} (ran : State) (valid : s.csr.configured = true → s.cfgValid = true) :
    ∃ t, s.keyed klen ran = .next t := by
  by_cases admitted : s.admitKeyed klen = .ok
  · have legal : s.cfgValid = true := valid (admitKeyed_eq_ok.mp admitted).1
    exact ⟨ran, by simp only [State.keyed, admitted, legal, if_true]⟩
  · exact ⟨_, keyed_of_refused ran rfl admitted⟩

theorem exec_answers (i : Instr) (valid : s.csr.configured = true → s.cfgValid = true) : ∃ t, exec i s = .next t := by
  cases i with
  | insert klen p count => exact keyed_answers (s.runInsert klen p count) valid
  | query klen p => exact keyed_answers (s.runQuery klen p) valid
  | configure =>
    by_cases admitted : s.lock.admitConfigure = .ok
    · obtain ⟨fresh, legal⟩ := admitConfigure_eq_ok.mp admitted
      exact ⟨_, execConfigure_of_admitted fresh legal⟩
    · exact ⟨_, execConfigure_of_refused rfl admitted⟩

theorem acceptCommand_answers (c : Command) (valid : s.csr.configured = true → s.cfgValid = true) :
    ∃ t, acceptCommand c s = .next t := by
  cases decodes : decode c.word c.payload with
  | illegalOpcode => exact ⟨_, acceptCommand_illegalOpcode s decodes⟩
  | reservedField => exact ⟨_, acceptCommand_reservedField s decodes⟩
  | command i =>
    rw [acceptCommand_of_decode s decodes]
    exact exec_answers i valid

/-- Every event of an edge answers a next state: the reset, the hold, the delivery, and, because the CSR access before it
keeps the configuration legal, the acceptance (R210). -/
theorem step_answers (h : Inv s) : Safe s := by
  cases hr : s.nextEdge.rst with
  | true => exact ⟨_, step_reset hr⟩
  | false =>
    rcases or_assoc.mpr h.settled with idle | resp
    · cases offered : s.nextEdge.cmd with
      | none => exact ⟨_, edgeWith_hold acceptCommand hr (.inl ⟨idle, offered⟩)⟩
      | some c =>
        obtain ⟨t, accepted⟩ := acceptCommand_answers c (csrPort_inv s.nextEdge.csr (dropEdge_inv h)).valid
        exact ⟨t, (edgeWith_transfer (s := s.dropEdge) acceptCommand hr offered idle).trans accepted⟩
    · cases taken : s.nextEdge.rspReady with
      | false => exact ⟨_, edgeWith_hold acceptCommand hr (.inr ⟨resp, taken⟩)⟩
      | true => exact ⟨_, edgeWith_delivery acceptCommand hr taken resp⟩

end answers

/-- Settles O49: no event of an edge stops the block. -/
theorem stepNeverStops : Obligations.StepNeverStops := by
  unfold Obligations.StepNeverStops
  intro s h
  exact step_answers h

/-- A run whose first step goes on is the run of the rest. -/
theorem run_succ_of_step {M : Host.Core} {s t : M.State} (n : Nat) (stepped : M.step s = .next t) :
    M.run (n + 1) s = M.run n t := by
  rw [Host.Core.run, stepped]

/-- A run from a state with the invariants reaches another one, since every step goes on and keeps them (R45, R204). -/
theorem run_answers (n : Nat) {s : State} (h : Inv s) :
    ∃ t, Host.Core.run Sys2Proof.core n s = .next t ∧ Inv t := by
  induction n generalizing s with
  | zero => exact ⟨s, rfl, h⟩
  | succ n ih =>
    obtain ⟨u, stepped⟩ := step_answers h
    obtain ⟨t, ran, inv⟩ := ih (step_inv h stepped)
    exact ⟨t, (run_succ_of_step (M := Sys2Proof.core) n stepped).trans ran, inv⟩

/-- Settles O50: the block after reset has the invariants. -/
theorem noRunFromResetStops : Obligations.NoRunFromResetStops := by
  unfold Obligations.NoRunFromResetStops
  intro p outside n legal
  obtain ⟨-, started⟩ := invariantHoldsAtReset
  exact run_answers n (started p outside legal)

end Sys2Proof.Machine
end

section
/-! SUPPORT. The statement about the reset edge (70_reset_and_hazards.md): what it does to each part of the state (R220,
R222), what the CSR map then reads (R221), and the outputs of a block in UNCFG (R194). -/

namespace Sys2Proof.Machine

/-! ## The state after a reset edge, part by part (R220, R222) -/

section parts
variable (s : State)

@[simp] theorem resetEdge_inst : s.resetEdge.inst = s.inst := rfl
@[simp] theorem resetEdge_csr : s.resetEdge.csr = Csrs.reset := rfl
@[simp] theorem resetEdge_fsm : s.resetEdge.seq.fsm = .uncfg := rfl
@[simp] theorem resetEdge_cfgd : s.resetEdge.seq.cfgd = false := rfl
@[simp] theorem resetEdge_draws : s.resetEdge.port.draws = s.port.draws := rfl
@[simp] theorem dropEdge_draws : s.dropEdge.port.draws = s.port.draws := rfl

end parts

/-! ## What the registers read after it (R44, R221) -/

/-- The reset value of a register (R44, R221). -/
def CsrName.resetValue : CsrName → Word32
  | .id => 0x534B4331
  | .cfgThrHi => 0x40000000
  | .status | .cfgL | .cfgM | .cfgLightLen | .cfgB | .cfgH | .cfgLen8 | .cfgLen16 | .cfgThrLo => 0

/-- In UNCFG, BUSY is 0, so STATUS is all zeros too. -/
theorem csrValue_of_reset {s : State} (csr : s.csr = Csrs.reset) (fsm : s.seq.fsm = .uncfg) (n : CsrName) :
    s.csrValue n = n.resetValue := by
  cases n with
  | id => rfl
  | status =>
    have free : s.busy = false := by rw [State.busy, fsm]; rfl
    show s.statusWord = 0
    rw [State.statusWord, csr, free]
    rfl
  | cfgL | cfgM | cfgLightLen | cfgB | cfgH | cfgLen8 | cfgLen16 | cfgThrLo | cfgThrHi => rw [State.csrValue, csr]; rfl

theorem csrRead_resetEdge (s : State) (n : CsrName) : s.resetEdge.csrRead n.addr = n.resetValue :=
  (csrRead_addr s.resetEdge n).trans (csrValue_of_reset (resetEdge_csr s) (resetEdge_fsm s) n)

/-- The CFG_* registers but CFG_THR_HI, in address order. -/
def CsrName.zeroAtReset : List CsrName := [.cfgL, .cfgM, .cfgLightLen, .cfgB, .cfgH, .cfgLen8, .cfgLen16, .cfgThrLo]

theorem resetValue_of_zeroAtReset : ∀ n ∈ CsrName.zeroAtReset, n.resetValue = 0 := by decide

theorem csrRead_resetEdge_zero (s : State) : ∀ a ∈ CsrName.zeroAtReset.map CsrName.addr, s.resetEdge.csrRead a = 0 :=
  List.forall_mem_map.mpr fun n member => (csrRead_resetEdge s n).trans (resetValue_of_zeroAtReset n member)

/-! ## The outputs of a block in UNCFG (R194) -/

/-- Nothing is pending in UNCFG, and a command is taken at once. -/
theorem outputs_of_uncfg {s : State} (uncfg : s.seq.fsm = .uncfg) :
    s.response false = none ∧ s.hashRequest false = none ∧ s.cmdReady false = true := by
  refine ⟨?_, ?_, (cmdReady_iff s).mpr (.inl uncfg)⟩
  · rw [← Option.not_isSome_iff_eq_none, response_isSome_iff, uncfg]
    decide
  · refine Option.eq_none_iff_forall_ne_some.mpr fun r driven => ?_
    obtain ⟨hash, -⟩ := waits_of_hashRequest driven
    exact absurd (uncfg.symm.trans hash) (by decide)

/-! ## The reset edge -/

/-- Settles O11: the reset comes before all else at the edge, and the state it leaves reads as R221 says. -/
theorem resetEdgeLeavesTheResetValues : Obligations.ResetEdgeLeavesTheResetValues := by
  unfold Obligations.ResetEdgeLeavesTheResetValues
  intro s hr
  have reads := csrRead_resetEdge s.dropEdge
  have uncfg := resetEdge_fsm s.dropEdge
  obtain ⟨noResponse, noRequest, ready⟩ := outputs_of_uncfg uncfg
  have draws : s.dropEdge.resetEdge.port.draws = s.port.draws := by rw [resetEdge_draws, dropEdge_draws]
  exact ⟨s.dropEdge.resetEdge, step_reset hr, reads .id, reads .status, csrRead_resetEdge_zero s.dropEdge,
    reads .cfgThrHi, uncfg, resetEdge_cfgd _, noResponse, noRequest, ready, rfl,
    (resetEdge_inst _).trans (dropEdge_inst s), draws⟩

end Sys2Proof.Machine
end
